-- ==== Sys2Proof/Word.lean ====
section
/-! DEFINITION. The fixed widths of the unit (00_scope.md R9, R71): a byte, a 16-bit colour word, a 32-bit scalar,
a 72-bit command word. Addresses, cursors and counts are natural numbers and never wrap (R10, R23). -/

namespace Sys2Proof

/-- One byte of the ByteSource, of a tile cell, of a channel or of an offset (R9). -/
abbrev Byte := BitVec 8

/-- A 16-bit scalar: a colour word (R80). -/
abbrev Half := BitVec 16

/-- A 32-bit scalar: a pointer, a size, a skip, a command operand, `RESULT` (R9, R26, R71). -/
abbrev Word := BitVec 32

/-- The command word `(op, a, b)` of the command port (R71). -/
abbrev CommandWord := BitVec 72

end Sys2Proof
end

