-- ==== Sys2Proof/Machine/Shapes.lean ====
section
/-! DEFINITION. The shapes of the data the unit holds (00_scope.md R9; 10_state.md R30 to R36): colours, tiles,
placements, frames, output pixels, the canvas and the ByteSource. -/

namespace Sys2Proof.Machine

/-- A palette entry: three 5-bit channels, kept raw (R30, R80). -/
structure Colour where
  r : BitVec 5
  g : BitVec 5
  b : BitVec 5
deriving DecidableEq, Repr, Inhabited

/-- An RGBA pixel, four 8-bit channels in the order R, G, B, A (R200). -/
structure Rgba where
  r : Byte
  g : Byte
  b : Byte
  a : Byte
deriving DecidableEq, Repr, Inhabited

/-- Sixty-four 8-bit cells, row-major, each a palette index (R31). -/
abbrev Tile := List Byte

/-- An entry of the placement list (R32). -/
structure Placement where
  startTile : Byte
  offsetX : Byte
  offsetY : Byte
  sizeIndex : BitVec 2
  shapeIndex : BitVec 2
  w : Nat
  h : Nat
  hflip : Bool
  vflip : Bool
deriving DecidableEq, Repr, Inhabited

/-- A frame `(tiles, nt, pal, plist, np, delay, endFlag)`; `nt` and `np` are the two lengths (R34, log 11). -/
structure Frame where
  tiles : List Tile
  pal : List Colour
  plist : List Placement
  delay : Byte
  endFlag : Byte
deriving DecidableEq, Repr, Inhabited

/-- The ByteSource: its length and its bytes, as the addresses and bytes that are listed (R50, log 8). -/
structure ByteSource where
  len : Nat
  mem : List Host.Cell
deriving DecidableEq, Repr

/-- The external canvas: its size and the pixels listed by their number `y * width + x` (R36, log 9). -/
structure Canvas where
  width : Nat
  height : Nat
  pixels : List (Nat × Rgba)
deriving DecidableEq, Repr

/-- What the host drives: a command word on the command port (R71) or `RST` (R250). -/
inductive HostInput where
  | cmd (w : CommandWord)
  | rst
deriving DecidableEq, Repr

/-- What a decode in progress carries: the Reader, threaded as a value (R24), and the sticky `WARN` that the
marker check may set (R174). -/
structure DecodeState where
  base : Nat
  cursor : Nat
  warn : Bool
deriving DecidableEq, Repr

/-- A fault kind with what it is about (R221 to R225): the argument of `raise`. -/
inductive Raise where
  | outOfBounds (address width : Nat)
  | unexpectedMarker (h1 h2 : Byte)
  | unterminatedPlacementList (address : Nat)
  | invalidSizeIndex (key : Nat)
  | tileIndexOutOfRange (index : Nat)
  | notReady
  | badOperand (operand : Word)
  | illegalCommand (op : Byte)
  | badSkip (skip : Word)
deriving DecidableEq, Repr

/-- The values of the fault-kind register `ERR` (R27). -/
inductive ErrKind where
  | noFault
  | outOfBounds
  | unexpectedMarker
  | unterminatedPlacementList
  | invalidSizeIndex
  | tileIndexOutOfRange
  | notReady
  | badOperand
  | illegalCommand
  | badSkip
deriving DecidableEq, Repr

end Sys2Proof.Machine
end

