-- ==== Sys2Proof/Config.lean ====
section
/-! DEFINITION. What is fixed for the machine: the type of the record of named constants (00_scope.md R8; the values are
in Machine/Consts.lean), and the free values, which have no body, for the contents the spec leaves unspecified
(93_implementation_defined.md U12; log 5). -/

namespace Sys2Proof

/-- The named constants of R8, kept in one record because the source's literals are unaudited (U20, log 17). Every
field but one is read by the definitions of the rules that use it; `palSizeExpected` is read by none, as no rule checks
the size field (R8, R122, R126). -/
structure Consts where
  tileDim : Nat
  tileBytes : Nat
  palEntries : Nat
  palSizeExpected : Nat
  chScale : Nat
  alphaOpaque : Nat
  recBytes : Nat
  sentinelByte : Byte
  sizeMask : Byte
  hflipMask : Byte
  vflipMask : Byte
  shapeMask : Byte
  sizeTable : List (Nat × Nat)
  skipBias : Nat
  hdrBytes : Nat
  mark1 : Byte
  mark2 : Byte
  animrecBytes : Nat
  posBias : Nat
  lookupBase : Nat
  lookupMask : Word
deriving DecidableEq, Repr

namespace Config

/-- A free 32-bit value for draw `k`: `RESULT` after `RST` (log 6). -/
opaque freeWord : Nat → Word

/-- A free byte, number `i` of draw `k` (log 5). -/
opaque freeByte : Nat → Nat → Byte

/-- A free count, number `i` of draw `k`: how many tiles or placements an unspecified store holds, how large an
unspecified dimension is (log 5). -/
opaque freeCount : Nat → Nat → Nat

/-- A free bit, number `i` of draw `k`, at `(x, y)` (log 5). -/
opaque freeBit : Nat → Nat → Nat → Nat → Bool

/-- A free palette index of draw `k`, number `i` of grid or tile `t` (log 5). -/
opaque freePixel : Nat → Nat → Nat → BitVec 4

/-- A free raw colour of draw `k`, at `(x, y)` (log 5). -/
opaque freeColour : Nat → Nat → Nat → Machine.Colour

end Config

end Sys2Proof
end

