-- ==== Sys2Proof/Machine/Consts.lean ====
section
/-! DEFINITION. The values of the named constants of 00_scope.md R8, in one record (U20, log 17). -/

namespace Sys2Proof.Machine

/-- The source's literals (R8); `sizeTable` is the 12-entry table of R158, pairs (width, height) in tiles. -/
def consts : Consts where
  tileDim := 8
  tileBytes := 32
  palEntries := 16
  palSizeExpected := 0x20
  chScale := 8
  alphaOpaque := 255
  recBytes := 5
  sentinelByte := 0xFF
  sizeMask := 0x3
  hflipMask := 0x40
  vflipMask := 0x20
  shapeMask := 0x3
  sizeTable := [(1, 1), (2, 2), (4, 4), (8, 8), (2, 1), (4, 1), (4, 2), (8, 2), (1, 2), (1, 4), (2, 4), (4, 8)]
  skipBias := 4
  hdrBytes := 4
  mark1 := 0x00
  mark2 := 0x01
  animrecBytes := 20
  posBias := 128
  lookupBase := 0x31EA8
  lookupMask := 0xFFFFFF

end Sys2Proof.Machine
end

