-- ==== Sys2Proof/Syntax.lean ====
section
/-! DEFINITION. The instructions: one constructor for each row of spec/opcode_table.json, fourteen commands
(30_encoding.md R72) and the two forms of a placement record (R83). -/

namespace Sys2Proof

/-- The operands are those the command uses (R72); operand bits a command ignores are not part of the syntax.
`place` keeps all five bytes of its record (R162). -/
inductive Instr where
  | rebase (newBase newCursor : Word)
  | seek (newCursor : Word)
  | read8
  | read16
  | read32
  | decpal
  | dectile
  | decoam
  | decasset (address : Word) (strict : Bool)
  | selframe (index : Word)
  | lookup (index : Word)
  | compose (index : Word)
  | xform (offset : Byte)
  | blit (index : Word)
  | endMark
  | place (startTile offsetX offsetY sizeByte shapeByte : Byte)
deriving DecidableEq, Repr

/-- Something encoded that the unit is given: a command word on the command port, or the bytes of a placement
record in stream order, first byte first (R70). -/
inductive Code where
  | command (w : CommandWord)
  | record (bytes : List Byte)
deriving DecidableEq, Repr

end Sys2Proof
end

