-- ==== Sys2Proof/WellFormed.lean ====
section
/-! DEFINITION. Which terms of the syntax some encoding stands for. Every field has its exact width by type, so the one
check left is that a `PLACE` is not the five bytes 0xFF, which are the `END` record (30_encoding.md R83). -/

namespace Sys2Proof

/-- The five bytes of the sentinel record, each `SENTINEL_BYTE` (R8, R83, R155). -/
def isSentinel (b0 b1 b2 b3 b4 : Byte) : Bool :=
  [b0, b1, b2, b3, b4].all (· == Machine.consts.sentinelByte)

/-- `PLACE` is "every other value" than the `END` record (R83); every command is well formed. -/
def Instr.wf : Instr → Bool
  | .rebase _ _ => true
  | .seek _ => true
  | .read8 => true
  | .read16 => true
  | .read32 => true
  | .decpal => true
  | .dectile => true
  | .decoam => true
  | .decasset _ _ => true
  | .selframe _ => true
  | .lookup _ => true
  | .compose _ => true
  | .xform _ => true
  | .blit _ => true
  | .endMark => true
  | .place b0 b1 b2 b3 b4 => !isSentinel b0 b1 b2 b3 b4

end Sys2Proof
end

