-- ==== Sys2Proof/Decode.lean ====
section
/-! DEFINITION. The decoder, total on any command word and any bytes, rejecting by name, and after it the encoder
(30_encoding.md R71 to R73, R82, R83, R92). -/

namespace Sys2Proof

/-- Why something encoded is no instruction. `illegalCommand`: an `op` outside the table of R72 (R73), which the unit
answers with the fault `IllegalCommand(op)`. `recordLength`: not five bytes, so no placement record (R82, R90); the unit
never offers one to the decoder. -/
inductive DecodeReject where
  | illegalCommand (op : Byte)
  | recordLength (n : Nat)
deriving DecidableEq, Repr

/-- `op = cmd[71:64]` (R71). -/
def opOf (w : CommandWord) : Byte := w.extractLsb' 64 8

/-- `a = cmd[63:32]` (R71). -/
def aOf (w : CommandWord) : Word := w.extractLsb' 32 32

/-- `b = cmd[31:0]` (R71). -/
def bOf (w : CommandWord) : Word := w.extractLsb' 0 32

/-- The opcode table of R72; operand bits a command does not use are ignored. -/
def decodeCommand (w : CommandWord) : Except DecodeReject Instr :=
  match opOf w with
  | 0x01#8 => .ok (.rebase (aOf w) (bOf w))
  | 0x02#8 => .ok (.seek (aOf w))
  | 0x03#8 => .ok .read8
  | 0x04#8 => .ok .read16
  | 0x05#8 => .ok .read32
  | 0x10#8 => .ok .decpal
  | 0x11#8 => .ok .dectile
  | 0x12#8 => .ok .decoam
  | 0x13#8 => .ok (.decasset (aOf w) ((bOf w).getLsbD 0))
  | 0x14#8 => .ok (.selframe (aOf w))
  | 0x15#8 => .ok (.lookup (aOf w))
  | 0x20#8 => .ok (.compose (aOf w))
  | 0x21#8 => .ok (.xform ((aOf w).extractLsb' 0 8))
  | 0x22#8 => .ok (.blit (aOf w))
  | op => .error (.illegalCommand op)

/-- The two record forms: `END` is tried first, on the five raw bytes; every other record is a `PLACE` (R83). -/
def decodeRecord : List Byte → Except DecodeReject Instr
  | [b0, b1, b2, b3, b4] =>
    if isSentinel b0 b1 b2 b3 b4 then .ok .endMark else .ok (.place b0 b1 b2 b3 b4)
  | bytes => .error (.recordLength bytes.length)

/-- The decoder. -/
def decode : Code → Except DecodeReject Instr
  | .command w => decodeCommand w
  | .record bytes => decodeRecord bytes

/-- The command word `(op, a, b)`, `op` in the most significant position (R71). -/
def commandWord (op : Byte) (a b : Word) : CommandWord := op ++ a ++ b

/-- The encoder: unused operands are zero (R92); the record bytes are in stream order (R82),
and `END` is `REC_BYTES` times `SENTINEL_BYTE` (R8, R83). -/
def encode : Instr → Code
  | .rebase newBase newCursor => .command (commandWord 0x01 newBase newCursor)
  | .seek newCursor => .command (commandWord 0x02 newCursor 0)
  | .read8 => .command (commandWord 0x03 0 0)
  | .read16 => .command (commandWord 0x04 0 0)
  | .read32 => .command (commandWord 0x05 0 0)
  | .decpal => .command (commandWord 0x10 0 0)
  | .dectile => .command (commandWord 0x11 0 0)
  | .decoam => .command (commandWord 0x12 0 0)
  | .decasset address strict => .command (commandWord 0x13 address (if strict then 1 else 0))
  | .selframe index => .command (commandWord 0x14 index 0)
  | .lookup index => .command (commandWord 0x15 index 0)
  | .compose index => .command (commandWord 0x20 index 0)
  | .xform offset => .command (commandWord 0x21 (offset.zeroExtend 32) 0)
  | .blit index => .command (commandWord 0x22 index 0)
  | .endMark => .record (List.replicate Machine.consts.recBytes Machine.consts.sentinelByte)
  | .place startTile offsetX offsetY sizeByte shapeByte =>
    .record [startTile, offsetX, offsetY, sizeByte, shapeByte]

/-- The five bytes of a 40-bit record value, first stream byte least significant (R82). -/
def recordBytes (w : Nat) : List Byte :=
  (List.range Machine.consts.recBytes).map fun i => BitVec.ofNat 8 (w >>> (8 * i))

/-- A word of spec/opcode_table.json laid out as the hardware is given it: the table's `REC40` rows are the five bytes of
a record, its `CMD72` rows are one command word (R70); bits from `nbits` up are zero (log 14). -/
def codeOfTableWord (nbits w : Nat) : Code :=
  if nbits ≤ 8 * Machine.consts.recBytes then .record (recordBytes (w % 2 ^ nbits))
  else .command (BitVec.ofNat 72 (w % 2 ^ nbits))

/-- What the decoder reads from an instruction whose bits, numbered as the opcode table numbers them, are `w`. -/
def decodeTableWord (nbits w : Nat) : Option Instr :=
  (decode (codeOfTableWord nbits w)).toOption

end Sys2Proof
end

