-- ==== Sys2Proof/Machine/Sparse.lean ====
section
/-! DEFINITION. Sparse data by key in one canonical form: keys strictly rising, no entry equal to the value `d` that an
unlisted key reads as, so that equal contents are equal lists. The ByteSource's bytes and the canvas's pixels are
held in it (logs 8 and 9). -/

namespace Sys2Proof.Machine.Sparse

/-- What key `k` reads as; an unlisted key reads as `d`. -/
def get {α : Type} (d : α) : List (Nat × α) → Nat → α
  | [], _ => d
  | (k', v) :: rest, k => if k' = k then v else get d rest k

/-- Put an entry in front, unless it equals the unlisted value. -/
def put {α : Type} [DecidableEq α] (d : α) (k : Nat) (v : α) (m : List (Nat × α)) : List (Nat × α) :=
  if v = d then m else (k, v) :: m

/-- Write `v` at key `k`, keeping the canonical form: writing `d` removes the entry. -/
def set {α : Type} [DecidableEq α] (d : α) : List (Nat × α) → Nat → α → List (Nat × α)
  | [], k, v => put d k v []
  | (k', v') :: rest, k, v =>
    if k < k' then put d k v ((k', v') :: rest)
    else if k = k' then put d k v rest
    else (k', v') :: set d rest k v

/-- The canonical form, for keys from `lo` on. -/
def wfFrom {α : Type} [DecidableEq α] (d : α) : Nat → List (Nat × α) → Bool
  | _, [] => true
  | lo, (k, v) :: rest => decide (lo ≤ k) && !(decide (v = d)) && wfFrom d (k + 1) rest

/-- The canonical form: keys strictly rising, no entry equal to `d`. -/
def wf {α : Type} [DecidableEq α] (d : α) (m : List (Nat × α)) : Bool := wfFrom d 0 m

end Sys2Proof.Machine.Sparse
end

