-- ==== Sys2Proof/Machine/State.lean ====
section
/-! DEFINITION. The state of the unit (10_state.md R21, which lists it exactly), the list under construction of the record
stream (R162), what lies outside the unit and a step reads or writes (ByteSource, canvas, host), the parameters of the
run (00_scope.md R7), and the counter of the free values. -/

namespace Sys2Proof.Machine

/-- One field for each line of INVENTORY.md's State heading. -/
structure State where
  /-- `BASE` (R22). -/
  base : Nat
  /-- `CURSOR` (R22). -/
  cursor : Nat
  /-- `RESULT` (R26). -/
  result : Word
  /-- `RVALID` (R26). -/
  rvalid : Bool
  /-- `BUSY` (R28): set only while a record stream is being walked record by record (log 10). -/
  busy : Bool
  /-- `ERR` (R27). -/
  err : ErrKind
  /-- `EINFO` (R27, R227). -/
  einfo : Nat
  /-- `EWIDTH` (R27, R227). -/
  ewidth : Nat
  /-- `WARN`, sticky (R28). -/
  warn : Bool
  /-- `WPAL` (R30). -/
  wpal : List Colour
  /-- `PVALID` (R30). -/
  pvalid : Bool
  /-- `WTILES`; its length is `NT` (R31). -/
  wtiles : List Tile
  /-- `TVALID` (R31). -/
  tvalid : Bool
  /-- `WPLIST`; its length is `NP` (R32). -/
  wplist : List Placement
  /-- `LVALID` (R32). -/
  lvalid : Bool
  /-- `WDELAY` (R33). -/
  wdelay : Byte
  /-- `WENDFLAG` (R33). -/
  wendflag : Byte
  /-- `FRAMES`; its length is `NFRAMES` (R34). -/
  frames : List Frame
  /-- `LBUF`, rows of cells (R35). -/
  lbuf : List (List Byte)
  /-- `LW` (R35). -/
  lw : Nat
  /-- `LH` (R35). -/
  lh : Nat
  /-- `OUT`, rows of pixels; `none` is a transparent pixel (R35, R200). -/
  out : List (List (Option Rgba))
  /-- `OUTX` (R35). -/
  outx : Byte
  /-- `OUTY` (R35). -/
  outy : Byte
  /-- `OUTW` (R35). -/
  outw : BitVec 7
  /-- `OUTH` (R35). -/
  outh : BitVec 7
  /-- `OVALID` (R35). -/
  ovalid : Bool
  /-- The list under construction of the placement-list decoder (R151, R162); empty unless `BUSY = 1` (log 10). -/
  walk : List Placement
  /-- The external canvas (R36, log 9). -/
  canvas : Canvas
  /-- What the host will drive, in order (R241, R242, log 1). -/
  host : List HostInput
  /-- The ByteSource `MEM`, `LEN`: a parameter of the run, changed by no step (R20, R50, log 7). -/
  src : ByteSource
  /-- `MAX_PLACEMENTS`: a parameter of the run, changed by no step (R7, R156, log 7). -/
  maxPlacements : Nat
  /-- The model's own counter, by which the free values are drawn (log 5). -/
  fresh : Nat
deriving DecidableEq, Repr

/-- `NT` (R31, log 11). -/
def State.nt (s : State) : Nat := s.wtiles.length

/-- `NP` (R32, log 11). -/
def State.np (s : State) : Nat := s.wplist.length

/-- `NFRAMES` (R34, log 11). -/
def State.nframes (s : State) : Nat := s.frames.length

/-- Reasons a step could stop the machine with a fault: there are none. Every fault of the unit is a state the
spec describes (`ERR`, `EINFO`, `EWIDTH` written, the unit FAULTED, R226, R229), so it is a next state. -/
inductive Fault where
deriving DecidableEq, Repr

/-- Reasons a step could be refused. `notModelled` is raised by nobody: every instruction has its meaning; it is the
host's name for an arm not yet written, and would be safe. -/
inductive Refusal where
  | notModelled (mnemonic : String)
deriving DecidableEq, Repr

/-- What a step or an instruction's meaning answers. -/
abbrev Outcome := Host.Outcome State Fault Refusal

/-- The machine right after reset (R40, R250). Where R40 says a content is unspecified the value is the model's own
(log 4); the parameters of the run and the canvas, which reset does not touch, are those of log 7 and log 9. -/
def State.reset : State where
  base := 0
  cursor := 0
  result := 0
  rvalid := false
  busy := false
  err := .noFault
  einfo := 0
  ewidth := 0
  warn := false
  wpal := List.replicate consts.palEntries ⟨0, 0, 0⟩
  pvalid := false
  wtiles := []
  tvalid := false
  wplist := []
  lvalid := false
  wdelay := 0
  wendflag := 0
  frames := []
  lbuf := []
  lw := 0
  lh := 0
  out := []
  outx := 0
  outy := 0
  outw := 0
  outh := 0
  ovalid := false
  walk := []
  canvas := ⟨320, 320, []⟩
  host := []
  src := ⟨0, []⟩
  maxPlacements := 128
  fresh := 0

end Sys2Proof.Machine
end

