-- ==== Sys2Proof/Machine/Ops.lean ====
section
/-! DEFINITION. The named operations over memory and registers: reading the ByteSource, the Reader, writing back a
decode, taking a fault and leaving FAULTED by reset, the free contents, the canvas port. -/

namespace Sys2Proof.Machine

/-! ### The ByteSource (20_memory.md) -/

/-- The byte at address `a`; a byte below `LEN` that nothing lists reads as 0 (R50, log 8). -/
def ByteSource.byte (src : ByteSource) (a : Nat) : Byte := Sparse.get 0 src.mem a

/-- The little-endian number made of the `n` bytes at `a`: the byte at the lowest address is least significant (R54). -/
def ByteSource.le (src : ByteSource) (a : Nat) : Nat → Nat
  | 0 => 0
  | n + 1 => (src.byte a).toNat + 256 * src.le (a + 1) n

/-- `MemRead(addr, n)` (R53): one check for the whole read, no wrap, no alignment rule (R56). -/
def memRead (src : ByteSource) (address n : Nat) : Except Raise Nat :=
  if src.len < address + n then .error (.outOfBounds address n) else .ok (src.le address n)

/-- The ByteSource with `bytes` at `address` and its length grown to hold them: how the host's load places bytes.
No instruction does this (R51). -/
def ByteSource.place (src : ByteSource) (address : Nat) : List Byte → ByteSource
  | [] => src
  | b :: bs =>
    ByteSource.place ⟨max src.len (address + 1), Sparse.set 0 src.mem address b⟩ (address + 1) bs

/-! ### The Reader (40_reader.md): a value threaded through each decoder (R24) -/

/-- A decoder reads through the Reader and answers a value, or stops at a fault; either way the Reader stands where the
last step left it (R226). -/
abbrev Decoder (α : Type) := EStateM Raise DecodeState α

/-- Stop the decode with a fault (R226). -/
def Decoder.fail {α : Type} (k : Raise) : Decoder α := fun d => .error k d

/-- `ea() = BASE + CURSOR`, without wrap (R100). -/
def DecodeState.ea (d : DecodeState) : Nat := d.base + d.cursor

/-- A read of `n` bytes at `ea()`; the cursor advances only when it succeeds (R106). -/
def readBytes (src : ByteSource) (n : Nat) : Decoder Nat := fun d =>
  match memRead src d.ea n with
  | .ok v => .ok v { d with cursor := d.cursor + n }
  | .error k => .error k d

/-- `read8()` (R101). -/
def read8 (src : ByteSource) : Decoder Byte := do return BitVec.ofNat 8 (← readBytes src 1)

/-- `read16()` (R102). -/
def read16 (src : ByteSource) : Decoder Half := do return BitVec.ofNat 16 (← readBytes src 2)

/-- `read32()` (R103). -/
def read32 (src : ByteSource) : Decoder Word := do return BitVec.ofNat 32 (← readBytes src 4)

/-- `rebase(b, c)` (R104). -/
def rebase (b c : Nat) : Decoder Unit := fun d => .ok () { d with base := b, cursor := c }

/-- `seek(c)` (R105): the new cursor replaces the old one. -/
def seek (c : Nat) : Decoder Unit := fun d => .ok () { d with cursor := c }

/-- `CURSOR <- CURSOR + n` with no read: the lead-in skip (R153). -/
def advance (n : Nat) : Decoder Unit := fun d => .ok () { d with cursor := d.cursor + n }

/-- `WARN <- 1` (R174). -/
def setWarn : Decoder Unit := fun d => .ok () { d with warn := true }

/-- The address the Reader stands at, as a decoder. -/
def readerAddress : Decoder Nat := fun d => .ok d.ea d

/-- The Reader and `WARN` as a decode takes them from the state. -/
def State.decodeState (s : State) : DecodeState := ⟨s.base, s.cursor, s.warn⟩

/-- The Reader and `WARN` as a decode leaves them. -/
def State.withDecode (s : State) (d : DecodeState) : State :=
  { s with base := d.base, cursor := d.cursor, warn := d.warn }

/-- `ea()` of the unit (R25, R100). -/
def State.ea (s : State) : Nat := s.base + s.cursor

/-- `RESULT <- v; RVALID <- 1` (R26). -/
def State.setResult (s : State) (v : Word) : State := { s with result := v, rvalid := true }

/-- `(WTILES, NT, WPAL, WPLIST, NP, WDELAY, WENDFLAG) <- f`, all valid (R179, R180). -/
def State.loadFrame (s : State) (f : Frame) : State :=
  { s with wtiles := f.tiles, wpal := f.pal, wplist := f.plist, wdelay := f.delay, wendflag := f.endFlag
           tvalid := true, pvalid := true, lvalid := true }

/-! ### Contents the spec leaves unspecified (U12; logs 5, 6 and 20)

Each is made of free values of one draw and keeps the limits R39 sets on every reachable state. -/

/-- The pair that key `key`, taken modulo the length of the size table, names. -/
def sizeOfFree (key : Nat) : Nat × Nat := consts.sizeTable.getD (key % consts.sizeTable.length) (4, 8)

/-- `WPAL` unspecified: `PAL_ENTRIES` free entries. -/
def freePalette (k : Nat) : List Colour := (List.range consts.palEntries).map fun i => Config.freeColour k i 0

/-- A tile of 64 free cells. -/
def freeTile (k t : Nat) : Tile :=
  (List.range (consts.tileDim * consts.tileDim)).map fun i => (Config.freePixel k t i).zeroExtend 8

/-- `WTILES`, `NT` unspecified: a free number of free tiles, no more than the ByteSource could hold (R31). -/
def freeTiles (src : ByteSource) (k : Nat) : List Tile :=
  (List.range (min (Config.freeCount k 0) ((src.len - 4) / consts.tileBytes))).map (freeTile k)

/-- A placement with every field free, of one of the twelve sizes (R32). -/
def freePlacement (k i : Nat) : Placement :=
  let key := Config.freeCount k (2 + i) % consts.sizeTable.length
  { startTile := Config.freeByte k (4 * i + 4)
    offsetX := Config.freeByte k (4 * i + 5)
    offsetY := Config.freeByte k (4 * i + 6)
    sizeIndex := BitVec.ofNat 2 (key % 4)
    shapeIndex := BitVec.ofNat 2 (key / 4)
    w := (sizeOfFree key).1
    h := (sizeOfFree key).2
    hflip := Config.freeBit k 0 i 0
    vflip := Config.freeBit k 0 i 1 }

/-- `WPLIST`, `NP` unspecified: a free number of free placements, at most `MAX_PLACEMENTS` (R32). -/
def freePlacements (maxPlacements k : Nat) : List Placement :=
  (List.range (min (Config.freeCount k 1) maxPlacements)).map (freePlacement k)

/-- `LBUF` unspecified: the whole 64 by 64 buffer of free cells, each 0 to 15 (R35). -/
def freeLocalBuffer (k : Nat) : List (List Byte) := (List.range 64).map fun y => freeTile k y

/-! ### The colour conversion (41_palette.md), needed by the free output pixels too -/

/-- A 5-bit channel times 8, eight bits wide (R124). -/
def channel8 (c : BitVec 5) : Byte := BitVec.ofNat 8 (consts.chScale * c.toNat)

/-- `rgb8(e)`: the 8-bit form of a palette entry, which nothing stores (R30, R124). -/
def Colour.rgb8 (e : Colour) : Byte × Byte × Byte := (channel8 e.r, channel8 e.g, channel8 e.b)

/-- What a painted pixel of palette entry `e` shows: `rgb8(e)` with alpha 255 (R200). -/
def Colour.opaquePixel (e : Colour) : Rgba :=
  ⟨e.rgb8.1, e.rgb8.2.1, e.rgb8.2.2, BitVec.ofNat 8 consts.alphaOpaque⟩

/-- `OUT` unspecified: free pixels, each transparent or of some colour (R35, R39 (f)). -/
def freeOut (k : Nat) : List (List (Option Rgba)) :=
  (List.range 64).map fun y => (List.range 64).map fun x =>
    if Config.freeBit k 1 x y then some (Config.freeColour k x (y + 1)).opaquePixel else none

/-- `LBUF`, `LW`, `LH`, `OUT`, `OUTX`, `OUTY`, `OUTW`, `OUTH` unspecified (R228, R40). -/
def State.freeBlock (s : State) : State :=
  { s with
    lbuf := freeLocalBuffer s.fresh
    lw := Config.freeCount s.fresh 0
    lh := Config.freeCount s.fresh 1
    out := freeOut s.fresh
    outx := Config.freeByte s.fresh 0
    outy := Config.freeByte s.fresh 1
    outw := (Config.freeByte s.fresh 2).truncate 7
    outh := (Config.freeByte s.fresh 3).truncate 7
    fresh := s.fresh + 1 }

/-! ### Faults (60_exceptions.md) -/

/-- `code(K)` (R27, R221 to R225). -/
def Raise.kind : Raise → ErrKind
  | .outOfBounds _ _ => .outOfBounds
  | .unexpectedMarker _ _ => .unexpectedMarker
  | .unterminatedPlacementList _ => .unterminatedPlacementList
  | .invalidSizeIndex _ => .invalidSizeIndex
  | .tileIndexOutOfRange _ => .tileIndexOutOfRange
  | .notReady => .notReady
  | .badOperand _ => .badOperand
  | .illegalCommand _ => .illegalCommand
  | .badSkip _ => .badSkip

/-- `EINFO` by kind (R227). -/
def Raise.info : Raise → Nat
  | .outOfBounds address _ => address
  | .unexpectedMarker h1 h2 => h1.toNat + 256 * h2.toNat
  | .unterminatedPlacementList address => address
  | .invalidSizeIndex key => key
  | .tileIndexOutOfRange index => index
  | .notReady => 0
  | .badOperand operand => operand.toNat
  | .illegalCommand op => op.toNat
  | .badSkip skip => skip.toNat

/-- `EWIDTH`: the width of the read for `OutOfBounds`, else 0 (R227). -/
def Raise.width : Raise → Nat
  | .outOfBounds _ width => width
  | .unexpectedMarker _ _ => 0
  | .unterminatedPlacementList _ => 0
  | .invalidSizeIndex _ => 0
  | .tileIndexOutOfRange _ => 0
  | .notReady => 0
  | .badOperand _ => 0
  | .illegalCommand _ => 0
  | .badSkip _ => 0

/-- Taking a fault: `raise K(info)` (R226). The result of the operation is invalidated by the operation's own
`invalidate…` beside it (R228); control goes nowhere, and the unit is FAULTED. -/
def State.raise (s : State) (k : Raise) : State :=
  { s with err := k.kind, einfo := k.info, ewidth := k.width, busy := false }

/-- Leaving FAULTED, and any other state: reset (R229, R250). Every register and store takes the value of R40; contents
R40 leaves unspecified are free values (log 6). `MEM`, the parameters and the canvas are not touched. -/
def State.takeReset (s : State) : State :=
  { s.freeBlock with
    base := 0
    cursor := 0
    result := Config.freeWord s.fresh
    rvalid := false
    busy := false
    err := .noFault
    einfo := 0
    ewidth := 0
    warn := false
    wpal := freePalette s.fresh
    pvalid := false
    wtiles := []
    tvalid := false
    wplist := []
    lvalid := false
    wdelay := Config.freeByte s.fresh 4
    wendflag := Config.freeByte s.fresh 5
    frames := []
    ovalid := false
    walk := [] }

/-- A faulting `READ8`, `READ16`, `READ32` or `LOOKUP` (R228): `RVALID <- 0`, `RESULT` kept. -/
def State.invalidateResult (s : State) : State := { s with rvalid := false }

/-- A faulting `DECPAL` (R228): `PVALID = 0`, `WPAL` unspecified. -/
def State.invalidatePalette (s : State) : State :=
  { s with pvalid := false, wpal := freePalette s.fresh, fresh := s.fresh + 1 }

/-- A faulting `DECTILE` (R228): `TVALID = 0`, `WTILES` and `NT` unspecified. -/
def State.invalidateTiles (s : State) : State :=
  { s with tvalid := false, wtiles := freeTiles s.src s.fresh, fresh := s.fresh + 1 }

/-- A faulting `DECOAM` (R228): `LVALID = 0`, `WPLIST` and `NP` unspecified, and no list is under construction. -/
def State.invalidatePlacements (s : State) : State :=
  { s with lvalid := false, wplist := freePlacements s.maxPlacements s.fresh, walk := [], fresh := s.fresh + 1 }

/-- A faulting `DECASSET` (R228): `NFRAMES = 0`, the three valid bits 0, the working stores unspecified, `WDELAY` and
`WENDFLAG` among them (log 12). -/
def State.invalidateAsset (s : State) : State :=
  { s with
    frames := []
    pvalid := false
    tvalid := false
    lvalid := false
    wpal := freePalette s.fresh
    wtiles := freeTiles s.src s.fresh
    wplist := freePlacements s.maxPlacements s.fresh
    wdelay := Config.freeByte s.fresh 0
    wendflag := Config.freeByte s.fresh 1
    fresh := s.fresh + 1 }

/-- A `COMPOSE` or `BLIT` that faults with `TileIndexOutOfRange` (R228): `OVALID = 0`, the block unspecified. -/
def State.invalidateBlock (s : State) : State := { s.freeBlock with ovalid := false }

/-- Run a decoder on the unit's Reader: on success `ok` stores the result, on a fault `invalidate` invalidates it and the
fault is taken; either way the Reader and `WARN` are as the decode left them (R226). -/
def runDecoder {α : Type} (m : Decoder α) (s : State) (ok : α → State → State) (invalidate : State → State) :
    Outcome :=
  match m s.decodeState with
  | .ok a d => .next (ok a (s.withDecode d))
  | .error k d => .next ((invalidate (s.withDecode d)).raise k)

/-! ### The canvas port (45_compositor.md) -/

/-- What a canvas pixel that nothing lists holds: (0, 0, 0, 0) (log 9). -/
def Rgba.blank : Rgba := ⟨0, 0, 0, 0⟩

/-- The pixel at `(x, y)`, where there is one (R36). -/
def Canvas.pixel (c : Canvas) (x y : Nat) : Option Rgba :=
  if x < c.width ∧ y < c.height then some (Sparse.get Rgba.blank c.pixels (y * c.width + x)) else none

/-- `CanvasWrite(x, y, rgba)`: a write outside the canvas is dropped (R206, R207). -/
def Canvas.write (c : Canvas) (x y : Nat) (v : Rgba) : Canvas :=
  if x < c.width ∧ y < c.height then
    { c with pixels := Sparse.set Rgba.blank c.pixels (y * c.width + x) v }
  else c

end Sys2Proof.Machine
end

