-- ==== Sys2Proof/Machine/Operands.lean ====
section
/-! DEFINITION. Operand assembly, collected in 30_encoding.md R91: the fields of a colour word, of a tile byte and of a
placement record, the size table, and the offset transform. Every quantity is unsigned. -/

namespace Sys2Proof.Machine

/-- The three lanes of a colour word: `r = w[4:0]`, `g = w[9:5]`, `b = w[14:10]`; bit 15 is ignored (R80, R121, R123). -/
def colourOf (w : Half) : Colour :=
  ⟨w.extractLsb' 0 5, w.extractLsb' 5 5, w.extractLsb' 10 5⟩

/-- The even cell of a tile byte: the low nibble, zero-extended (R78, R136). -/
def evenCell (b : Byte) : Byte := (b.extractLsb' 0 4).zeroExtend 8

/-- The odd cell of a tile byte: the high nibble, zero-extended (R78, R136). -/
def oddCell (b : Byte) : Byte := (b.extractLsb' 4 4).zeroExtend 8

/-- The tile count of a `byteSize` field: `size div 32` (R137). -/
def tileCount (size : Word) : Nat := size.toNat / consts.tileBytes

/-- `sizeIndex = sizeByte & 0x3` (R82, R157). -/
def sizeIndexOf (sizeByte : Byte) : BitVec 2 := (sizeByte &&& consts.sizeMask).truncate 2

/-- `hflip = (sizeByte & 0x40) != 0` (R82, R157). -/
def hflipOf (sizeByte : Byte) : Bool := sizeByte &&& consts.hflipMask != 0

/-- `vflip = (sizeByte & 0x20) != 0` (R82, R157). -/
def vflipOf (sizeByte : Byte) : Bool := sizeByte &&& consts.vflipMask != 0

/-- `shapeIndex = shapeByte & 0x3` (R82, R157). -/
def shapeIndexOf (shapeByte : Byte) : BitVec 2 := (shapeByte &&& consts.shapeMask).truncate 2

/-- `key = (shapeIndex << 2) | sizeIndex` (R84). -/
def sizeKey (shapeIndex sizeIndex : BitVec 2) : Nat := (shapeIndex.toNat <<< 2) ||| sizeIndex.toNat

/-- The fields of a non-sentinel record, or `InvalidSizeIndex(key)` for a key outside the table (R157 to R159). -/
def placementOf (startTile offsetX offsetY sizeByte shapeByte : Byte) : Except Raise Placement :=
  let sizeIndex := sizeIndexOf sizeByte
  let shapeIndex := shapeIndexOf shapeByte
  let key := sizeKey shapeIndex sizeIndex
  match consts.sizeTable[key]? with
  | none => .error (.invalidSizeIndex key)
  | some (w, h) =>
    .ok { startTile, offsetX, offsetY, sizeIndex, shapeIndex, w, h
          hflip := hflipOf sizeByte, vflip := vflipOf sizeByte }

/-- What a non-sentinel record at `rstart` does to the list under construction: the bound first, then the key (R156 to
R159, R164). `MAX_PLACEMENTS` records already emitted is the bound (log 19). -/
def emitPlacement (maxPlacements rstart : Nat) (startTile offsetX offsetY sizeByte shapeByte : Byte)
    (list : List Placement) : Except Raise (List Placement) :=
  if maxPlacements ≤ list.length then .error (.unterminatedPlacementList rstart)
  else match placementOf startTile offsetX offsetY sizeByte shapeByte with
    | .error k => .error k
    | .ok p => .ok (list ++ [p])

/-- The offset transform `(v + 128) mod 256` (R204). -/
def xformByte (v : Byte) : Byte := BitVec.ofNat 8 ((v.toNat + consts.posBias) % 256)

/-- The address of lookup entry `index`: `0x31EA8 + 4*index`, without wrap (R87, R181). -/
def lookupAddress (index : Word) : Nat := consts.lookupBase + 4 * index.toNat

end Sys2Proof.Machine
end

