-- ==== Sys2Proof/Machine/Palette.lean ====
section
/-! DEFINITION. The palette colour decoder (41_palette.md). -/

namespace Sys2Proof.Machine

/-- `n` colour words in stream order, each read and checked on its own (R121). -/
def readColours (src : ByteSource) : Nat → Decoder (List Colour)
  | 0 => pure []
  | n + 1 => do
    let w ← read16 src
    let rest ← readColours src n
    return colourOf w :: rest

/-- `decodePalette()` (R121): the size field is read, not checked and not used (R122, R126). -/
def decodePalette (src : ByteSource) : Decoder (List Colour) := do
  let _size ← read32 src
  readColours src consts.palEntries

/-- `DECPAL` (R125). -/
def execDecpal (s : State) : Outcome :=
  runDecoder (decodePalette s.src) s (fun pal s => { s with wpal := pal, pvalid := true }) State.invalidatePalette

end Sys2Proof.Machine
end

