-- ==== Sys2Proof/Machine/PlacementList.lean ====
section
/-! DEFINITION. The placement-list decoder (43_placement_list.md): `DECOAM` as one whole operation, and the two record
forms `PLACE` and `END` as the record stream's own instructions (R162, R163; log 10). -/

namespace Sys2Proof.Machine

/-- The five bytes of a record, each read and checked on its own (R154). -/
structure Record where
  startTile : Byte
  offsetX : Byte
  offsetY : Byte
  sizeByte : Byte
  shapeByte : Byte
deriving DecidableEq, Repr

/-- All five bytes are read before any test is made (R154). -/
def readRecord (src : ByteSource) : Decoder Record := do
  let b0 ← read8 src
  let b1 ← read8 src
  let b2 ← read8 src
  let b3 ← read8 src
  let b4 ← read8 src
  return ⟨b0, b1, b2, b3, b4⟩

/-- The bytes of a record in stream order. -/
def Record.bytes (r : Record) : List Byte := [r.startTile, r.offsetX, r.offsetY, r.sizeByte, r.shapeByte]

/-- The sentinel test, on the five raw bytes (R155). -/
def Record.isEnd (r : Record) : Bool := isSentinel r.startTile r.offsetX r.offsetY r.sizeByte r.shapeByte

/-- A record that is not the sentinel, at `rstart`, with `list` emitted so far (R156 to R159). -/
def Record.emit (maxPlacements rstart : Nat) (r : Record) (list : List Placement) :
    Except Raise (List Placement) :=
  emitPlacement maxPlacements rstart r.startTile r.offsetX r.offsetY r.sizeByte r.shapeByte list

/-- The loop of R151. `room` bounds its turns: it is one more than the records that may still be emitted, so the turn
with `room = 0` is never reached from `walkRecords src max (max + 1) []` (R166). -/
def walkRecords (src : ByteSource) (maxPlacements : Nat) : Nat → List Placement → Decoder (List Placement)
  | 0, _ => do
    let rstart ← readerAddress
    Decoder.fail (.unterminatedPlacementList rstart)
  | room + 1, list => do
    let rstart ← readerAddress
    let r ← readRecord src
    if r.isEnd then
      return list
    else
      match r.emit maxPlacements rstart list with
      | .error k => Decoder.fail k
      | .ok list' => walkRecords src maxPlacements room list'

/-- The skip field and the lead-in (R152, R153): no byte of the lead-in is read. -/
def skipLeadIn (src : ByteSource) : Decoder Unit := do
  let skip ← read32 src
  if skip.toNat < consts.skipBias then
    Decoder.fail (.badSkip skip)
  else
    advance (skip.toNat - consts.skipBias)

/-- `decodePlacements()` (R151). -/
def decodePlacements (src : ByteSource) (maxPlacements : Nat) : Decoder (List Placement) := do
  skipLeadIn src
  walkRecords src maxPlacements (maxPlacements + 1) []

/-- `DECOAM` (R161). -/
def execDecoam (s : State) : Outcome :=
  runDecoder (decodePlacements s.src s.maxPlacements) s (fun list s => { s with wplist := list, lvalid := true })
    State.invalidatePlacements

/-- `PLACE`, when the decoder reads it (R162): `CURSOR` has advanced by 5, and one placement is appended to the list
under construction or the decode fails as R156 and R157 say. -/
def execPlace (startTile offsetX offsetY sizeByte shapeByte : Byte) (s : State) : Outcome :=
  let s' := { s with cursor := s.cursor + consts.recBytes }
  match emitPlacement s.maxPlacements s.ea startTile offsetX offsetY sizeByte shapeByte s.walk with
  | .ok list => .next { s' with walk := list }
  | .error k => .next (s'.invalidatePlacements.raise k)

/-- `END` (R163): `CURSOR` has advanced by 5, nothing is appended, and the list is the operation's result
(R161). -/
def execEndMark (s : State) : Outcome :=
  .next { s with
    cursor := s.cursor + consts.recBytes
    wplist := s.walk
    lvalid := true
    walk := []
    busy := false }

end Sys2Proof.Machine
end

