-- ==== Sys2Proof/Machine/Tilemap.lean ====
section
/-! DEFINITION. The sprite tile unpacker (42_tilemap.md). -/

namespace Sys2Proof.Machine

/-- The cells of `n` tile bytes: low nibble at the even slot, high nibble at the odd slot (R136, R138). -/
def readCells (src : ByteSource) : Nat → Decoder (List Byte)
  | 0 => pure []
  | n + 1 => do
    let b ← read8 src
    let rest ← readCells src n
    return evenCell b :: oddCell b :: rest

/-- `n` tiles of 32 bytes, checked byte by byte (R136, R139). -/
def readTiles (src : ByteSource) : Nat → Decoder (List Tile)
  | 0 => pure []
  | n + 1 => do
    let tile ← readCells src consts.tileBytes
    let rest ← readTiles src n
    return tile :: rest

/-- `decodeTilemap()` (R136); the `size mod 32` trailing bytes are not read (R137). -/
def decodeTilemap (src : ByteSource) : Decoder (List Tile) := do
  let size ← read32 src
  readTiles src (tileCount size)

/-- `DECTILE` (R139). -/
def execDectile (s : State) : Outcome :=
  runDecoder (decodeTilemap s.src) s (fun tiles s => { s with wtiles := tiles, tvalid := true })
    State.invalidateTiles

end Sys2Proof.Machine
end

