-- ==== Sys2Proof/Machine/Asset.lean ====
section
/-! DEFINITION. The sprite-asset decoder and frame selection (44_asset.md). -/

namespace Sys2Proof.Machine

/-- The marker check (R174): strict raises, lenient sets `WARN` and goes on. -/
def checkMarkers (strict : Bool) (h1 h2 : Byte) : Decoder Unit :=
  if h1 = consts.mark1 ∧ h2 = consts.mark2 then pure ()
  else if strict then Decoder.fail (.unexpectedMarker h1 h2)
  else setWarn

/-- The pointer table: `n` pointers, all read before any record is visited (R175). -/
def readPointers (src : ByteSource) : Nat → Decoder (List Word)
  | 0 => pure []
  | n + 1 => do
    let p ← read32 src
    let rest ← readPointers src n
    return p :: rest

/-- `n` bytes read, each checked on its own, and dropped. -/
def skipBytes (src : ByteSource) : Nat → Decoder Unit
  | 0 => pure ()
  | n + 1 => do
    let _b ← read8 src
    skipBytes src n

/-- The fields of an animation record that are kept (R76): `unusedPtr` and the two pads are read and dropped. -/
structure AnimRecord where
  tilemapPtr : Word
  palettePtr : Word
  oamPtr : Word
  delay : Byte
  endFlag : Byte
deriving DecidableEq, Repr

/-- How many bytes of an animation record its fields up to `endFlag` take: four pointers and three bytes (R76). -/
def animFieldBytes : Nat := 4 * 4 + 3

/-- The `ANIMREC_BYTES` bytes of an animation record, all read before any pointer is followed (R176); what follows
`endFlag` is `pad2`. -/
def readAnimRecord (src : ByteSource) : Decoder AnimRecord := do
  let tilemapPtr ← read32 src
  let palettePtr ← read32 src
  let _unusedPtr ← read32 src
  let oamPtr ← read32 src
  let delay ← read8 src
  let _pad1 ← read8 src
  let endFlag ← read8 src
  skipBytes src (consts.animrecBytes - animFieldBytes)
  return { tilemapPtr, palettePtr, oamPtr, delay, endFlag }

/-- The three pointers of a record followed from the same anchor, in the order tilemap, palette, placement list
(R177). -/
def followRecord (src : ByteSource) (maxPlacements : Nat) (r : AnimRecord) : Decoder Frame := do
  seek r.tilemapPtr.toNat
  let tiles ← decodeTilemap src
  seek r.palettePtr.toNat
  let pal ← decodePalette src
  seek r.oamPtr.toNat
  let plist ← decodePlacements src maxPlacements
  return { tiles, pal, plist, delay := r.delay, endFlag := r.endFlag }

/-- One entry of the pointer table: its record, then its sub-structures (R176 to R178). -/
def decodeFrame (src : ByteSource) (maxPlacements : Nat) (ptr : Word) : Decoder Frame := do
  seek ptr.toNat
  let r ← readAnimRecord src
  followRecord src maxPlacements r

/-- One frame per pointer, in table order (R178). -/
def decodeFrames (src : ByteSource) (maxPlacements : Nat) : List Word → Decoder (List Frame)
  | [] => pure []
  | ptr :: ptrs => do
    let f ← decodeFrame src maxPlacements ptr
    let rest ← decodeFrames src maxPlacements ptrs
    return f :: rest

/-- The fields of a header that are used (R74): byte 0 is read and dropped. -/
structure Header where
  h1 : Byte
  h2 : Byte
  count : Byte
deriving DecidableEq, Repr

/-- The four bytes of a header, all read before the markers are tested (R172). -/
def readHeader (src : ByteSource) : Decoder Header := do
  let _h0 ← read8 src
  let h1 ← read8 src
  let h2 ← read8 src
  let count ← read8 src
  return { h1, h2, count }

/-- The pointer table at the anchor and the frames it leads to (R173, R175, R178). -/
def decodeTable (src : ByteSource) (maxPlacements anchor count : Nat) : Decoder (List Frame) := do
  rebase anchor 0
  let ptrs ← readPointers src count
  decodeFrames src maxPlacements ptrs

/-- `decodeSpriteAsset(A, strict)` (R171). -/
def decodeSpriteAsset (src : ByteSource) (maxPlacements : Nat) (address : Word) (strict : Bool) :
    Decoder (List Frame) := do
  rebase address.toNat 0
  let header ← readHeader src
  checkMarkers strict header.h1 header.h2
  decodeTable src maxPlacements (address.toNat + consts.hdrBytes) header.count.toNat

/-- `NFRAMES <- 0; PVALID <- 0; TVALID <- 0; LVALID <- 0` (R179). -/
def State.beginAsset (s : State) : State :=
  { s with frames := [], pvalid := false, tvalid := false, lvalid := false }

/-- A completed decode: the frames are stored, and the last one, if any, is loaded (R179). With no frame the working stores
keep what they held, behind the three valid bits that `beginAsset` cleared: DEDUCED, unsafe, as R241 calls what the host
reads there unspecified (log 22). -/
def State.storeFrames (s : State) (frames : List Frame) : State :=
  match frames.getLast? with
  | none => { s with frames := frames }
  | some f => { s with frames := frames }.loadFrame f

/-- `DECASSET` (R179). -/
def execDecasset (address : Word) (strict : Bool) (s : State) : Outcome :=
  runDecoder (decodeSpriteAsset s.src s.maxPlacements address strict) s.beginAsset
    (fun frames s => s.storeFrames frames) State.invalidateAsset

/-- `SELFRAME` (R180): on `BadOperand` nothing else changes. -/
def execSelframe (index : Word) (s : State) : Outcome :=
  match s.frames[index.toNat]? with
  | some f => .next (s.loadFrame f)
  | none => .next (s.raise (.badOperand index))

end Sys2Proof.Machine
end

