-- ==== Sys2Proof/Machine/Flags.lean ====
section
/-! DEFINITION. The status bits and the host-visible register map (10_state.md R29, R38): all read-only, with no side
effect on a read. -/

namespace Sys2Proof.Machine

/-- The 4-bit code of a fault kind (R27). -/
def ErrKind.code : ErrKind → Nat
  | .noFault => 0
  | .outOfBounds => 1
  | .unexpectedMarker => 2
  | .unterminatedPlacementList => 3
  | .invalidSizeIndex => 4
  | .tileIndexOutOfRange => 5
  | .notReady => 6
  | .badOperand => 7
  | .illegalCommand => 8
  | .badSkip => 9

/-- `FAULTED` (= `ERR != 0`) (R27, R29). -/
def State.faulted (s : State) : Bool := s.err != .noFault

/-- The working stores hold a whole frame: what `COMPOSE` and `BLIT` test first (R191). -/
def State.ready (s : State) : Bool := s.tvalid && s.pvalid && s.lvalid

/-- `STATUS` (R29). -/
def State.statusWord (s : State) : Word :=
  BitVec.ofNat 32
    (s.busy.toNat + 2 * s.faulted.toNat + 4 * s.warn.toNat + 8 * s.rvalid.toNat + 16 * s.pvalid.toNat
      + 32 * s.tvalid.toNat + 64 * s.lvalid.toNat + 128 * s.ovalid.toNat
      + 256 * (s.err.code % 16) + 4096 * (s.ewidth % 8))

/-- A count saturated at 0xFFFF (R29). -/
def saturate16 (n : Nat) : Nat := min n 0xFFFF

/-- `COUNTS` (R29). -/
def State.countsWord (s : State) : Word := BitVec.ofNat 32 (saturate16 s.np + 65536 * saturate16 s.nt)

/-- `OUTPOS` (R29): bits 23 and 31 belong to no field and read as zero (log 18). -/
def State.outposWord (s : State) : Word :=
  BitVec.ofNat 32 (s.outx.toNat + 2 ^ 8 * s.outy.toNat + 2 ^ 16 * s.outw.toNat + 2 ^ 24 * s.outh.toNat)

/-- The registers of the map (R29). -/
inductive HostReg where
  | status
  | result
  | einfo
  | base
  | cursor
  | nframes
  | counts
  | outpos
deriving DecidableEq, Repr

/-- The register a number of the map names; the map has no other numbers (R29, log 18). -/
def HostReg.ofNumber : Nat → Option HostReg
  | 0 => some .status
  | 1 => some .result
  | 2 => some .einfo
  | 3 => some .base
  | 4 => some .cursor
  | 5 => some .nframes
  | 6 => some .counts
  | 7 => some .outpos
  | _ => none

/-- The width of a register of the map (R29). -/
def HostReg.width : HostReg → Nat
  | .status => 32
  | .result => 32
  | .einfo => 35
  | .base => 34
  | .cursor => 34
  | .nframes => 8
  | .counts => 32
  | .outpos => 32

/-- What the host reads from a register of the map (R29); the naturals are cut to the register's width, which changes
no value of a reachable state (R23, R27, log 15). -/
def State.hostRead (s : State) : (r : HostReg) → BitVec r.width
  | .status => s.statusWord
  | .result => s.result
  | .einfo => BitVec.ofNat 35 s.einfo
  | .base => BitVec.ofNat 34 s.base
  | .cursor => BitVec.ofNat 34 s.cursor
  | .nframes => BitVec.ofNat 8 s.nframes
  | .counts => s.countsWord
  | .outpos => s.outposWord

/-- `EINFO` as the host reads it: the low 32 bits, then the high 3 (R29). -/
def State.einfoWords (s : State) : Word × BitVec 3 :=
  ((s.hostRead .einfo).extractLsb' 0 32, (s.hostRead .einfo).extractLsb' 32 3)

end Sys2Proof.Machine
end

