-- ==== Sys2Proof/Machine/Compositor.lean ====
section
/-! DEFINITION. The sprite placement compositor (45_compositor.md). -/

namespace Sys2Proof.Machine

/-- The `n` consecutive tiles from index `t` on, in tile order; the first missing one raises (R194, R196). The index is
a natural and does not wrap at 256. -/
def fetchTiles (tiles : List Tile) (t : Nat) : Nat → Except Raise (List Tile)
  | 0 => .ok []
  | n + 1 =>
    match tiles[t]? with
    | none => .error (.tileIndexOutOfRange t)
    | some tile =>
      match fetchTiles tiles (t + 1) n with
      | .error k => .error k
      | .ok rest => .ok (tile :: rest)

/-- Cell of row `py`, column `px` of a tile (R138). Every stored tile has 64 cells, so the default is never read in a
reachable state (R39, log 13). -/
def Tile.cell (tile : Tile) (px py : Nat) : Byte := tile.getD (consts.tileDim * py + px) 0

/-- Row `y` of the block composed of `tiles`, `w` tiles wide: the tile at tile-row `tr`, tile-column `tc` is number
`tr*w + tc`, and its cells land unmoved at the tile's 8 by 8 place; a zero cell leaves the 0 of R193 (R193 to R195,
log 21). -/
def composeRow (w : Nat) (tiles : List Tile) (y : Nat) : List Byte :=
  (List.range (consts.tileDim * w)).map fun x =>
    Tile.cell (tiles.getD ((y / consts.tileDim) * w + x / consts.tileDim) []) (x % consts.tileDim)
      (y % consts.tileDim)

/-- The local buffer before the flip (R192 to R195). -/
def composeBuffer (w h : Nat) (tiles : List Tile) : List (List Byte) :=
  (List.range (consts.tileDim * h)).map (composeRow w tiles)

/-- The horizontal mirror of the whole buffer, row by row (R197). -/
def mirrorRows (buffer : List (List Byte)) : List (List Byte) := buffer.map List.reverse

/-- A cell through the palette: index 0 is transparent, every other index is opaque (R199, R200). Every palette has 16
entries and every cell is below 16, so the default is never read in a reachable state (R39, log 13). -/
def resolveCell (pal : List Colour) (v : Byte) : Option Rgba :=
  if v = 0 then none else some (pal.getD v.toNat ⟨0, 0, 0⟩).opaquePixel

/-- The block's pixels (R200). -/
def resolveBuffer (pal : List Colour) (buffer : List (List Byte)) : List (List (Option Rgba)) :=
  buffer.map fun row => row.map (resolveCell pal)

/-- The local buffer of placement `p`, mirrored as a whole after composition if `hflip` is set (R197); `vflip` is not
read (R198). -/
def Placement.buffer (p : Placement) (tiles : List Tile) : List (List Byte) :=
  if p.hflip then mirrorRows (composeBuffer p.w p.h tiles) else composeBuffer p.w p.h tiles

/-- The state after a completed composition of `p` from `tiles` (R202). -/
def State.storeBlock (s : State) (p : Placement) (tiles : List Tile) : State :=
  { s with
    lbuf := p.buffer tiles
    lw := p.w
    lh := p.h
    out := resolveBuffer s.wpal (p.buffer tiles)
    outw := BitVec.ofNat 7 (consts.tileDim * p.w)
    outh := BitVec.ofNat 7 (consts.tileDim * p.h)
    outx := xformByte p.offsetX
    outy := xformByte p.offsetY
    ovalid := true }

/-- How a composition ends: with the block stored, or in a fault already taken. -/
inductive Composed where
  | done (s : State)
  | faulted (s : State)
deriving DecidableEq, Repr

/-- `COMPOSE p` (R202), shared by `COMPOSE` and `BLIT`: the preconditions in the order of R191, then the tiles in tile
order. -/
def composePlacement (index : Word) (s : State) : Composed :=
  if s.ready then
    match s.wplist[index.toNat]? with
    | none => .faulted (s.raise (.badOperand index))
    | some p =>
      match fetchTiles s.wtiles p.startTile.toNat (p.w * p.h) with
      | .error k => .faulted (s.invalidateBlock.raise k)
      | .ok tiles => .done (s.storeBlock p tiles)
  else .faulted (s.raise .notReady)

/-- `COMPOSE` (R202). -/
def execCompose (index : Word) (s : State) : Outcome :=
  match composePlacement index s with
  | .done t => .next t
  | .faulted t => .next t

/-- `XFORM` (R205). -/
def execXform (offset : Byte) (s : State) : Outcome :=
  .next (s.setResult ((xformByte offset).zeroExtend 32))

/-- The opaque pixels of one row of the block, left to right from column `x` of canvas row `y` (R206). -/
def blitRow (x y : Nat) : List (Option Rgba) → Canvas → Canvas
  | [], c => c
  | none :: rest, c => blitRow (x + 1) y rest c
  | some p :: rest, c =>
    blitRow (x + 1) y rest (c.write x y { p with a := BitVec.ofNat 8 consts.alphaOpaque })

/-- The opaque pixels of the block, row 0 first (R68, R206). -/
def blitRows (x y : Nat) : List (List (Option Rgba)) → Canvas → Canvas
  | [], c => c
  | row :: rest, c => blitRows x (y + 1) rest (blitRow x y row c)

/-- `BLIT` (R206): the canvas is written only when the composition completed. -/
def execBlit (index : Word) (s : State) : Outcome :=
  match composePlacement index s with
  | .done t => .next { t with canvas := blitRows t.outx.toNat t.outy.toNat t.out t.canvas }
  | .faulted t => .next t

end Sys2Proof.Machine
end

