-- ==== Sys2Proof/Machine/Reader.lean ====
section
/-! DEFINITION. The Reader commands (40_reader.md R107 to R111) and the absolute lookup, which answers in `RESULT` too
(44_asset.md R181, R182). -/

namespace Sys2Proof.Machine

/-- `REBASE` (R110). -/
def execRebase (newBase newCursor : Word) (s : State) : Outcome :=
  runDecoder (rebase newBase.toNat newCursor.toNat) s (fun _ s => s) (fun s => s)

/-- `SEEK` (R111). -/
def execSeek (newCursor : Word) (s : State) : Outcome :=
  runDecoder (seek newCursor.toNat) s (fun _ s => s) (fun s => s)

/-- `READ8` (R107). -/
def execRead8 (s : State) : Outcome :=
  runDecoder (read8 s.src) s (fun v s => s.setResult (v.zeroExtend 32)) State.invalidateResult

/-- `READ16` (R108). -/
def execRead16 (s : State) : Outcome :=
  runDecoder (read16 s.src) s (fun v s => s.setResult (v.zeroExtend 32)) State.invalidateResult

/-- `READ32` (R109). -/
def execRead32 (s : State) : Outcome :=
  runDecoder (read32 s.src) s (fun v s => s.setResult v) State.invalidateResult

/-- `lookup(index)`: an absolute read that neither uses nor moves the Reader, masked to the low 24 bits (R181). -/
def lookupEntry (src : ByteSource) (index : Word) : Decoder Word := fun d =>
  match memRead src (lookupAddress index) 4 with
  | .ok e => .ok (BitVec.ofNat 32 e &&& consts.lookupMask) d
  | .error k => .error k d

/-- `LOOKUP` (R182). -/
def execLookup (index : Word) (s : State) : Outcome :=
  runDecoder (lookupEntry s.src index) s (fun v s => s.setResult v) State.invalidateResult

end Sys2Proof.Machine
end

