-- ==== Sys2Proof/Machine/Dispatch.lean ====
section
/-! DEFINITION. One arm for each instruction: a direct call of its meaning. -/

namespace Sys2Proof.Machine

def exec (i : Instr) (s : State) : Host.Outcome State Fault Refusal :=
  match i with
  | .rebase newBase newCursor => Sys2Proof.Machine.execRebase newBase newCursor s
  | .seek newCursor => Sys2Proof.Machine.execSeek newCursor s
  | .read8 => Sys2Proof.Machine.execRead8 s
  | .read16 => Sys2Proof.Machine.execRead16 s
  | .read32 => Sys2Proof.Machine.execRead32 s
  | .decpal => Sys2Proof.Machine.execDecpal s
  | .dectile => Sys2Proof.Machine.execDectile s
  | .decoam => Sys2Proof.Machine.execDecoam s
  | .decasset address strict => Sys2Proof.Machine.execDecasset address strict s
  | .selframe index => Sys2Proof.Machine.execSelframe index s
  | .lookup index => Sys2Proof.Machine.execLookup index s
  | .compose index => Sys2Proof.Machine.execCompose index s
  | .xform offset => Sys2Proof.Machine.execXform offset s
  | .blit index => Sys2Proof.Machine.execBlit index s
  | .endMark => Sys2Proof.Machine.execEndMark s
  | .place startTile offsetX offsetY sizeByte shapeByte => Sys2Proof.Machine.execPlace startTile offsetX offsetY sizeByte shapeByte s

end Sys2Proof.Machine
end

