-- ==== Sys2Proof/Machine/Port.lean ====
section
/-! DEFINITION. What a step does around an instruction's meaning: accepting a command on the command port
(30_encoding.md R71; 70_reset_and_hazards.md R257), fetching a record of the stream (10_state.md R25), and `RST`
(R250). -/

namespace Sys2Proof.Machine

/-- A command word is accepted: the instruction it decodes to runs, and an `op` outside the table raises
`IllegalCommand(op)` and changes nothing else (R73, R232). A command word is never a record, so the other rejection
does not arise. -/
def runCommand (w : CommandWord) (s : State) : Outcome :=
  match decode (.command w) with
  | .ok i => exec i s
  | .error (.illegalCommand op) => .next (s.raise (.illegalCommand op))
  | .error (.recordLength _) => .next (s.raise (.illegalCommand (opOf w)))

/-- The next record of the stream, at `ea()`: its five bytes are read and checked one by one; if one is missing the
operation, `DECOAM`, faults with the bytes before it consumed (R25, R154, R163). Otherwise the record they decode to
runs, with the Reader still at the record's start. -/
def runRecord (s : State) : Outcome :=
  match readRecord s.src s.decodeState with
  | .error k d => .next ((s.withDecode d).invalidatePlacements.raise k)
  | .ok r _ =>
    match decode (.record r.bytes) with
    | .ok i => exec i s
    | .error _ => .next s

/-- The unit is not reset: FAULTED accepts no command, and one presented to it has no effect (R229, R242, log 2); a
record stream in progress runs its next record (log 10); an idle unit accepts the next command, and runs nothing when
there is none (R251). -/
def runUnit (s : State) : Outcome :=
  if s.faulted then .next { s with host := s.host.tail }
  else if s.busy then runRecord s
  else match s.host with
    | .cmd w :: rest => runCommand w { s with host := rest }
    | .rst :: _ => .next s
    | [] => .next s

/-- `RST` is taken at any time, also with a record stream in progress (R250, log 3). -/
def hostStep (s : State) : Outcome :=
  match s.host with
  | .rst :: rest => .next { s.takeReset with host := rest }
  | .cmd _ :: _ => runUnit s
  | [] => runUnit s

/-- `s` with a coded instruction placed where the next step takes it from: a command word at the head of what the host
drives, a record's bytes at the Reader's address with a record stream in progress (log 1, log 10). FAULTED is cleared, as
no step of a FAULTED unit runs anything. -/
def State.withCode (s : State) : Code → State
  | .command w => { s with err := .noFault, busy := false, host := .cmd w :: s.host }
  | .record bytes =>
    { s with
      err := .noFault
      busy := true
      host := s.host.dropWhile (· = .rst)
      src := s.src.place s.ea bytes }

end Sys2Proof.Machine
end

