-- ==== Sys2Proof/Machine/Step.lean ====
section
/-! DEFINITION. One step: one whole operation, from the acceptance of a command to its completion or its fault
(00_scope.md R16). -/

namespace Sys2Proof.Machine

/-- The step function; what it does is in Machine/Port.lean. -/
def step (s : State) : Host.Outcome State Fault Refusal := hostStep s

/-- `s` with the instruction whose bits, as the opcode table numbers them, are `w` placed where the next step takes it
from (log 1, log 14). -/
def State.withFetchWord (s : State) (nbits w : Nat) : State := s.withCode (codeOfTableWord nbits w)

end Sys2Proof.Machine
end

