-- ==== Sys2Proof/Layout.lean ====
section
/-! DEFINITION. The binary layout of a sprite asset as a relation on the ByteSource (30_encoding.md R74 to R84): what it
means that a structure lies at an address, said by the places of its bytes and not by a decoder. The statements
compare the decoders with it. -/

namespace Sys2Proof.Machine.Layout

/-- The byte at `a`, as a number. -/
def byteNat (src : ByteSource) (a : Nat) : Nat := (src.byte a).toNat

/-- The little-endian 16-bit number at `a` (R54). -/
def half (src : ByteSource) (a : Nat) : Nat := byteNat src a + 256 * byteNat src (a + 1)

/-- The little-endian 32-bit number at `a` (R54). -/
def word (src : ByteSource) (a : Nat) : Nat := half src a + 65536 * half src (a + 2)

/-- The entry a 16-bit colour number gives (R80). -/
def colour (w : Nat) : Colour := ⟨BitVec.ofNat 5 (w % 32), BitVec.ofNat 5 (w / 32 % 32), BitVec.ofNat 5 (w / 1024 % 32)⟩

/-- The sixteen entries of the palette at `a` (R79). -/
def palette (src : ByteSource) (a : Nat) : List Colour :=
  (List.range 16).map fun i => colour (half src (a + 4 + 2 * i))

/-- The number of tiles of the tilemap at `a` (R77, R137). -/
def tileCount (src : ByteSource) (a : Nat) : Nat := word src a / 32

/-- Cell `c` of tile `t` of the tilemap at `a`: a nibble, low first (R78). -/
def tileCell (src : ByteSource) (a t c : Nat) : Byte :=
  let b := byteNat src (a + 4 + 32 * t + c / 2)
  BitVec.ofNat 8 (if c % 2 = 0 then b % 16 else b / 16)

/-- The tiles of the tilemap at `a` (R77, R78). -/
def tilemap (src : ByteSource) (a : Nat) : List Tile :=
  (List.range (tileCount src a)).map fun t => (List.range 64).map fun c => tileCell src a t c

/-- The size class of `(shapeIndex, sizeIndex)`, (width, height) in tiles (R158); shape 3 has none. -/
def sizeClass : Nat → Nat → Option (Nat × Nat)
  | 0, 0 => some (1, 1)
  | 0, 1 => some (2, 2)
  | 0, 2 => some (4, 4)
  | 0, 3 => some (8, 8)
  | 1, 0 => some (2, 1)
  | 1, 1 => some (4, 1)
  | 1, 2 => some (4, 2)
  | 1, 3 => some (8, 2)
  | 2, 0 => some (1, 2)
  | 2, 1 => some (1, 4)
  | 2, 2 => some (2, 4)
  | 2, 3 => some (4, 8)
  | _, _ => none

/-- The five bytes at `a` are all 0xFF: the `END` record (R83). -/
def IsEnd (src : ByteSource) (a : Nat) : Prop := ∀ i < 5, byteNat src (a + i) = 255

/-- The record of the five bytes `b0 … b4`, not the sentinel, stands for the placement `p` (R82, R84, R158). -/
def RecordStandsFor (b0 b1 b2 b3 b4 : Nat) (p : Placement) : Prop :=
  p.startTile.toNat = b0 ∧ p.offsetX.toNat = b1 ∧ p.offsetY.toNat = b2 ∧
    p.sizeIndex.toNat = b3 % 4 ∧ p.shapeIndex.toNat = b4 % 4 ∧
    sizeClass (b4 % 4) (b3 % 4) = some (p.w, p.h) ∧
    (p.hflip = true ↔ b3 / 64 % 2 = 1) ∧ (p.vflip = true ↔ b3 / 32 % 2 = 1)

/-- A `PLACE` record at `a` that stands for `p` (R82, R83). -/
def PlaceAt (src : ByteSource) (a : Nat) (p : Placement) : Prop :=
  ¬ IsEnd src a ∧
    RecordStandsFor (byteNat src a) (byteNat src (a + 1)) (byteNat src (a + 2)) (byteNat src (a + 3))
      (byteNat src (a + 4)) p

/-- The records from `a` on are `PLACE` records that stand for `l`, and then an `END`, all below `LEN` (R81, R83). -/
def RecordsAt (src : ByteSource) : Nat → List Placement → Prop
  | a, [] => a + 5 ≤ src.len ∧ IsEnd src a
  | a, p :: l => a + 5 ≤ src.len ∧ PlaceAt src a p ∧ RecordsAt src (a + 5) l

/-- A placement list at `a`: the skip field, at least 4, and the records from offset `skip` on, no more than
`MAX_PLACEMENTS` of them (R81, R153, R156). -/
def PlacementListAt (src : ByteSource) (maxPlacements a : Nat) (l : List Placement) : Prop :=
  a + 4 ≤ src.len ∧ 4 ≤ word src a ∧ l.length ≤ maxPlacements ∧ RecordsAt src (a + word src a) l

/-- A tilemap at `a` lies below `LEN` (R77). -/
def TilemapFits (src : ByteSource) (a : Nat) : Prop :=
  a + 4 ≤ src.len ∧ a + 4 + 32 * tileCount src a ≤ src.len

/-- A palette at `a` lies below `LEN` (R79). -/
def PaletteFits (src : ByteSource) (a : Nat) : Prop := a + 36 ≤ src.len

/-- The animation record at `anchor + ptr` stands for the frame `f` (R76). -/
def FrameAt (src : ByteSource) (maxPlacements anchor ptr : Nat) (f : Frame) : Prop :=
  let rec' := anchor + ptr
  rec' + 20 ≤ src.len ∧
    TilemapFits src (anchor + word src rec') ∧ f.tiles = tilemap src (anchor + word src rec') ∧
    PaletteFits src (anchor + word src (rec' + 4)) ∧ f.pal = palette src (anchor + word src (rec' + 4)) ∧
    PlacementListAt src maxPlacements (anchor + word src (rec' + 12)) f.plist ∧
    f.delay = src.byte (rec' + 16) ∧ f.endFlag = src.byte (rec' + 18)

/-- The frames of the pointer-table entries from number `i` on (R75). -/
def FramesAt (src : ByteSource) (maxPlacements anchor : Nat) : Nat → List Frame → Prop
  | _, [] => True
  | i, f :: fs =>
    FrameAt src maxPlacements anchor (word src (anchor + 4 * i)) f ∧ FramesAt src maxPlacements anchor (i + 1) fs

/-- The header markers are the expected ones (R74). -/
def MarkersMatch (src : ByteSource) (a : Nat) : Prop := byteNat src (a + 1) = 0 ∧ byteNat src (a + 2) = 1

/-- An asset at `a` whose frames are `frames`, whatever its markers: header, pointer table, one frame per entry (R74 to
R76). -/
def AssetAt (src : ByteSource) (maxPlacements a : Nat) (frames : List Frame) : Prop :=
  a + 4 ≤ src.len ∧ frames.length = byteNat src (a + 3) ∧ a + 4 + 4 * frames.length ≤ src.len ∧
    FramesAt src maxPlacements (a + 4) 0 frames

/-- Where the cursor stands after the asset at `a` was decoded to `frames`: just past the sentinel of the last frame's
placement list, relative to the anchor, or 0 when there is no frame (R185). -/
def assetCursor (src : ByteSource) (a : Nat) (frames : List Frame) : Nat :=
  match frames.getLast? with
  | none => 0
  | some f =>
    let rec' := a + 4 + word src (a + 4 + 4 * (frames.length - 1))
    let oam := word src (rec' + 12)
    oam + word src (a + 4 + oam) + 5 * (f.plist.length + 1)

/-- The palette index shown at block pixel `(x, y)` of placement `p` (R203). -/
def shownIndex (tiles : List Tile) (p : Placement) (x y : Nat) : Byte :=
  let sx := if p.hflip then 8 * p.w - 1 - x else x
  (tiles.getD (p.startTile.toNat + (y / 8) * p.w + sx / 8) []).getD (8 * (y % 8) + sx % 8) 0

/-- The output pixel of palette index `v` (R203): none for 0, else the palette entry's channels times 8, alpha 255. -/
def shownPixel (pal : List Colour) (v : Byte) : Option Rgba :=
  if v.toNat = 0 then none
  else
    let e := pal.getD v.toNat ⟨0, 0, 0⟩
    some ⟨BitVec.ofNat 8 (8 * e.r.toNat), BitVec.ofNat 8 (8 * e.g.toNat), BitVec.ofNat 8 (8 * e.b.toNat), 255⟩

end Sys2Proof.Machine.Layout
end

