-- ==== Sys2Proof/Safety.lean ====
section
/-! DEFINITION. What counts as a safe state and a safe run: the invariants of 10_state.md R23, R31, R32, R34, R35 and
R39 with the canonical forms of the model's sparse data, and how a run of commands ends (60_exceptions.md R242). -/

namespace Sys2Proof.Machine

/-- A tile has exactly 64 cells, each a palette index 0 to 15 (R31, R39 (b)). -/
def TileOk (t : Tile) : Prop := t.length = 64 ∧ ∀ c ∈ t, c.toNat < 16

/-- A stored placement has `shapeIndex` 0, 1 or 2 and `(w, h)` equal to the table entry of its key (R39 (c)). -/
def PlacementOk (p : Placement) : Prop :=
  p.shapeIndex.toNat < 3 ∧ consts.sizeTable[4 * p.shapeIndex.toNat + p.sizeIndex.toNat]? = some (p.w, p.h)

/-- A tile list that a ByteSource of `len` bytes can have given (R31). -/
def TilesOk (len : Nat) (tiles : List Tile) : Prop := tiles.length ≤ (len - 4) / 32 ∧ ∀ t ∈ tiles, TileOk t

/-- A placement list within the safety bound (R32, R39 (c), (d)). -/
def PlacementsOk (maxPlacements : Nat) (l : List Placement) : Prop :=
  l.length ≤ maxPlacements ∧ ∀ p ∈ l, PlacementOk p

/-- A stored frame (R34, R39). -/
def FrameOk (len maxPlacements : Nat) (f : Frame) : Prop :=
  TilesOk len f.tiles ∧ f.pal.length = 16 ∧ PlacementsOk maxPlacements f.plist

/-- A painted pixel has alpha 255 and channels that are multiples of 8 not above 248 (R39 (f)). -/
def PixelOk (p : Rgba) : Prop :=
  p.a = 255 ∧ ∀ c ∈ [p.r, p.g, p.b], c.toNat % 8 = 0 ∧ c.toNat ≤ 248

/-- A grid of `h` rows of `w` cells. -/
def GridOf {α : Type} (w h : Nat) (g : List (List α)) : Prop := g.length = h ∧ ∀ row ∈ g, row.length = w

/-- The invariant of the machine: what holds in every reachable state. -/
structure Inv (s : State) : Prop where
  memCanonical : Sparse.wf 0 s.src.mem = true
  memInside : ∀ c ∈ s.src.mem, c.1 < s.src.len
  lenBound : s.src.len ≤ 2 ^ 32
  canvasCanonical : Sparse.wf Rgba.blank s.canvas.pixels = true
  canvasInside : ∀ c ∈ s.canvas.pixels, c.1 < s.canvas.width * s.canvas.height
  baseBound : s.base < 2 ^ 34
  cursorBound : s.cursor < 2 ^ 34
  einfoBound : s.einfo < 2 ^ 35
  ewidthLegal : s.ewidth ∈ [0, 1, 2, 4]
  errClear : s.err = .noFault → s.einfo = 0 ∧ s.ewidth = 0
  faultedIdle : s.err ≠ .noFault → s.busy = false
  walkIdle : s.busy = false → s.walk = []
  walkOk : PlacementsOk s.maxPlacements s.walk
  paletteOk : s.wpal.length = 16
  tilesOk : TilesOk s.src.len s.wtiles
  placementsOk : PlacementsOk s.maxPlacements s.wplist
  framesCount : s.nframes ≤ 255
  framesOk : ∀ f ∈ s.frames, FrameOk s.src.len s.maxPlacements f
  lbufOk : ∀ row ∈ s.lbuf, ∀ c ∈ row, c.toNat < 16
  outOk : ∀ row ∈ s.out, ∀ p, some p ∈ row → PixelOk p
  blockOk : s.ovalid = true →
    s.outw.toNat = 8 * s.lw ∧ s.outh.toNat = 8 * s.lh ∧ (s.lw, s.lh) ∈ consts.sizeTable ∧
      GridOf (8 * s.lw) (8 * s.lh) s.lbuf ∧ GridOf (8 * s.lw) (8 * s.lh) s.out

/-- The start states R242 defines runs from. -/
def State.RunStart (s : State) : Prop := s.err = .noFault ∧ s.busy = false

/-- `s` with a program for the host to issue: the commands in order, each after the previous one completed (R92, R242). -/
def State.withProgram (s : State) (words : List CommandWord) : State := { s with host := words.map .cmd }

/-- The state after the host has issued `words` in order, one step for each (R242). DESIGN CHOICE, safe: it is defined from
every state, where R242 defines a run only from `RunStart`; from a FAULTED state each command is spent with no effect
(log 2), and from a state with a record stream in progress the steps go to records first (log 23). -/
def State.afterCommands (s : State) (words : List CommandWord) : Host.Outcome State Fault Refusal :=
  Host.Core.run core words.length (s.withProgram words)

/-- A run, from a start state R242 admits, ends normally when its last command has completed with `ERR = 0` (R242); that
the empty run does is the model's choice (log 23). -/
def EndsNormally (s : State) (words : List CommandWord) (t : State) : Prop :=
  s.RunStart ∧ s.afterCommands words = .next t ∧ t.err = .noFault

/-- A run, from a start state R242 admits, ends in a fault when a command of it raised; the later commands had no effect
(R242). A FAULTED start and a start with a record stream in progress are no run (log 23). -/
def EndsInFault (s : State) (words : List CommandWord) (t : State) : Prop :=
  s.RunStart ∧ s.afterCommands words = .next t ∧ t.err ≠ .noFault

end Sys2Proof.Machine
end

