-- ==== Sys2Proof/Certificates/Slice0/Obligations.lean ====
section
/-! DEFINITION. The statements for the provers. Where a statement gives the whole next state as `{ s with … }`, the fields
it does not name are its frame: they are unchanged, memory (`src`) and canvas among them. -/

open Sys2Proof Sys2Proof.Machine

/-! ### Encodings (30_encoding.md) -/

/-- The decoder gives back every well-formed instruction from its encoding (R71, R72, R83, R92). -/
def Obligations.DecodeEncodeAgree : Prop :=
  ∀ i : Instr, i.wf = true → decode (encode i) = .ok i

/-- Whatever the decoder accepts is well formed, and its canonical encoding stands for the same instruction. -/
def Obligations.DecodedIsWellFormed : Prop :=
  ∀ (c : Code) (i : Instr), decode c = .ok i → i.wf = true ∧ decode (encode i) = .ok i

/-- The fields of a command word and the opcode table (R71, R72): `op` is bits 71:64, `a` bits 63:32, `b` bits 31:0, and
operand bits a command does not use are ignored. -/
def Obligations.CommandOperands : Prop :=
  ∀ w : CommandWord,
    let op := w.toNat / 2 ^ 64
    let a : Word := BitVec.ofNat 32 (w.toNat / 2 ^ 32)
    let b : Word := BitVec.ofNat 32 w.toNat
    (op = 0x01 → decode (.command w) = .ok (.rebase a b)) ∧
    (op = 0x02 → decode (.command w) = .ok (.seek a)) ∧
    (op = 0x03 → decode (.command w) = .ok .read8) ∧
    (op = 0x04 → decode (.command w) = .ok .read16) ∧
    (op = 0x05 → decode (.command w) = .ok .read32) ∧
    (op = 0x10 → decode (.command w) = .ok .decpal) ∧
    (op = 0x11 → decode (.command w) = .ok .dectile) ∧
    (op = 0x12 → decode (.command w) = .ok .decoam) ∧
    (op = 0x13 → decode (.command w) = .ok (.decasset a (decide (w.toNat % 2 = 1)))) ∧
    (op = 0x14 → decode (.command w) = .ok (.selframe a)) ∧
    (op = 0x15 → decode (.command w) = .ok (.lookup a)) ∧
    (op = 0x20 → decode (.command w) = .ok (.compose a)) ∧
    (op = 0x21 → decode (.command w) = .ok (.xform (BitVec.ofNat 8 (w.toNat / 2 ^ 32)))) ∧
    (op = 0x22 → decode (.command w) = .ok (.blit a))

/-- Every `op` outside the table raises `IllegalCommand(op)` when the command is accepted and changes nothing else, and
every other `op` runs the instruction it names (R73). -/
def Obligations.IllegalCommands : Prop :=
  ∀ (s : State) (w : CommandWord),
    let op := w.toNat / 2 ^ 64
    s.busy = false →
      ((op = 0 ∨ (0x06 ≤ op ∧ op ≤ 0x0F) ∨ (0x16 ≤ op ∧ op ≤ 0x1F) ∨ 0x23 ≤ op) →
        runCommand w s = .next { s with err := .illegalCommand, einfo := op, ewidth := 0 }) ∧
      (¬ (op = 0 ∨ (0x06 ≤ op ∧ op ≤ 0x0F) ∨ (0x16 ≤ op ∧ op ≤ 0x1F) ∨ 0x23 ≤ op) →
        ∃ i, decode (.command w) = .ok i ∧ runCommand w s = exec i s)

/-- Some words of spec/95_test_vectors.md, one for each family, stand for what the spec says. -/
def Obligations.SampleWords : Prop :=
  decode (.command 0x010000000000000000) = .ok (.rebase 0 0) ∧
  decode (.command 0x03DEADBEEF12345678) = .ok .read8 ∧
  decode (.command 0x100000000000000000) = .ok .decpal ∧
  decode (.command 0x110000000000000000) = .ok .dectile ∧
  decode (.command 0x120000000000000000) = .ok .decoam ∧
  decode (.command 0x130000010000000001) = .ok (.decasset 0x100 true) ∧
  decode (.command 0x1300000000FFFFFFFE) = .ok (.decasset 0 false) ∧
  decode (.command 0x150000000200000000) = .ok (.lookup 2) ∧
  decode (.command 0x21FFFFFF8000000000) = .ok (.xform 0x80) ∧
  decode (.command 0x220000000100000000) = .ok (.blit 1) ∧
  decode (.record [0x05, 0xF8, 0xF0, 0x41, 0x01]) = .ok (.place 0x05 0xF8 0xF0 0x41 0x01) ∧
  decode (.record [0xFF, 0xFF, 0xFF, 0xFF, 0xFE]) = .ok (.place 0xFF 0xFF 0xFF 0xFF 0xFE) ∧
  decode (.record [0xFF, 0xFF, 0xFF, 0xFF, 0xFF]) = .ok .endMark

/-- The two forms of a placement record, by its 40-bit value, first byte least significant (R82, R83). -/
def Obligations.RecordForms : Prop :=
  ∀ b0 b1 b2 b3 b4 : Byte,
    let rec' := b0.toNat + 2 ^ 8 * b1.toNat + 2 ^ 16 * b2.toNat + 2 ^ 24 * b3.toNat + 2 ^ 32 * b4.toNat
    (rec' = 0xFFFFFFFFFF → decode (.record [b0, b1, b2, b3, b4]) = .ok .endMark) ∧
    (rec' ≠ 0xFFFFFFFFFF → decode (.record [b0, b1, b2, b3, b4]) = .ok (.place b0 b1 b2 b3 b4))

/-! ### The step (00_scope.md R16, 60_exceptions.md, 70_reset_and_hazards.md) -/

/-- An idle unit that is not FAULTED accepts the command word the host presents, legal or not, and runs the instruction it
decodes to (R71); the host list is the model's form of the command port (log 1). -/
def Obligations.StepRunsCommand : Prop :=
  ∀ (s : State) (w : CommandWord) (rest : List HostInput),
    s.err = .noFault → s.busy = false → s.host = .cmd w :: rest →
      step s = runCommand w { s with host := rest } ∧
      ∀ i, decode (.command w) = .ok i → step s = exec i { s with host := rest }

/-- With a record stream in progress a step runs the instruction the five bytes at `ea()` decode to, and five bytes
always decode (R25, R154); that a record is a step of its own is the model's view of the stream (log 10). -/
def Obligations.StepRunsRecord : Prop :=
  ∀ s : State, s.err = .noFault → s.busy = true → (∀ rest, s.host ≠ .rst :: rest) → s.ea + 5 ≤ s.src.len →
    ∃ i, decode (.record ((List.range 5).map fun k => s.src.byte (s.ea + k))) = .ok i ∧ step s = exec i s

/-- A record cut short by the end of the buffer raises `OutOfBounds(addr, 1)` at its first missing byte, the bytes before
it consumed (R154, R163), and the list is invalidated (R228). That a record is a step of its own, whose fault is `DECOAM`'s,
is the model's choice (log 10). -/
def Obligations.RecordCutShort : Prop :=
  ∀ s : State, s.err = .noFault → s.busy = true → (∀ rest, s.host ≠ .rst :: rest) → s.src.len < s.ea + 5 →
    ∃ list k, step s = .next { s with
      cursor := s.cursor + (s.src.len - s.ea), lvalid := false, wplist := list, walk := []
      err := .outOfBounds, einfo := max s.ea s.src.len, ewidth := 1, busy := false, fresh := k }

/-- FAULTED is terminal (R229): without a reset a step changes nothing of the unit, whatever the host presents, and a reset
clears `ERR` and invalidates every store. That a step of a FAULTED unit is a next state and not a stop is deduced (log 2);
the host list as the form of the command port (log 1) and `RST` as an element of it, taken when it is at the head (log 3),
are the model's choice. What is left in the list is not said. -/
def Obligations.FaultedIsTerminal : Prop :=
  ∀ s : State, s.err ≠ .noFault →
    ((∀ rest, s.host ≠ .rst :: rest) → ∃ left, step s = .next { s with host := left }) ∧
    (∀ rest, s.host = .rst :: rest →
      ∃ t, step s = .next t ∧ t.err = .noFault ∧ t.rvalid = false ∧ t.pvalid = false ∧ t.tvalid = false ∧
        t.lvalid = false ∧ t.ovalid = false ∧ t.nframes = 0)

/-- Commands issued to a FAULTED unit have no effect, however many (R242, R257); that each is spent is the model's choice
(log 2), and so is issuing commands from a start R242 defines no run from (log 23). -/
def Obligations.FaultedProgramHasNoEffect : Prop :=
  ∀ (s : State) (words : List CommandWord), s.err ≠ .noFault →
    s.afterCommands words = .next { s with host := [] }

/-- What `RST` leaves, at any time, also with a record stream in progress or FAULTED (R250, R40). `RST` as an element of
the host's list, taken at a step boundary, is the model's choice (log 3). -/
def Obligations.ResetTakesEffect : Prop :=
  ∀ (s : State) (rest : List HostInput), s.host = .rst :: rest →
    ∃ t, step s = .next t ∧ t.host = rest ∧ t.base = 0 ∧ t.cursor = 0 ∧ t.rvalid = false ∧ t.busy = false ∧
      t.err = .noFault ∧ t.einfo = 0 ∧ t.ewidth = 0 ∧ t.warn = false ∧ t.pvalid = false ∧ t.tvalid = false ∧
      t.lvalid = false ∧ t.ovalid = false ∧ t.nt = 0 ∧ t.np = 0 ∧ t.nframes = 0 ∧ t.walk = [] ∧
      t.src = s.src ∧ t.maxPlacements = s.maxPlacements ∧ t.canvas = s.canvas

/-- The values R40 gives for the state right after reset; the other fields of `State.reset` are named in logs 4, 7 and 9
and nothing is said of them here. -/
def Obligations.ResetState : Prop :=
  let s := State.reset
  s.base = 0 ∧ s.cursor = 0 ∧ s.rvalid = false ∧ s.busy = false ∧ s.err = .noFault ∧ s.einfo = 0 ∧ s.ewidth = 0 ∧
    s.warn = false ∧ s.pvalid = false ∧ s.tvalid = false ∧ s.lvalid = false ∧ s.ovalid = false ∧ s.nt = 0 ∧
    s.np = 0 ∧ s.nframes = 0

/-- Nothing runs until the host issues a command (R251); the host list is the model's choice (log 1). -/
def Obligations.IdleRunsNothing : Prop :=
  ∀ s : State, s.busy = false → s.host = [] → step s = .next s

/-- The invariant of the machine holds after reset (R39, R40); the values of contents R40 leaves unspecified are the model's
choice (log 4). -/
def Obligations.InvAtReset : Prop := Inv State.reset

/-- Every step keeps the invariant of the machine (R23, R27, R31, R32, R34, R35, R39). The canonical forms of memory and
canvas (logs 8 and 9) and the limits of unspecified contents (log 20) are the model's choice. -/
def Obligations.InvKept : Prop :=
  ∀ s t : State, Inv s → step s = .next t → Inv t

/-- Every operation ends on every input (R261): no instruction and no step stops the machine. A step of an idle unit with
nothing presented is R251 and one that takes `RST` is R250. That a step of a FAULTED unit is a next state and not a stop is
deduced from R229 and R242 (log 2); the host's list (logs 1 and 3) and the record of a stream as a step of its own (log 10)
are the model's choice. -/
def Obligations.EveryStepAnswers : Prop :=
  (∀ (i : Instr) (s : State), ∃ t, exec i s = .next t) ∧ (∀ s : State, ∃ t, step s = .next t)

/-- No step changes the ByteSource, the safety bound or the size of the canvas (R20, R51). That these parameters of the
step relation are fields of State is the model's choice (log 7). -/
def Obligations.ParametersFixed : Prop :=
  ∀ s t : State, step s = .next t →
    t.src = s.src ∧ t.maxPlacements = s.maxPlacements ∧ t.canvas.width = s.canvas.width ∧
      t.canvas.height = s.canvas.height

/-! ### Which instruction writes what (10_state.md) -/

/-- `BASE` is written only by `rebase`, which `REBASE` and `DECASSET` call (R22, R172, R173). -/
def Obligations.BaseWriters : Prop :=
  ∀ (i : Instr) (s t : State), exec i s = .next t →
    t.base = s.base ∨ (∃ b c, i = .rebase b c ∧ t.base = b.toNat) ∨
      (∃ a strict, i = .decasset a strict ∧ (t.base = a.toNat ∨ t.base = a.toNat + 4))

/-- `RESULT` is written by five instructions only; a fault in one of them keeps `RESULT` and clears `RVALID` (R26). -/
def Obligations.ResultWriters : Prop :=
  ∀ (i : Instr) (s t : State), s.err = .noFault → exec i s = .next t →
    let writer := i = .read8 ∨ i = .read16 ∨ i = .read32 ∨ (∃ n, i = .lookup n) ∨ ∃ v, i = .xform v
    (writer → (t.err = .noFault ∧ t.rvalid = true) ∨
      (t.err ≠ .noFault ∧ t.rvalid = false ∧ t.result = s.result)) ∧
    (¬ writer → t.rvalid = s.rvalid ∧ t.result = s.result)

/-- `WARN` is sticky, and only a lenient `DECASSET` over wrong markers sets it (R28, R174). -/
def Obligations.WarnSticky : Prop :=
  ∀ (i : Instr) (s t : State), exec i s = .next t →
    t.warn = s.warn ∨ (t.warn = true ∧ ∃ a, i = .decasset a false ∧ ¬ Layout.MarkersMatch s.src a.toNat)

/-- The canvas is written by `BLIT` only (R52), and not by a `BLIT` that faults (R206). -/
def Obligations.CanvasWriters : Prop :=
  ∀ (i : Instr) (s t : State), s.err = .noFault → exec i s = .next t →
    t.canvas = s.canvas ∨ ((∃ p, i = .blit p) ∧ t.err = .noFault)

/-- Each working store, the frame store and the output block are written only by the instructions the spec names (R33,
R125, R139, R161 to R163, R179, R180, R202, R206). -/
def Obligations.StoreWriters : Prop :=
  ∀ (i : Instr) (s t : State), exec i s = .next t →
    let asset := ∃ a strict, i = .decasset a strict
    let select := ∃ f, i = .selframe f
    (i = .decpal ∨ asset ∨ select ∨ (t.wpal = s.wpal ∧ t.pvalid = s.pvalid)) ∧
    (i = .dectile ∨ asset ∨ select ∨ (t.wtiles = s.wtiles ∧ t.tvalid = s.tvalid)) ∧
    (i = .decoam ∨ i = .endMark ∨ (∃ b0 b1 b2 b3 b4, i = .place b0 b1 b2 b3 b4) ∨ asset ∨ select ∨
      (t.wplist = s.wplist ∧ t.lvalid = s.lvalid)) ∧
    (asset ∨ select ∨ (t.wdelay = s.wdelay ∧ t.wendflag = s.wendflag)) ∧
    (asset ∨ t.frames = s.frames) ∧
    ((∃ p, i = .compose p) ∨ (∃ p, i = .blit p) ∨
      (t.lbuf = s.lbuf ∧ t.lw = s.lw ∧ t.lh = s.lh ∧ t.out = s.out ∧ t.outx = s.outx ∧ t.outy = s.outy ∧
        t.outw = s.outw ∧ t.outh = s.outh ∧ t.ovalid = s.ovalid))

/-- `BUSY = 1` is never seen between whole operations (R28). -/
def Obligations.BusyNeverSeen : Prop :=
  ∀ s t : State, s.busy = false → step s = .next t → t.busy = false

/-- Which instruction can raise which fault, and that only `OutOfBounds` records a width (R221 to R225, R227). -/
def Obligations.FaultKinds : Prop :=
  ∀ (i : Instr) (s t : State), s.err = .noFault → s.ewidth = 0 → exec i s = .next t →
    let asset := ∃ a strict, i = .decasset a strict
    let block := (∃ p, i = .compose p) ∨ ∃ p, i = .blit p
    (t.err = .outOfBounds →
      i = .read8 ∨ i = .read16 ∨ i = .read32 ∨ i = .decpal ∨ i = .dectile ∨ i = .decoam ∨ asset ∨
        ∃ n, i = .lookup n) ∧
    (t.err = .unexpectedMarker → ∃ a, i = .decasset a true) ∧
    (t.err = .unterminatedPlacementList ∨ t.err = .invalidSizeIndex →
      i = .decoam ∨ asset ∨ ∃ b0 b1 b2 b3 b4, i = .place b0 b1 b2 b3 b4) ∧
    (t.err = .tileIndexOutOfRange ∨ t.err = .notReady → block) ∧
    (t.err = .badOperand → block ∨ ∃ f, i = .selframe f) ∧
    t.err ≠ .illegalCommand ∧
    (t.err = .badSkip → i = .decoam ∨ asset) ∧
    (t.err = .outOfBounds → t.ewidth = 1 ∨ t.ewidth = 2 ∨ t.ewidth = 4) ∧
    (t.err ≠ .outOfBounds → t.ewidth = 0)

/-! ### The register map (10_state.md R29) -/

/-- The bits of `STATUS` and the codes of `ERR` (R27, R29). -/
def Obligations.StatusRegister : Prop :=
  ∀ s : State, s.ewidth < 8 →
    let w := (s.hostRead .status).toNat
    w % 2 = s.busy.toNat ∧ (w / 2 % 2 = 1 ↔ s.err ≠ .noFault) ∧ w / 4 % 2 = s.warn.toNat ∧
    w / 8 % 2 = s.rvalid.toNat ∧ w / 16 % 2 = s.pvalid.toNat ∧ w / 32 % 2 = s.tvalid.toNat ∧
    w / 64 % 2 = s.lvalid.toNat ∧ w / 128 % 2 = s.ovalid.toNat ∧
    [.noFault, .outOfBounds, .unexpectedMarker, .unterminatedPlacementList, .invalidSizeIndex, .tileIndexOutOfRange,
      .notReady, .badOperand, .illegalCommand, .badSkip][w / 256 % 16]? = some s.err ∧
    w / 4096 % 8 = s.ewidth ∧ w < 2 ^ 15

/-- The numbers of the register map, the fields of `COUNTS` and `OUTPOS`, and the registers read whole (R29). -/
def Obligations.RegisterMap : Prop :=
  (List.range 8).map HostReg.ofNumber =
    [some .status, some .result, some .einfo, some .base, some .cursor, some .nframes, some .counts, some .outpos] ∧
  ∀ s : State,
    let counts := (s.hostRead .counts).toNat
    let outpos := (s.hostRead .outpos).toNat
    s.hostRead .result = s.result ∧
    (s.base < 2 ^ 34 → (s.hostRead .base).toNat = s.base) ∧
    (s.cursor < 2 ^ 34 → (s.hostRead .cursor).toNat = s.cursor) ∧
    (s.nframes < 2 ^ 8 → (s.hostRead .nframes).toNat = s.nframes) ∧
    (s.einfo < 2 ^ 35 → s.einfoWords.1.toNat + 2 ^ 32 * s.einfoWords.2.toNat = s.einfo) ∧
    counts % 2 ^ 16 = min s.np 0xFFFF ∧ counts / 2 ^ 16 = min s.nt 0xFFFF ∧
    outpos % 2 ^ 8 = s.outx.toNat ∧ outpos / 2 ^ 8 % 2 ^ 8 = s.outy.toNat ∧ outpos / 2 ^ 16 % 2 ^ 7 = s.outw.toNat ∧
    outpos / 2 ^ 24 % 2 ^ 7 = s.outh.toNat

/-! ### The ByteSource and the Reader (20_memory.md, 40_reader.md) -/

/-- `MemRead(addr, n)` faults exactly when some byte is at or beyond `LEN`, and else gives the little-endian number of its
`n` bytes, below `2^(8n)`, at any alignment (R53, R54, R56). -/
def Obligations.MemReadValue : Prop :=
  ∀ (src : ByteSource) (a n : Nat), n = 1 ∨ n = 2 ∨ n = 4 →
    (src.len < a + n → memRead src a n = .error (.outOfBounds a n)) ∧
    (a + n ≤ src.len → ∃ v, memRead src a n = .ok v ∧ v < 2 ^ (8 * n) ∧
      v = ((List.range n).map fun k => 256 ^ k * (src.byte (a + k)).toNat).sum)

/-- A wide read equals the little-endian concatenation of the narrow reads of the same bytes (R55). -/
def Obligations.MixedWidths : Prop :=
  ∀ (src : ByteSource) (a v : Nat),
    (memRead src a 4 = .ok v →
      ∃ lo hi, memRead src a 2 = .ok lo ∧ memRead src (a + 2) 2 = .ok hi ∧ v = lo + 65536 * hi) ∧
    (memRead src a 2 = .ok v →
      ∃ lo hi, memRead src a 1 = .ok lo ∧ memRead src (a + 1) 1 = .ok hi ∧ v = lo + 256 * hi)

/-- When `MemRead` raises `OutOfBounds` the cursor is not advanced and no value is returned (R106). -/
def Obligations.ReaderFaultAtomicity : Prop :=
  ∀ (src : ByteSource) (d : DecodeState),
    (memRead src d.ea 1 = .error (.outOfBounds d.ea 1) → read8 src d = .error (.outOfBounds d.ea 1) d) ∧
    (memRead src d.ea 2 = .error (.outOfBounds d.ea 2) → read16 src d = .error (.outOfBounds d.ea 2) d) ∧
    (memRead src d.ea 4 = .error (.outOfBounds d.ea 4) → read32 src d = .error (.outOfBounds d.ea 4) d)

/-- `rebase` replaces both coordinates and `seek` the cursor only, whatever they are; neither reads memory nor faults, as
functions and as the commands `REBASE` and `SEEK` (R104, R105). -/
def Obligations.RebaseAndSeek : Prop :=
  (∀ (b c : Nat) (d : DecodeState), rebase b c d = .ok () { d with base := b, cursor := c }) ∧
  (∀ (c : Nat) (d : DecodeState), seek c d = .ok () { d with cursor := c }) ∧
  (∀ (b c : Word) (s : State), exec (.rebase b c) s = .next { s with base := b.toNat, cursor := c.toNat }) ∧
  (∀ (c : Word) (s : State), exec (.seek c) s = .next { s with cursor := c.toNat })

/-- `READ8`, `READ16`, `READ32` below `LEN`: the little-endian value, zero-extended, in `RESULT`, the cursor advanced by
the width (R101 to R103, R107 to R109). -/
def Obligations.ReadsComplete : Prop :=
  ∀ s : State,
    (s.ea + 1 ≤ s.src.len → exec .read8 s = .next { s with
      cursor := s.cursor + 1, result := BitVec.ofNat 32 (s.src.byte s.ea).toNat, rvalid := true }) ∧
    (s.ea + 2 ≤ s.src.len → exec .read16 s = .next { s with
      cursor := s.cursor + 2, rvalid := true
      result := BitVec.ofNat 32 ((s.src.byte s.ea).toNat + 256 * (s.src.byte (s.ea + 1)).toNat) }) ∧
    (s.ea + 4 ≤ s.src.len → exec .read32 s = .next { s with
      cursor := s.cursor + 4, rvalid := true
      result := BitVec.ofNat 32 ((s.src.byte s.ea).toNat + 2 ^ 8 * (s.src.byte (s.ea + 1)).toNat
        + 2 ^ 16 * (s.src.byte (s.ea + 2)).toNat + 2 ^ 24 * (s.src.byte (s.ea + 3)).toNat) })

/-- `READ8`, `READ16`, `READ32` not below `LEN`: `OutOfBounds(ea, n)`, `RESULT` and the Reader kept, `RVALID <- 0`
(R107 to R109, R226 to R228). -/
def Obligations.ReadsFault : Prop :=
  ∀ s : State,
    (s.src.len < s.ea + 1 → exec .read8 s = .next { s with
      rvalid := false, err := .outOfBounds, einfo := s.ea, ewidth := 1, busy := false }) ∧
    (s.src.len < s.ea + 2 → exec .read16 s = .next { s with
      rvalid := false, err := .outOfBounds, einfo := s.ea, ewidth := 2, busy := false }) ∧
    (s.src.len < s.ea + 4 → exec .read32 s = .next { s with
      rvalid := false, err := .outOfBounds, einfo := s.ea, ewidth := 4, busy := false })

/-! ### The palette (41_palette.md) -/

/-- `rgb8` multiplies each channel by 8; the low three bits are zero, 248 is the maximum, and the raw channel is recovered
by division (R124, R127). -/
def Obligations.Rgb8Scales : Prop :=
  ∀ e : Colour,
    (e.rgb8.1.toNat = 8 * e.r.toNat ∧ e.rgb8.2.1.toNat = 8 * e.g.toNat ∧ e.rgb8.2.2.toNat = 8 * e.b.toNat) ∧
    (∀ c ∈ [e.rgb8.1, e.rgb8.2.1, e.rgb8.2.2], c.toNat % 8 = 0 ∧ c.toNat ≤ 248 ∧ c ≠ 255) ∧
    (∀ e' : Colour, e.rgb8 = e'.rgb8 → e = e') ∧
    (e.r.toNat = e.rgb8.1.toNat / 8 ∧ e.g.toNat = e.rgb8.2.1.toNat / 8 ∧ e.b.toNat = e.rgb8.2.2.toNat / 8)

/-- `DECPAL` over 36 bytes below `LEN`: sixteen entries, red in the low five bits, bit 15 and the size field ignored
(R79, R80, R121 to R123, R125). -/
def Obligations.DecpalCompletes : Prop :=
  ∀ s : State, Layout.PaletteFits s.src s.ea →
    exec .decpal s = .next { s with cursor := s.cursor + 36, wpal := Layout.palette s.src s.ea, pvalid := true }

/-- `DECPAL` cut short: `OutOfBounds` at the size field, or at the first colour word that does not fit, reads before it
consumed; `PVALID = 0` and nothing said of `WPAL` (R125, R228). -/
def Obligations.DecpalFaults : Prop :=
  ∀ s : State,
    (s.src.len < s.ea + 4 → ∃ pal k, exec .decpal s = .next { s with
      pvalid := false, wpal := pal, err := .outOfBounds, einfo := s.ea, ewidth := 4, busy := false, fresh := k }) ∧
    (∀ m < 16, s.ea + 4 + 2 * m ≤ s.src.len → s.src.len < s.ea + 4 + 2 * m + 2 →
      ∃ pal k, exec .decpal s = .next { s with
        cursor := s.cursor + 4 + 2 * m, pvalid := false, wpal := pal
        err := .outOfBounds, einfo := s.ea + 4 + 2 * m, ewidth := 2, busy := false, fresh := k })

/-! ### The tile unpacker (42_tilemap.md) -/

/-- `DECTILE` over a tilemap below `LEN`: `size div 32` tiles, low nibble at the even cell, each cell zero-extended
(R77, R78, R136 to R139). -/
def Obligations.DectileCompletes : Prop :=
  ∀ s : State, Layout.TilemapFits s.src s.ea →
    exec .dectile s = .next { s with
      cursor := s.cursor + 4 + 32 * (Layout.word s.src s.ea / 32)
      wtiles := Layout.tilemap s.src s.ea, tvalid := true }

/-- `DECTILE` cut short: `OutOfBounds` at the size field, or at the first tile byte at or beyond `LEN`; `TVALID = 0` and
nothing said of `WTILES` (R139, R228). -/
def Obligations.DectileFaults : Prop :=
  ∀ s : State,
    (s.src.len < s.ea + 4 → ∃ tiles k, exec .dectile s = .next { s with
      tvalid := false, wtiles := tiles, err := .outOfBounds, einfo := s.ea, ewidth := 4, busy := false, fresh := k }) ∧
    (s.ea + 4 ≤ s.src.len → s.src.len < s.ea + 4 + 32 * (Layout.word s.src s.ea / 32) →
      ∃ tiles k, exec .dectile s = .next { s with
        cursor := s.cursor + (s.src.len - s.ea), tvalid := false, wtiles := tiles
        err := .outOfBounds, einfo := s.src.len, ewidth := 1, busy := false, fresh := k })

/-! ### The placement list (43_placement_list.md) -/

/-- The twelve size classes by key, and none for keys 12 to 15; a record's fields give the class of the key
`(shapeIndex << 2) | sizeIndex`, and `InvalidSizeIndex` where there is none (R158). -/
def Obligations.SizeTable : Prop :=
  (List.range 16).map (fun key => consts.sizeTable[key]?) =
    [some (1, 1), some (2, 2), some (4, 4), some (8, 8), some (2, 1), some (4, 1), some (4, 2), some (8, 2),
      some (1, 2), some (1, 4), some (2, 4), some (4, 8), none, none, none, none] ∧
  ∀ b0 b1 b2 b3 b4 : Byte,
    let key := 4 * (b4.toNat % 4) + b3.toNat % 4
    match consts.sizeTable[key]? with
    | some (w, h) => ∃ p, placementOf b0 b1 b2 b3 b4 = .ok p ∧ p.w = w ∧ p.h = h
    | none => placementOf b0 b1 b2 b3 b4 = .error (.invalidSizeIndex key)

/-- `PLACE` with room in the list and a shape other than 3 appends the placement its five bytes stand for and advances the
cursor by 5 (R82, R84, R157 to R159, R162); that a record is a step of its own is the model's choice (log 10). -/
def Obligations.PlaceAppends : Prop :=
  ∀ (s : State) (b0 b1 b2 b3 b4 : Byte), s.walk.length < s.maxPlacements → b4.toNat % 4 ≠ 3 →
    ∃ p, Layout.RecordStandsFor b0.toNat b1.toNat b2.toNat b3.toNat b4.toNat p ∧
      exec (.place b0 b1 b2 b3 b4) s = .next { s with cursor := s.cursor + 5, walk := s.walk ++ [p] }

/-- `PLACE` raises `UnterminatedPlacementList(rstart)` when the bound is reached, and else `InvalidSizeIndex(key)` for
shape 3; the first is tested first (R156, R157, R162, R164, R228). Two clauses rest on the model's choice: a record is a
step of its own and its fault is `DECOAM`'s, hence `LVALID = 0`, `BUSY = 0` and no list under construction (log 10); the
bound is `MAX_PLACEMENTS <=` the length, which also fixes lists longer than the bound, where R151's equality would go on
(log 19) and which `Inv.walkOk` shuts out. -/
def Obligations.PlaceRaises : Prop :=
  ∀ (s : State) (b0 b1 b2 b3 b4 : Byte),
    (s.maxPlacements ≤ s.walk.length →
      ∃ list k, exec (.place b0 b1 b2 b3 b4) s = .next { s with
        cursor := s.cursor + 5, walk := [], wplist := list, lvalid := false
        err := .unterminatedPlacementList, einfo := s.ea, ewidth := 0, busy := false, fresh := k }) ∧
    (s.walk.length < s.maxPlacements → b4.toNat % 4 = 3 →
      ∃ list k, exec (.place b0 b1 b2 b3 b4) s = .next { s with
        cursor := s.cursor + 5, walk := [], wplist := list, lvalid := false
        err := .invalidSizeIndex, einfo := 12 + b3.toNat % 4, ewidth := 0, busy := false, fresh := k })

/-- `END` appends nothing, advances the cursor by 5 and makes the list the working list (R161, R163); that a
record is a step of its own is the model's choice (log 10). -/
def Obligations.EndEndsTheList : Prop :=
  ∀ s : State, exec .endMark s = .next { s with
    cursor := s.cursor + 5, wplist := s.walk, lvalid := true, walk := [], busy := false }

/-- `DECOAM` completes with `list` exactly when a placement list that stands for `list` lies at `ea()`; the cursor then
stands just past the sentinel (R151, R153 to R161). -/
def Obligations.DecoamDecodesTheList : Prop :=
  ∀ (s : State) (list : List Placement),
    Layout.PlacementListAt s.src s.maxPlacements s.ea list ↔
      exec .decoam s = .next { s with
        cursor := s.cursor + Layout.word s.src s.ea + 5 * (list.length + 1), wplist := list, lvalid := true }

/-- `DECOAM` as one whole operation, and the record stream run record by record from behind the lead-in, end in the same
state on every input, after at most `MAX_PLACEMENTS + 1` records (R16, R151, R166). The record steps are the model's
finer view (log 10). -/
def Obligations.DecoamIsTheRecordWalk : Prop :=
  ∀ s : State, s.err = .noFault → s.busy = false → s.walk = [] → s.host = [] →
    s.ea + 4 ≤ s.src.len → 4 ≤ Layout.word s.src s.ea →
      Host.Core.run core (s.maxPlacements + 1)
        { s with cursor := s.cursor + Layout.word s.src s.ea, lvalid := false, busy := true } = exec .decoam s

/-- `DECOAM` faults before its first record: `OutOfBounds` at the skip field, or `BadSkip(skip)` for a skip below 4
(R152, R153, R164, R228). -/
def Obligations.DecoamSkipFaults : Prop :=
  ∀ s : State,
    (s.src.len < s.ea + 4 → ∃ list k, exec .decoam s = .next { s with
      lvalid := false, wplist := list, walk := [], err := .outOfBounds, einfo := s.ea, ewidth := 4, busy := false
      fresh := k }) ∧
    (s.ea + 4 ≤ s.src.len → Layout.word s.src s.ea < 4 → ∃ list k, exec .decoam s = .next { s with
      cursor := s.cursor + 4, lvalid := false, wplist := list, walk := []
      err := .badSkip, einfo := Layout.word s.src s.ea, ewidth := 0, busy := false, fresh := k })

/-- A list whose first `MAX_PLACEMENTS + 1` records are not the sentinel, the first `MAX_PLACEMENTS` of them of a legal
size, raises `UnterminatedPlacementList` at the last of them, its bytes consumed (R156, R223). -/
def Obligations.DecoamUnterminated : Prop :=
  ∀ s : State,
    let first := s.ea + Layout.word s.src s.ea
    s.ea + 4 ≤ s.src.len → 4 ≤ Layout.word s.src s.ea → first + 5 * (s.maxPlacements + 1) ≤ s.src.len →
    (∀ k ≤ s.maxPlacements, ¬ Layout.IsEnd s.src (first + 5 * k)) →
    (∀ k < s.maxPlacements, Layout.byteNat s.src (first + 5 * k + 4) % 4 ≠ 3) →
      ∃ list k, exec .decoam s = .next { s with
        cursor := s.cursor + Layout.word s.src s.ea + 5 * (s.maxPlacements + 1), lvalid := false, wplist := list
        walk := [], err := .unterminatedPlacementList, einfo := first + 5 * s.maxPlacements, ewidth := 0
        busy := false, fresh := k }

/-! ### The asset decoder and the lookup (44_asset.md) -/

/-- `DECASSET` over an asset at `A`, with the expected markers if strict: one frame for each pointer-table entry, the last
one, if any, in the working stores; a lenient decode over wrong markers sets `WARN` and gives the same frames (R171 to
R179, R184, R185). That the working stores keep their contents when there is no frame is deduced (log 22). -/
def Obligations.DecassetDecodesTheAsset : Prop :=
  ∀ (s : State) (a : Word) (strict : Bool) (frames : List Frame),
    Layout.AssetAt s.src s.maxPlacements a.toNat frames →
    (strict = true → Layout.MarkersMatch s.src a.toNat) →
      let t := { s with
        base := a.toNat + 4, cursor := Layout.assetCursor s.src a.toNat frames
        warn := s.warn || !(Layout.byteNat s.src (a.toNat + 1) == 0 && Layout.byteNat s.src (a.toNat + 2) == 1)
        frames := frames }
      exec (.decasset a strict) s = .next (match frames.getLast? with
        | none => { t with pvalid := false, tvalid := false, lvalid := false }
        | some f => { t with
            wtiles := f.tiles, wpal := f.pal, wplist := f.plist, wdelay := f.delay, wendflag := f.endFlag
            pvalid := true, tvalid := true, lvalid := true })

/-- `DECASSET` completes only over an asset, and strict only with the expected markers; what it leaves in `FRAMES` is that
asset's frames (R171, R174, R179). -/
def Obligations.DecassetCompletesOnlyOnAssets : Prop :=
  ∀ (s t : State) (a : Word) (strict : Bool), s.err = .noFault →
    exec (.decasset a strict) s = .next t → t.err = .noFault →
      Layout.AssetAt s.src s.maxPlacements a.toNat t.frames ∧ (strict = true → Layout.MarkersMatch s.src a.toNat)

/-- `DECASSET` faults in the header: a missing byte is `OutOfBounds` before any marker is tested; a strict decode over
wrong markers is `UnexpectedMarker` (R172, R174, R183, R228). -/
def Obligations.DecassetHeaderFaults : Prop :=
  ∀ (s : State) (a : Word) (strict : Bool),
    (s.src.len < a.toNat + 4 → ∃ pal tiles list delay flag k, exec (.decasset a strict) s = .next { s with
      base := a.toNat, cursor := s.src.len - a.toNat, frames := []
      wpal := pal, wtiles := tiles, wplist := list, wdelay := delay, wendflag := flag
      pvalid := false, tvalid := false, lvalid := false
      err := .outOfBounds, einfo := max a.toNat s.src.len, ewidth := 1, busy := false, fresh := k }) ∧
    (a.toNat + 4 ≤ s.src.len → ¬ Layout.MarkersMatch s.src a.toNat →
      ∃ pal tiles list delay flag k, exec (.decasset a true) s = .next { s with
        base := a.toNat, cursor := 4, frames := []
        wpal := pal, wtiles := tiles, wplist := list, wdelay := delay, wendflag := flag
        pvalid := false, tvalid := false, lvalid := false
        err := .unexpectedMarker
        einfo := Layout.byteNat s.src (a.toNat + 1) + 256 * Layout.byteNat s.src (a.toNat + 2)
        ewidth := 0, busy := false, fresh := k })

/-- A `DECASSET` that faults exposes no frame and no working store, and keeps the result, the output block and the canvas
(R179, R228); that `WDELAY` and `WENDFLAG` count among the unspecified working stores is deduced (log 12). -/
def Obligations.DecassetFaultExposesNothing : Prop :=
  ∀ (s t : State) (a : Word) (strict : Bool), s.err = .noFault →
    exec (.decasset a strict) s = .next t → t.err ≠ .noFault →
      t.nframes = 0 ∧ t.pvalid = false ∧ t.tvalid = false ∧ t.lvalid = false ∧
      t = { s with
        base := t.base, cursor := t.cursor, warn := t.warn, frames := [], wpal := t.wpal, wtiles := t.wtiles
        wplist := t.wplist, wdelay := t.wdelay, wendflag := t.wendflag, pvalid := false, tvalid := false
        lvalid := false, err := t.err, einfo := t.einfo, ewidth := t.ewidth, busy := false, fresh := t.fresh }

/-- `DECASSET` twice with the same operands leaves the same state (R184 (f)). That the working stores keep their contents
when there is no frame is deduced (log 22). -/
def Obligations.DecassetIsDeterministic : Prop :=
  ∀ (s t : State) (a : Word) (strict : Bool), s.err = .noFault →
    exec (.decasset a strict) s = .next t → t.err = .noFault → exec (.decasset a strict) t = .next t

/-- `SELFRAME`, `op` 0x14: frame `f` to the working stores, or `BadOperand(f)` and nothing else (R180). -/
def Obligations.SelframeSelects : Prop :=
  (∀ w : CommandWord, w.toNat / 2 ^ 64 = 0x14 →
    decode (.command w) = .ok (.selframe (BitVec.ofNat 32 (w.toNat / 2 ^ 32)))) ∧
  ∀ (s : State) (f : Word),
    (∀ fr, s.frames[f.toNat]? = some fr → exec (.selframe f) s = .next { s with
      wtiles := fr.tiles, wpal := fr.pal, wplist := fr.plist, wdelay := fr.delay, wendflag := fr.endFlag
      tvalid := true, pvalid := true, lvalid := true }) ∧
    (s.nframes ≤ f.toNat → exec (.selframe f) s = .next { s with
      err := .badOperand, einfo := f.toNat, ewidth := 0, busy := false })

/-- `LOOKUP`, `op` 0x15: the low 24 bits of the word at `0x31EA8 + 4*index`, or `OutOfBounds`; the Reader is untouched
(R181, R182). -/
def Obligations.LookupReads : Prop :=
  (∀ w : CommandWord, w.toNat / 2 ^ 64 = 0x15 →
    decode (.command w) = .ok (.lookup (BitVec.ofNat 32 (w.toNat / 2 ^ 32)))) ∧
  ∀ (s : State) (index : Word),
    let address := 0x31EA8 + 4 * index.toNat
    address < 2 ^ 34 + 0x31EA8 ∧
    (address + 4 ≤ s.src.len → exec (.lookup index) s = .next { s with
      result := BitVec.ofNat 32 (Layout.word s.src address % 2 ^ 24), rvalid := true }) ∧
    (s.src.len < address + 4 → exec (.lookup index) s = .next { s with
      rvalid := false, err := .outOfBounds, einfo := address, ewidth := 4, busy := false })

/-! ### The compositor (45_compositor.md) -/

/-- `COMPOSE` of a placement whose tiles all exist: every cell of the local buffer and every pixel of the output block by
the index formula (R203), the size and the position (R202, R204). In states outside `Inv` a tile, cell or palette entry may
be missing, and what is shown there is the model's choice, the defaults of `shownIndex` and `shownPixel` (log 13). -/
def Obligations.ComposeShowsThePlacement : Prop :=
  ∀ (s : State) (index : Word) (p : Placement),
    s.tvalid = true → s.pvalid = true → s.lvalid = true → s.wplist[index.toNat]? = some p →
    p.startTile.toNat + p.w * p.h ≤ s.nt →
      exec (.compose index) s = .next { s with
        lbuf := (List.range (8 * p.h)).map fun y => (List.range (8 * p.w)).map fun x =>
          Layout.shownIndex s.wtiles p x y
        out := (List.range (8 * p.h)).map fun y => (List.range (8 * p.w)).map fun x =>
          Layout.shownPixel s.wpal (Layout.shownIndex s.wtiles p x y)
        lw := p.w, lh := p.h, outw := BitVec.ofNat 7 (8 * p.w), outh := BitVec.ofNat 7 (8 * p.h)
        outx := BitVec.ofNat 8 (p.offsetX.toNat + 128), outy := BitVec.ofNat 8 (p.offsetY.toNat + 128)
        ovalid := true }

/-- The faults of `COMPOSE` and `BLIT` in their order: `NotReady`, `BadOperand`, then `TileIndexOutOfRange` at the smallest
missing index; the first two change nothing else, the last invalidates the block; none writes the canvas (R191, R196,
R209, R228). -/
def Obligations.CompositionFaults : Prop :=
  ∀ (s : State) (index : Word) (i : Instr), i = .compose index ∨ i = .blit index →
    (s.tvalid = false ∨ s.pvalid = false ∨ s.lvalid = false → exec i s = .next { s with
      err := .notReady, einfo := 0, ewidth := 0, busy := false }) ∧
    (s.tvalid = true → s.pvalid = true → s.lvalid = true →
      (s.np ≤ index.toNat → exec i s = .next { s with
        err := .badOperand, einfo := index.toNat, ewidth := 0, busy := false }) ∧
      (∀ p, s.wplist[index.toNat]? = some p → 0 < p.w * p.h → s.nt < p.startTile.toNat + p.w * p.h →
        ∃ lbuf lw lh out outx outy outw outh k, exec i s = .next { s with
          lbuf, lw, lh, out, outx, outy, outw, outh, ovalid := false, fresh := k
          err := .tileIndexOutOfRange, einfo := max p.startTile.toNat s.nt, ewidth := 0, busy := false }))

/-- Without `hflip` the buffer stays as composed; a placement with `hflip` set shows the rows of the same placement
without it, each reversed; mirroring twice is the identity (R197). -/
def Obligations.HorizontalFlipMirrors : Prop :=
  (∀ buffer : List (List Byte), mirrorRows (mirrorRows buffer) = buffer) ∧
  ∀ (s t : State) (index : Word) (p : Placement),
    s.tvalid = true → s.pvalid = true → s.lvalid = true → s.wplist[index.toNat]? = some p → p.hflip = false →
    p.startTile.toNat + p.w * p.h ≤ s.nt → exec (.compose index) s = .next t →
      t.lbuf = composeBuffer p.w p.h ((s.wtiles.drop p.startTile.toNat).take (p.w * p.h)) ∧
      exec (.compose index) { s with wplist := s.wplist.set index.toNat { p with hflip := true } } =
        .next { t with
          wplist := s.wplist.set index.toNat { p with hflip := true }
          lbuf := t.lbuf.map List.reverse, out := t.out.map List.reverse }

/-- `COMPOSE` and `BLIT` do not read `vflip`: over placement lists that differ only there they do the same (R198). -/
def Obligations.VerticalFlipIsIgnored : Prop :=
  ∀ (s t : State) (index : Word) (i : Instr) (g : Placement → Bool), i = .compose index ∨ i = .blit index →
    exec i s = .next t →
      exec i { s with wplist := s.wplist.map fun p => { p with vflip := g p } } =
        .next { t with wplist := s.wplist.map fun p => { p with vflip := g p } }

/-- The offset transform is `(v + 128) mod 256`, which inverts bit 7 only, and `XFORM`, `op` 0x21, puts that of its `a[7:0]`
in `RESULT` in every state (R204, R205). -/
def Obligations.OffsetTransform : Prop :=
  (∀ w : CommandWord, w.toNat / 2 ^ 64 = 0x21 →
    decode (.command w) = .ok (.xform (BitVec.ofNat 8 (w.toNat / 2 ^ 32)))) ∧
  ∀ v : Byte,
    (xformByte v).toNat = (v.toNat + 128) % 256 ∧ xformByte v = v ^^^ 0x80 ∧
    (v.toNat ≤ 0x7F → (xformByte v).toNat = 128 + v.toNat) ∧ (0x7F < v.toNat → (xformByte v).toNat = v.toNat - 128) ∧
    ∀ s : State, exec (.xform v) s = .next { s with
      result := BitVec.ofNat 32 ((v.toNat + 128) % 256), rvalid := true }

/-- `BLIT` is `COMPOSE` followed by the write of the opaque pixels at the block's position: every canvas pixel under an
opaque block pixel takes its colour with alpha 255, every other keeps what it held (R206, R207). The canvas as a sparse list
in State is the model's choice (log 9), and its canonical form is part of the invariant; in states outside `Inv` the
defaults of `shownIndex` and `shownPixel` are the model's choice too (log 13). -/
def Obligations.BlitWritesOpaquePixels : Prop :=
  ∀ (s : State) (index : Word) (p : Placement),
    s.tvalid = true → s.pvalid = true → s.lvalid = true → s.wplist[index.toNat]? = some p →
    p.startTile.toNat + p.w * p.h ≤ s.nt → Sparse.wf Rgba.blank s.canvas.pixels = true →
      let ox := (p.offsetX.toNat + 128) % 256
      let oy := (p.offsetY.toNat + 128) % 256
      ∃ t canvas, exec (.compose index) s = .next t ∧ exec (.blit index) s = .next { t with canvas := canvas } ∧
        canvas.width = s.canvas.width ∧ canvas.height = s.canvas.height ∧
        ∀ x y, canvas.pixel x y =
          if x < s.canvas.width ∧ y < s.canvas.height ∧ ox ≤ x ∧ x < ox + 8 * p.w ∧ oy ≤ y ∧ y < oy + 8 * p.h then
            match Layout.shownPixel s.wpal (Layout.shownIndex s.wtiles p (x - ox) (y - oy)) with
            | some pixel => some pixel
            | none => s.canvas.pixel x y
          else s.canvas.pixel x y
end

