-- ==== Sys2Proof/Laws/State.lean ====
section
/-! SUPPORT. The small lemmas of the state: for each named update one lemma per field, true by definition, so that no later
proof unfolds a record update. -/

namespace Sys2Proof.Machine

@[simp] theorem consts_tileDim : consts.tileDim = 8 := rfl
@[simp] theorem consts_tileBytes : consts.tileBytes = 32 := rfl
@[simp] theorem consts_palEntries : consts.palEntries = 16 := rfl
@[simp] theorem consts_chScale : consts.chScale = 8 := rfl
@[simp] theorem consts_alphaOpaque : consts.alphaOpaque = 255 := rfl
@[simp] theorem consts_recBytes : consts.recBytes = 5 := rfl
@[simp] theorem consts_sentinelByte : consts.sentinelByte = 0xFF := rfl
@[simp] theorem consts_sizeMask : consts.sizeMask = 0x3 := rfl
@[simp] theorem consts_hflipMask : consts.hflipMask = 0x40 := rfl
@[simp] theorem consts_vflipMask : consts.vflipMask = 0x20 := rfl
@[simp] theorem consts_shapeMask : consts.shapeMask = 0x3 := rfl
@[simp] theorem consts_sizeTable_length : consts.sizeTable.length = 12 := rfl
@[simp] theorem consts_skipBias : consts.skipBias = 4 := rfl
@[simp] theorem consts_hdrBytes : consts.hdrBytes = 4 := rfl
@[simp] theorem consts_mark1 : consts.mark1 = 0x00 := rfl
@[simp] theorem consts_mark2 : consts.mark2 = 0x01 := rfl
@[simp] theorem consts_animrecBytes : consts.animrecBytes = 20 := rfl
@[simp] theorem consts_posBias : consts.posBias = 128 := rfl
@[simp] theorem consts_lookupBase : consts.lookupBase = 0x31EA8 := rfl
@[simp] theorem consts_lookupMask : consts.lookupMask = 0xFFFFFF := rfl

@[simp] theorem decodeState_base (s : State) : s.decodeState.base = s.base := rfl
@[simp] theorem decodeState_cursor (s : State) : s.decodeState.cursor = s.cursor := rfl
@[simp] theorem decodeState_warn (s : State) : s.decodeState.warn = s.warn := rfl
@[simp] theorem decodeState_ea (s : State) : s.decodeState.ea = s.ea := rfl

@[simp] theorem State.withDecode_base (s : State) (d : DecodeState) : (s.withDecode d).base = d.base := rfl
@[simp] theorem State.withDecode_cursor (s : State) (d : DecodeState) : (s.withDecode d).cursor = d.cursor := rfl
@[simp] theorem State.withDecode_result (s : State) (d : DecodeState) : (s.withDecode d).result = s.result := rfl
@[simp] theorem State.withDecode_rvalid (s : State) (d : DecodeState) : (s.withDecode d).rvalid = s.rvalid := rfl
@[simp] theorem State.withDecode_busy (s : State) (d : DecodeState) : (s.withDecode d).busy = s.busy := rfl
@[simp] theorem State.withDecode_err (s : State) (d : DecodeState) : (s.withDecode d).err = s.err := rfl
@[simp] theorem State.withDecode_einfo (s : State) (d : DecodeState) : (s.withDecode d).einfo = s.einfo := rfl
@[simp] theorem State.withDecode_ewidth (s : State) (d : DecodeState) : (s.withDecode d).ewidth = s.ewidth := rfl
@[simp] theorem State.withDecode_warn (s : State) (d : DecodeState) : (s.withDecode d).warn = d.warn := rfl
@[simp] theorem State.withDecode_wpal (s : State) (d : DecodeState) : (s.withDecode d).wpal = s.wpal := rfl
@[simp] theorem State.withDecode_pvalid (s : State) (d : DecodeState) : (s.withDecode d).pvalid = s.pvalid := rfl
@[simp] theorem State.withDecode_wtiles (s : State) (d : DecodeState) : (s.withDecode d).wtiles = s.wtiles := rfl
@[simp] theorem State.withDecode_tvalid (s : State) (d : DecodeState) : (s.withDecode d).tvalid = s.tvalid := rfl
@[simp] theorem State.withDecode_wplist (s : State) (d : DecodeState) : (s.withDecode d).wplist = s.wplist := rfl
@[simp] theorem State.withDecode_lvalid (s : State) (d : DecodeState) : (s.withDecode d).lvalid = s.lvalid := rfl
@[simp] theorem State.withDecode_wdelay (s : State) (d : DecodeState) : (s.withDecode d).wdelay = s.wdelay := rfl
@[simp] theorem State.withDecode_wendflag (s : State) (d : DecodeState) : (s.withDecode d).wendflag = s.wendflag := rfl
@[simp] theorem State.withDecode_frames (s : State) (d : DecodeState) : (s.withDecode d).frames = s.frames := rfl
@[simp] theorem State.withDecode_lbuf (s : State) (d : DecodeState) : (s.withDecode d).lbuf = s.lbuf := rfl
@[simp] theorem State.withDecode_lw (s : State) (d : DecodeState) : (s.withDecode d).lw = s.lw := rfl
@[simp] theorem State.withDecode_lh (s : State) (d : DecodeState) : (s.withDecode d).lh = s.lh := rfl
@[simp] theorem State.withDecode_out (s : State) (d : DecodeState) : (s.withDecode d).out = s.out := rfl
@[simp] theorem State.withDecode_outx (s : State) (d : DecodeState) : (s.withDecode d).outx = s.outx := rfl
@[simp] theorem State.withDecode_outy (s : State) (d : DecodeState) : (s.withDecode d).outy = s.outy := rfl
@[simp] theorem State.withDecode_outw (s : State) (d : DecodeState) : (s.withDecode d).outw = s.outw := rfl
@[simp] theorem State.withDecode_outh (s : State) (d : DecodeState) : (s.withDecode d).outh = s.outh := rfl
@[simp] theorem State.withDecode_ovalid (s : State) (d : DecodeState) : (s.withDecode d).ovalid = s.ovalid := rfl
@[simp] theorem State.withDecode_walk (s : State) (d : DecodeState) : (s.withDecode d).walk = s.walk := rfl
@[simp] theorem State.withDecode_canvas (s : State) (d : DecodeState) : (s.withDecode d).canvas = s.canvas := rfl
@[simp] theorem State.withDecode_host (s : State) (d : DecodeState) : (s.withDecode d).host = s.host := rfl
@[simp] theorem State.withDecode_src (s : State) (d : DecodeState) : (s.withDecode d).src = s.src := rfl
@[simp] theorem State.withDecode_maxPlacements (s : State) (d : DecodeState) : (s.withDecode d).maxPlacements = s.maxPlacements := rfl
@[simp] theorem State.withDecode_fresh (s : State) (d : DecodeState) : (s.withDecode d).fresh = s.fresh := rfl

@[simp] theorem State.setResult_base (s : State) (v : Word) : (s.setResult v).base = s.base := rfl
@[simp] theorem State.setResult_cursor (s : State) (v : Word) : (s.setResult v).cursor = s.cursor := rfl
@[simp] theorem State.setResult_result (s : State) (v : Word) : (s.setResult v).result = v := rfl
@[simp] theorem State.setResult_rvalid (s : State) (v : Word) : (s.setResult v).rvalid = true := rfl
@[simp] theorem State.setResult_busy (s : State) (v : Word) : (s.setResult v).busy = s.busy := rfl
@[simp] theorem State.setResult_err (s : State) (v : Word) : (s.setResult v).err = s.err := rfl
@[simp] theorem State.setResult_einfo (s : State) (v : Word) : (s.setResult v).einfo = s.einfo := rfl
@[simp] theorem State.setResult_ewidth (s : State) (v : Word) : (s.setResult v).ewidth = s.ewidth := rfl
@[simp] theorem State.setResult_warn (s : State) (v : Word) : (s.setResult v).warn = s.warn := rfl
@[simp] theorem State.setResult_wpal (s : State) (v : Word) : (s.setResult v).wpal = s.wpal := rfl
@[simp] theorem State.setResult_pvalid (s : State) (v : Word) : (s.setResult v).pvalid = s.pvalid := rfl
@[simp] theorem State.setResult_wtiles (s : State) (v : Word) : (s.setResult v).wtiles = s.wtiles := rfl
@[simp] theorem State.setResult_tvalid (s : State) (v : Word) : (s.setResult v).tvalid = s.tvalid := rfl
@[simp] theorem State.setResult_wplist (s : State) (v : Word) : (s.setResult v).wplist = s.wplist := rfl
@[simp] theorem State.setResult_lvalid (s : State) (v : Word) : (s.setResult v).lvalid = s.lvalid := rfl
@[simp] theorem State.setResult_wdelay (s : State) (v : Word) : (s.setResult v).wdelay = s.wdelay := rfl
@[simp] theorem State.setResult_wendflag (s : State) (v : Word) : (s.setResult v).wendflag = s.wendflag := rfl
@[simp] theorem State.setResult_frames (s : State) (v : Word) : (s.setResult v).frames = s.frames := rfl
@[simp] theorem State.setResult_lbuf (s : State) (v : Word) : (s.setResult v).lbuf = s.lbuf := rfl
@[simp] theorem State.setResult_lw (s : State) (v : Word) : (s.setResult v).lw = s.lw := rfl
@[simp] theorem State.setResult_lh (s : State) (v : Word) : (s.setResult v).lh = s.lh := rfl
@[simp] theorem State.setResult_out (s : State) (v : Word) : (s.setResult v).out = s.out := rfl
@[simp] theorem State.setResult_outx (s : State) (v : Word) : (s.setResult v).outx = s.outx := rfl
@[simp] theorem State.setResult_outy (s : State) (v : Word) : (s.setResult v).outy = s.outy := rfl
@[simp] theorem State.setResult_outw (s : State) (v : Word) : (s.setResult v).outw = s.outw := rfl
@[simp] theorem State.setResult_outh (s : State) (v : Word) : (s.setResult v).outh = s.outh := rfl
@[simp] theorem State.setResult_ovalid (s : State) (v : Word) : (s.setResult v).ovalid = s.ovalid := rfl
@[simp] theorem State.setResult_walk (s : State) (v : Word) : (s.setResult v).walk = s.walk := rfl
@[simp] theorem State.setResult_canvas (s : State) (v : Word) : (s.setResult v).canvas = s.canvas := rfl
@[simp] theorem State.setResult_host (s : State) (v : Word) : (s.setResult v).host = s.host := rfl
@[simp] theorem State.setResult_src (s : State) (v : Word) : (s.setResult v).src = s.src := rfl
@[simp] theorem State.setResult_maxPlacements (s : State) (v : Word) : (s.setResult v).maxPlacements = s.maxPlacements := rfl
@[simp] theorem State.setResult_fresh (s : State) (v : Word) : (s.setResult v).fresh = s.fresh := rfl

@[simp] theorem State.loadFrame_base (s : State) (f : Frame) : (s.loadFrame f).base = s.base := rfl
@[simp] theorem State.loadFrame_cursor (s : State) (f : Frame) : (s.loadFrame f).cursor = s.cursor := rfl
@[simp] theorem State.loadFrame_result (s : State) (f : Frame) : (s.loadFrame f).result = s.result := rfl
@[simp] theorem State.loadFrame_rvalid (s : State) (f : Frame) : (s.loadFrame f).rvalid = s.rvalid := rfl
@[simp] theorem State.loadFrame_busy (s : State) (f : Frame) : (s.loadFrame f).busy = s.busy := rfl
@[simp] theorem State.loadFrame_err (s : State) (f : Frame) : (s.loadFrame f).err = s.err := rfl
@[simp] theorem State.loadFrame_einfo (s : State) (f : Frame) : (s.loadFrame f).einfo = s.einfo := rfl
@[simp] theorem State.loadFrame_ewidth (s : State) (f : Frame) : (s.loadFrame f).ewidth = s.ewidth := rfl
@[simp] theorem State.loadFrame_warn (s : State) (f : Frame) : (s.loadFrame f).warn = s.warn := rfl
@[simp] theorem State.loadFrame_wpal (s : State) (f : Frame) : (s.loadFrame f).wpal = f.pal := rfl
@[simp] theorem State.loadFrame_pvalid (s : State) (f : Frame) : (s.loadFrame f).pvalid = true := rfl
@[simp] theorem State.loadFrame_wtiles (s : State) (f : Frame) : (s.loadFrame f).wtiles = f.tiles := rfl
@[simp] theorem State.loadFrame_tvalid (s : State) (f : Frame) : (s.loadFrame f).tvalid = true := rfl
@[simp] theorem State.loadFrame_wplist (s : State) (f : Frame) : (s.loadFrame f).wplist = f.plist := rfl
@[simp] theorem State.loadFrame_lvalid (s : State) (f : Frame) : (s.loadFrame f).lvalid = true := rfl
@[simp] theorem State.loadFrame_wdelay (s : State) (f : Frame) : (s.loadFrame f).wdelay = f.delay := rfl
@[simp] theorem State.loadFrame_wendflag (s : State) (f : Frame) : (s.loadFrame f).wendflag = f.endFlag := rfl
@[simp] theorem State.loadFrame_frames (s : State) (f : Frame) : (s.loadFrame f).frames = s.frames := rfl
@[simp] theorem State.loadFrame_lbuf (s : State) (f : Frame) : (s.loadFrame f).lbuf = s.lbuf := rfl
@[simp] theorem State.loadFrame_lw (s : State) (f : Frame) : (s.loadFrame f).lw = s.lw := rfl
@[simp] theorem State.loadFrame_lh (s : State) (f : Frame) : (s.loadFrame f).lh = s.lh := rfl
@[simp] theorem State.loadFrame_out (s : State) (f : Frame) : (s.loadFrame f).out = s.out := rfl
@[simp] theorem State.loadFrame_outx (s : State) (f : Frame) : (s.loadFrame f).outx = s.outx := rfl
@[simp] theorem State.loadFrame_outy (s : State) (f : Frame) : (s.loadFrame f).outy = s.outy := rfl
@[simp] theorem State.loadFrame_outw (s : State) (f : Frame) : (s.loadFrame f).outw = s.outw := rfl
@[simp] theorem State.loadFrame_outh (s : State) (f : Frame) : (s.loadFrame f).outh = s.outh := rfl
@[simp] theorem State.loadFrame_ovalid (s : State) (f : Frame) : (s.loadFrame f).ovalid = s.ovalid := rfl
@[simp] theorem State.loadFrame_walk (s : State) (f : Frame) : (s.loadFrame f).walk = s.walk := rfl
@[simp] theorem State.loadFrame_canvas (s : State) (f : Frame) : (s.loadFrame f).canvas = s.canvas := rfl
@[simp] theorem State.loadFrame_host (s : State) (f : Frame) : (s.loadFrame f).host = s.host := rfl
@[simp] theorem State.loadFrame_src (s : State) (f : Frame) : (s.loadFrame f).src = s.src := rfl
@[simp] theorem State.loadFrame_maxPlacements (s : State) (f : Frame) : (s.loadFrame f).maxPlacements = s.maxPlacements := rfl
@[simp] theorem State.loadFrame_fresh (s : State) (f : Frame) : (s.loadFrame f).fresh = s.fresh := rfl

@[simp] theorem State.freeBlock_base (s : State) : s.freeBlock.base = s.base := rfl
@[simp] theorem State.freeBlock_cursor (s : State) : s.freeBlock.cursor = s.cursor := rfl
@[simp] theorem State.freeBlock_result (s : State) : s.freeBlock.result = s.result := rfl
@[simp] theorem State.freeBlock_rvalid (s : State) : s.freeBlock.rvalid = s.rvalid := rfl
@[simp] theorem State.freeBlock_busy (s : State) : s.freeBlock.busy = s.busy := rfl
@[simp] theorem State.freeBlock_err (s : State) : s.freeBlock.err = s.err := rfl
@[simp] theorem State.freeBlock_einfo (s : State) : s.freeBlock.einfo = s.einfo := rfl
@[simp] theorem State.freeBlock_ewidth (s : State) : s.freeBlock.ewidth = s.ewidth := rfl
@[simp] theorem State.freeBlock_warn (s : State) : s.freeBlock.warn = s.warn := rfl
@[simp] theorem State.freeBlock_wpal (s : State) : s.freeBlock.wpal = s.wpal := rfl
@[simp] theorem State.freeBlock_pvalid (s : State) : s.freeBlock.pvalid = s.pvalid := rfl
@[simp] theorem State.freeBlock_wtiles (s : State) : s.freeBlock.wtiles = s.wtiles := rfl
@[simp] theorem State.freeBlock_tvalid (s : State) : s.freeBlock.tvalid = s.tvalid := rfl
@[simp] theorem State.freeBlock_wplist (s : State) : s.freeBlock.wplist = s.wplist := rfl
@[simp] theorem State.freeBlock_lvalid (s : State) : s.freeBlock.lvalid = s.lvalid := rfl
@[simp] theorem State.freeBlock_wdelay (s : State) : s.freeBlock.wdelay = s.wdelay := rfl
@[simp] theorem State.freeBlock_wendflag (s : State) : s.freeBlock.wendflag = s.wendflag := rfl
@[simp] theorem State.freeBlock_frames (s : State) : s.freeBlock.frames = s.frames := rfl
@[simp] theorem State.freeBlock_lbuf (s : State) : s.freeBlock.lbuf = freeLocalBuffer s.fresh := rfl
@[simp] theorem State.freeBlock_lw (s : State) : s.freeBlock.lw = Config.freeCount s.fresh 0 := rfl
@[simp] theorem State.freeBlock_lh (s : State) : s.freeBlock.lh = Config.freeCount s.fresh 1 := rfl
@[simp] theorem State.freeBlock_out (s : State) : s.freeBlock.out = freeOut s.fresh := rfl
@[simp] theorem State.freeBlock_outx (s : State) : s.freeBlock.outx = Config.freeByte s.fresh 0 := rfl
@[simp] theorem State.freeBlock_outy (s : State) : s.freeBlock.outy = Config.freeByte s.fresh 1 := rfl
@[simp] theorem State.freeBlock_outw (s : State) : s.freeBlock.outw = (Config.freeByte s.fresh 2).truncate 7 := rfl
@[simp] theorem State.freeBlock_outh (s : State) : s.freeBlock.outh = (Config.freeByte s.fresh 3).truncate 7 := rfl
@[simp] theorem State.freeBlock_ovalid (s : State) : s.freeBlock.ovalid = s.ovalid := rfl
@[simp] theorem State.freeBlock_walk (s : State) : s.freeBlock.walk = s.walk := rfl
@[simp] theorem State.freeBlock_canvas (s : State) : s.freeBlock.canvas = s.canvas := rfl
@[simp] theorem State.freeBlock_host (s : State) : s.freeBlock.host = s.host := rfl
@[simp] theorem State.freeBlock_src (s : State) : s.freeBlock.src = s.src := rfl
@[simp] theorem State.freeBlock_maxPlacements (s : State) : s.freeBlock.maxPlacements = s.maxPlacements := rfl
@[simp] theorem State.freeBlock_fresh (s : State) : s.freeBlock.fresh = s.fresh + 1 := rfl

@[simp] theorem State.raise_base (s : State) (k : Raise) : (s.raise k).base = s.base := rfl
@[simp] theorem State.raise_cursor (s : State) (k : Raise) : (s.raise k).cursor = s.cursor := rfl
@[simp] theorem State.raise_result (s : State) (k : Raise) : (s.raise k).result = s.result := rfl
@[simp] theorem State.raise_rvalid (s : State) (k : Raise) : (s.raise k).rvalid = s.rvalid := rfl
@[simp] theorem State.raise_busy (s : State) (k : Raise) : (s.raise k).busy = false := rfl
@[simp] theorem State.raise_err (s : State) (k : Raise) : (s.raise k).err = k.kind := rfl
@[simp] theorem State.raise_einfo (s : State) (k : Raise) : (s.raise k).einfo = k.info := rfl
@[simp] theorem State.raise_ewidth (s : State) (k : Raise) : (s.raise k).ewidth = k.width := rfl
@[simp] theorem State.raise_warn (s : State) (k : Raise) : (s.raise k).warn = s.warn := rfl
@[simp] theorem State.raise_wpal (s : State) (k : Raise) : (s.raise k).wpal = s.wpal := rfl
@[simp] theorem State.raise_pvalid (s : State) (k : Raise) : (s.raise k).pvalid = s.pvalid := rfl
@[simp] theorem State.raise_wtiles (s : State) (k : Raise) : (s.raise k).wtiles = s.wtiles := rfl
@[simp] theorem State.raise_tvalid (s : State) (k : Raise) : (s.raise k).tvalid = s.tvalid := rfl
@[simp] theorem State.raise_wplist (s : State) (k : Raise) : (s.raise k).wplist = s.wplist := rfl
@[simp] theorem State.raise_lvalid (s : State) (k : Raise) : (s.raise k).lvalid = s.lvalid := rfl
@[simp] theorem State.raise_wdelay (s : State) (k : Raise) : (s.raise k).wdelay = s.wdelay := rfl
@[simp] theorem State.raise_wendflag (s : State) (k : Raise) : (s.raise k).wendflag = s.wendflag := rfl
@[simp] theorem State.raise_frames (s : State) (k : Raise) : (s.raise k).frames = s.frames := rfl
@[simp] theorem State.raise_lbuf (s : State) (k : Raise) : (s.raise k).lbuf = s.lbuf := rfl
@[simp] theorem State.raise_lw (s : State) (k : Raise) : (s.raise k).lw = s.lw := rfl
@[simp] theorem State.raise_lh (s : State) (k : Raise) : (s.raise k).lh = s.lh := rfl
@[simp] theorem State.raise_out (s : State) (k : Raise) : (s.raise k).out = s.out := rfl
@[simp] theorem State.raise_outx (s : State) (k : Raise) : (s.raise k).outx = s.outx := rfl
@[simp] theorem State.raise_outy (s : State) (k : Raise) : (s.raise k).outy = s.outy := rfl
@[simp] theorem State.raise_outw (s : State) (k : Raise) : (s.raise k).outw = s.outw := rfl
@[simp] theorem State.raise_outh (s : State) (k : Raise) : (s.raise k).outh = s.outh := rfl
@[simp] theorem State.raise_ovalid (s : State) (k : Raise) : (s.raise k).ovalid = s.ovalid := rfl
@[simp] theorem State.raise_walk (s : State) (k : Raise) : (s.raise k).walk = s.walk := rfl
@[simp] theorem State.raise_canvas (s : State) (k : Raise) : (s.raise k).canvas = s.canvas := rfl
@[simp] theorem State.raise_host (s : State) (k : Raise) : (s.raise k).host = s.host := rfl
@[simp] theorem State.raise_src (s : State) (k : Raise) : (s.raise k).src = s.src := rfl
@[simp] theorem State.raise_maxPlacements (s : State) (k : Raise) : (s.raise k).maxPlacements = s.maxPlacements := rfl
@[simp] theorem State.raise_fresh (s : State) (k : Raise) : (s.raise k).fresh = s.fresh := rfl

@[simp] theorem State.invalidateResult_base (s : State) : s.invalidateResult.base = s.base := rfl
@[simp] theorem State.invalidateResult_cursor (s : State) : s.invalidateResult.cursor = s.cursor := rfl
@[simp] theorem State.invalidateResult_result (s : State) : s.invalidateResult.result = s.result := rfl
@[simp] theorem State.invalidateResult_rvalid (s : State) : s.invalidateResult.rvalid = false := rfl
@[simp] theorem State.invalidateResult_busy (s : State) : s.invalidateResult.busy = s.busy := rfl
@[simp] theorem State.invalidateResult_err (s : State) : s.invalidateResult.err = s.err := rfl
@[simp] theorem State.invalidateResult_einfo (s : State) : s.invalidateResult.einfo = s.einfo := rfl
@[simp] theorem State.invalidateResult_ewidth (s : State) : s.invalidateResult.ewidth = s.ewidth := rfl
@[simp] theorem State.invalidateResult_warn (s : State) : s.invalidateResult.warn = s.warn := rfl
@[simp] theorem State.invalidateResult_wpal (s : State) : s.invalidateResult.wpal = s.wpal := rfl
@[simp] theorem State.invalidateResult_pvalid (s : State) : s.invalidateResult.pvalid = s.pvalid := rfl
@[simp] theorem State.invalidateResult_wtiles (s : State) : s.invalidateResult.wtiles = s.wtiles := rfl
@[simp] theorem State.invalidateResult_tvalid (s : State) : s.invalidateResult.tvalid = s.tvalid := rfl
@[simp] theorem State.invalidateResult_wplist (s : State) : s.invalidateResult.wplist = s.wplist := rfl
@[simp] theorem State.invalidateResult_lvalid (s : State) : s.invalidateResult.lvalid = s.lvalid := rfl
@[simp] theorem State.invalidateResult_wdelay (s : State) : s.invalidateResult.wdelay = s.wdelay := rfl
@[simp] theorem State.invalidateResult_wendflag (s : State) : s.invalidateResult.wendflag = s.wendflag := rfl
@[simp] theorem State.invalidateResult_frames (s : State) : s.invalidateResult.frames = s.frames := rfl
@[simp] theorem State.invalidateResult_lbuf (s : State) : s.invalidateResult.lbuf = s.lbuf := rfl
@[simp] theorem State.invalidateResult_lw (s : State) : s.invalidateResult.lw = s.lw := rfl
@[simp] theorem State.invalidateResult_lh (s : State) : s.invalidateResult.lh = s.lh := rfl
@[simp] theorem State.invalidateResult_out (s : State) : s.invalidateResult.out = s.out := rfl
@[simp] theorem State.invalidateResult_outx (s : State) : s.invalidateResult.outx = s.outx := rfl
@[simp] theorem State.invalidateResult_outy (s : State) : s.invalidateResult.outy = s.outy := rfl
@[simp] theorem State.invalidateResult_outw (s : State) : s.invalidateResult.outw = s.outw := rfl
@[simp] theorem State.invalidateResult_outh (s : State) : s.invalidateResult.outh = s.outh := rfl
@[simp] theorem State.invalidateResult_ovalid (s : State) : s.invalidateResult.ovalid = s.ovalid := rfl
@[simp] theorem State.invalidateResult_walk (s : State) : s.invalidateResult.walk = s.walk := rfl
@[simp] theorem State.invalidateResult_canvas (s : State) : s.invalidateResult.canvas = s.canvas := rfl
@[simp] theorem State.invalidateResult_host (s : State) : s.invalidateResult.host = s.host := rfl
@[simp] theorem State.invalidateResult_src (s : State) : s.invalidateResult.src = s.src := rfl
@[simp] theorem State.invalidateResult_maxPlacements (s : State) : s.invalidateResult.maxPlacements = s.maxPlacements := rfl
@[simp] theorem State.invalidateResult_fresh (s : State) : s.invalidateResult.fresh = s.fresh := rfl

@[simp] theorem State.invalidatePalette_base (s : State) : s.invalidatePalette.base = s.base := rfl
@[simp] theorem State.invalidatePalette_cursor (s : State) : s.invalidatePalette.cursor = s.cursor := rfl
@[simp] theorem State.invalidatePalette_result (s : State) : s.invalidatePalette.result = s.result := rfl
@[simp] theorem State.invalidatePalette_rvalid (s : State) : s.invalidatePalette.rvalid = s.rvalid := rfl
@[simp] theorem State.invalidatePalette_busy (s : State) : s.invalidatePalette.busy = s.busy := rfl
@[simp] theorem State.invalidatePalette_err (s : State) : s.invalidatePalette.err = s.err := rfl
@[simp] theorem State.invalidatePalette_einfo (s : State) : s.invalidatePalette.einfo = s.einfo := rfl
@[simp] theorem State.invalidatePalette_ewidth (s : State) : s.invalidatePalette.ewidth = s.ewidth := rfl
@[simp] theorem State.invalidatePalette_warn (s : State) : s.invalidatePalette.warn = s.warn := rfl
@[simp] theorem State.invalidatePalette_wpal (s : State) : s.invalidatePalette.wpal = freePalette s.fresh := rfl
@[simp] theorem State.invalidatePalette_pvalid (s : State) : s.invalidatePalette.pvalid = false := rfl
@[simp] theorem State.invalidatePalette_wtiles (s : State) : s.invalidatePalette.wtiles = s.wtiles := rfl
@[simp] theorem State.invalidatePalette_tvalid (s : State) : s.invalidatePalette.tvalid = s.tvalid := rfl
@[simp] theorem State.invalidatePalette_wplist (s : State) : s.invalidatePalette.wplist = s.wplist := rfl
@[simp] theorem State.invalidatePalette_lvalid (s : State) : s.invalidatePalette.lvalid = s.lvalid := rfl
@[simp] theorem State.invalidatePalette_wdelay (s : State) : s.invalidatePalette.wdelay = s.wdelay := rfl
@[simp] theorem State.invalidatePalette_wendflag (s : State) : s.invalidatePalette.wendflag = s.wendflag := rfl
@[simp] theorem State.invalidatePalette_frames (s : State) : s.invalidatePalette.frames = s.frames := rfl
@[simp] theorem State.invalidatePalette_lbuf (s : State) : s.invalidatePalette.lbuf = s.lbuf := rfl
@[simp] theorem State.invalidatePalette_lw (s : State) : s.invalidatePalette.lw = s.lw := rfl
@[simp] theorem State.invalidatePalette_lh (s : State) : s.invalidatePalette.lh = s.lh := rfl
@[simp] theorem State.invalidatePalette_out (s : State) : s.invalidatePalette.out = s.out := rfl
@[simp] theorem State.invalidatePalette_outx (s : State) : s.invalidatePalette.outx = s.outx := rfl
@[simp] theorem State.invalidatePalette_outy (s : State) : s.invalidatePalette.outy = s.outy := rfl
@[simp] theorem State.invalidatePalette_outw (s : State) : s.invalidatePalette.outw = s.outw := rfl
@[simp] theorem State.invalidatePalette_outh (s : State) : s.invalidatePalette.outh = s.outh := rfl
@[simp] theorem State.invalidatePalette_ovalid (s : State) : s.invalidatePalette.ovalid = s.ovalid := rfl
@[simp] theorem State.invalidatePalette_walk (s : State) : s.invalidatePalette.walk = s.walk := rfl
@[simp] theorem State.invalidatePalette_canvas (s : State) : s.invalidatePalette.canvas = s.canvas := rfl
@[simp] theorem State.invalidatePalette_host (s : State) : s.invalidatePalette.host = s.host := rfl
@[simp] theorem State.invalidatePalette_src (s : State) : s.invalidatePalette.src = s.src := rfl
@[simp] theorem State.invalidatePalette_maxPlacements (s : State) : s.invalidatePalette.maxPlacements = s.maxPlacements := rfl
@[simp] theorem State.invalidatePalette_fresh (s : State) : s.invalidatePalette.fresh = s.fresh + 1 := rfl

@[simp] theorem State.invalidateTiles_base (s : State) : s.invalidateTiles.base = s.base := rfl
@[simp] theorem State.invalidateTiles_cursor (s : State) : s.invalidateTiles.cursor = s.cursor := rfl
@[simp] theorem State.invalidateTiles_result (s : State) : s.invalidateTiles.result = s.result := rfl
@[simp] theorem State.invalidateTiles_rvalid (s : State) : s.invalidateTiles.rvalid = s.rvalid := rfl
@[simp] theorem State.invalidateTiles_busy (s : State) : s.invalidateTiles.busy = s.busy := rfl
@[simp] theorem State.invalidateTiles_err (s : State) : s.invalidateTiles.err = s.err := rfl
@[simp] theorem State.invalidateTiles_einfo (s : State) : s.invalidateTiles.einfo = s.einfo := rfl
@[simp] theorem State.invalidateTiles_ewidth (s : State) : s.invalidateTiles.ewidth = s.ewidth := rfl
@[simp] theorem State.invalidateTiles_warn (s : State) : s.invalidateTiles.warn = s.warn := rfl
@[simp] theorem State.invalidateTiles_wpal (s : State) : s.invalidateTiles.wpal = s.wpal := rfl
@[simp] theorem State.invalidateTiles_pvalid (s : State) : s.invalidateTiles.pvalid = s.pvalid := rfl
@[simp] theorem State.invalidateTiles_wtiles (s : State) : s.invalidateTiles.wtiles = freeTiles s.src s.fresh := rfl
@[simp] theorem State.invalidateTiles_tvalid (s : State) : s.invalidateTiles.tvalid = false := rfl
@[simp] theorem State.invalidateTiles_wplist (s : State) : s.invalidateTiles.wplist = s.wplist := rfl
@[simp] theorem State.invalidateTiles_lvalid (s : State) : s.invalidateTiles.lvalid = s.lvalid := rfl
@[simp] theorem State.invalidateTiles_wdelay (s : State) : s.invalidateTiles.wdelay = s.wdelay := rfl
@[simp] theorem State.invalidateTiles_wendflag (s : State) : s.invalidateTiles.wendflag = s.wendflag := rfl
@[simp] theorem State.invalidateTiles_frames (s : State) : s.invalidateTiles.frames = s.frames := rfl
@[simp] theorem State.invalidateTiles_lbuf (s : State) : s.invalidateTiles.lbuf = s.lbuf := rfl
@[simp] theorem State.invalidateTiles_lw (s : State) : s.invalidateTiles.lw = s.lw := rfl
@[simp] theorem State.invalidateTiles_lh (s : State) : s.invalidateTiles.lh = s.lh := rfl
@[simp] theorem State.invalidateTiles_out (s : State) : s.invalidateTiles.out = s.out := rfl
@[simp] theorem State.invalidateTiles_outx (s : State) : s.invalidateTiles.outx = s.outx := rfl
@[simp] theorem State.invalidateTiles_outy (s : State) : s.invalidateTiles.outy = s.outy := rfl
@[simp] theorem State.invalidateTiles_outw (s : State) : s.invalidateTiles.outw = s.outw := rfl
@[simp] theorem State.invalidateTiles_outh (s : State) : s.invalidateTiles.outh = s.outh := rfl
@[simp] theorem State.invalidateTiles_ovalid (s : State) : s.invalidateTiles.ovalid = s.ovalid := rfl
@[simp] theorem State.invalidateTiles_walk (s : State) : s.invalidateTiles.walk = s.walk := rfl
@[simp] theorem State.invalidateTiles_canvas (s : State) : s.invalidateTiles.canvas = s.canvas := rfl
@[simp] theorem State.invalidateTiles_host (s : State) : s.invalidateTiles.host = s.host := rfl
@[simp] theorem State.invalidateTiles_src (s : State) : s.invalidateTiles.src = s.src := rfl
@[simp] theorem State.invalidateTiles_maxPlacements (s : State) : s.invalidateTiles.maxPlacements = s.maxPlacements := rfl
@[simp] theorem State.invalidateTiles_fresh (s : State) : s.invalidateTiles.fresh = s.fresh + 1 := rfl

@[simp] theorem State.invalidatePlacements_base (s : State) : s.invalidatePlacements.base = s.base := rfl
@[simp] theorem State.invalidatePlacements_cursor (s : State) : s.invalidatePlacements.cursor = s.cursor := rfl
@[simp] theorem State.invalidatePlacements_result (s : State) : s.invalidatePlacements.result = s.result := rfl
@[simp] theorem State.invalidatePlacements_rvalid (s : State) : s.invalidatePlacements.rvalid = s.rvalid := rfl
@[simp] theorem State.invalidatePlacements_busy (s : State) : s.invalidatePlacements.busy = s.busy := rfl
@[simp] theorem State.invalidatePlacements_err (s : State) : s.invalidatePlacements.err = s.err := rfl
@[simp] theorem State.invalidatePlacements_einfo (s : State) : s.invalidatePlacements.einfo = s.einfo := rfl
@[simp] theorem State.invalidatePlacements_ewidth (s : State) : s.invalidatePlacements.ewidth = s.ewidth := rfl
@[simp] theorem State.invalidatePlacements_warn (s : State) : s.invalidatePlacements.warn = s.warn := rfl
@[simp] theorem State.invalidatePlacements_wpal (s : State) : s.invalidatePlacements.wpal = s.wpal := rfl
@[simp] theorem State.invalidatePlacements_pvalid (s : State) : s.invalidatePlacements.pvalid = s.pvalid := rfl
@[simp] theorem State.invalidatePlacements_wtiles (s : State) : s.invalidatePlacements.wtiles = s.wtiles := rfl
@[simp] theorem State.invalidatePlacements_tvalid (s : State) : s.invalidatePlacements.tvalid = s.tvalid := rfl
@[simp] theorem State.invalidatePlacements_wplist (s : State) : s.invalidatePlacements.wplist = freePlacements s.maxPlacements s.fresh := rfl
@[simp] theorem State.invalidatePlacements_lvalid (s : State) : s.invalidatePlacements.lvalid = false := rfl
@[simp] theorem State.invalidatePlacements_wdelay (s : State) : s.invalidatePlacements.wdelay = s.wdelay := rfl
@[simp] theorem State.invalidatePlacements_wendflag (s : State) : s.invalidatePlacements.wendflag = s.wendflag := rfl
@[simp] theorem State.invalidatePlacements_frames (s : State) : s.invalidatePlacements.frames = s.frames := rfl
@[simp] theorem State.invalidatePlacements_lbuf (s : State) : s.invalidatePlacements.lbuf = s.lbuf := rfl
@[simp] theorem State.invalidatePlacements_lw (s : State) : s.invalidatePlacements.lw = s.lw := rfl
@[simp] theorem State.invalidatePlacements_lh (s : State) : s.invalidatePlacements.lh = s.lh := rfl
@[simp] theorem State.invalidatePlacements_out (s : State) : s.invalidatePlacements.out = s.out := rfl
@[simp] theorem State.invalidatePlacements_outx (s : State) : s.invalidatePlacements.outx = s.outx := rfl
@[simp] theorem State.invalidatePlacements_outy (s : State) : s.invalidatePlacements.outy = s.outy := rfl
@[simp] theorem State.invalidatePlacements_outw (s : State) : s.invalidatePlacements.outw = s.outw := rfl
@[simp] theorem State.invalidatePlacements_outh (s : State) : s.invalidatePlacements.outh = s.outh := rfl
@[simp] theorem State.invalidatePlacements_ovalid (s : State) : s.invalidatePlacements.ovalid = s.ovalid := rfl
@[simp] theorem State.invalidatePlacements_walk (s : State) : s.invalidatePlacements.walk = [] := rfl
@[simp] theorem State.invalidatePlacements_canvas (s : State) : s.invalidatePlacements.canvas = s.canvas := rfl
@[simp] theorem State.invalidatePlacements_host (s : State) : s.invalidatePlacements.host = s.host := rfl
@[simp] theorem State.invalidatePlacements_src (s : State) : s.invalidatePlacements.src = s.src := rfl
@[simp] theorem State.invalidatePlacements_maxPlacements (s : State) : s.invalidatePlacements.maxPlacements = s.maxPlacements := rfl
@[simp] theorem State.invalidatePlacements_fresh (s : State) : s.invalidatePlacements.fresh = s.fresh + 1 := rfl

@[simp] theorem State.invalidateAsset_base (s : State) : s.invalidateAsset.base = s.base := rfl
@[simp] theorem State.invalidateAsset_cursor (s : State) : s.invalidateAsset.cursor = s.cursor := rfl
@[simp] theorem State.invalidateAsset_result (s : State) : s.invalidateAsset.result = s.result := rfl
@[simp] theorem State.invalidateAsset_rvalid (s : State) : s.invalidateAsset.rvalid = s.rvalid := rfl
@[simp] theorem State.invalidateAsset_busy (s : State) : s.invalidateAsset.busy = s.busy := rfl
@[simp] theorem State.invalidateAsset_err (s : State) : s.invalidateAsset.err = s.err := rfl
@[simp] theorem State.invalidateAsset_einfo (s : State) : s.invalidateAsset.einfo = s.einfo := rfl
@[simp] theorem State.invalidateAsset_ewidth (s : State) : s.invalidateAsset.ewidth = s.ewidth := rfl
@[simp] theorem State.invalidateAsset_warn (s : State) : s.invalidateAsset.warn = s.warn := rfl
@[simp] theorem State.invalidateAsset_wpal (s : State) : s.invalidateAsset.wpal = freePalette s.fresh := rfl
@[simp] theorem State.invalidateAsset_pvalid (s : State) : s.invalidateAsset.pvalid = false := rfl
@[simp] theorem State.invalidateAsset_wtiles (s : State) : s.invalidateAsset.wtiles = freeTiles s.src s.fresh := rfl
@[simp] theorem State.invalidateAsset_tvalid (s : State) : s.invalidateAsset.tvalid = false := rfl
@[simp] theorem State.invalidateAsset_wplist (s : State) : s.invalidateAsset.wplist = freePlacements s.maxPlacements s.fresh := rfl
@[simp] theorem State.invalidateAsset_lvalid (s : State) : s.invalidateAsset.lvalid = false := rfl
@[simp] theorem State.invalidateAsset_wdelay (s : State) : s.invalidateAsset.wdelay = Config.freeByte s.fresh 0 := rfl
@[simp] theorem State.invalidateAsset_wendflag (s : State) : s.invalidateAsset.wendflag = Config.freeByte s.fresh 1 := rfl
@[simp] theorem State.invalidateAsset_frames (s : State) : s.invalidateAsset.frames = [] := rfl
@[simp] theorem State.invalidateAsset_lbuf (s : State) : s.invalidateAsset.lbuf = s.lbuf := rfl
@[simp] theorem State.invalidateAsset_lw (s : State) : s.invalidateAsset.lw = s.lw := rfl
@[simp] theorem State.invalidateAsset_lh (s : State) : s.invalidateAsset.lh = s.lh := rfl
@[simp] theorem State.invalidateAsset_out (s : State) : s.invalidateAsset.out = s.out := rfl
@[simp] theorem State.invalidateAsset_outx (s : State) : s.invalidateAsset.outx = s.outx := rfl
@[simp] theorem State.invalidateAsset_outy (s : State) : s.invalidateAsset.outy = s.outy := rfl
@[simp] theorem State.invalidateAsset_outw (s : State) : s.invalidateAsset.outw = s.outw := rfl
@[simp] theorem State.invalidateAsset_outh (s : State) : s.invalidateAsset.outh = s.outh := rfl
@[simp] theorem State.invalidateAsset_ovalid (s : State) : s.invalidateAsset.ovalid = s.ovalid := rfl
@[simp] theorem State.invalidateAsset_walk (s : State) : s.invalidateAsset.walk = s.walk := rfl
@[simp] theorem State.invalidateAsset_canvas (s : State) : s.invalidateAsset.canvas = s.canvas := rfl
@[simp] theorem State.invalidateAsset_host (s : State) : s.invalidateAsset.host = s.host := rfl
@[simp] theorem State.invalidateAsset_src (s : State) : s.invalidateAsset.src = s.src := rfl
@[simp] theorem State.invalidateAsset_maxPlacements (s : State) : s.invalidateAsset.maxPlacements = s.maxPlacements := rfl
@[simp] theorem State.invalidateAsset_fresh (s : State) : s.invalidateAsset.fresh = s.fresh + 1 := rfl

@[simp] theorem State.invalidateBlock_base (s : State) : s.invalidateBlock.base = s.base := rfl
@[simp] theorem State.invalidateBlock_cursor (s : State) : s.invalidateBlock.cursor = s.cursor := rfl
@[simp] theorem State.invalidateBlock_result (s : State) : s.invalidateBlock.result = s.result := rfl
@[simp] theorem State.invalidateBlock_rvalid (s : State) : s.invalidateBlock.rvalid = s.rvalid := rfl
@[simp] theorem State.invalidateBlock_busy (s : State) : s.invalidateBlock.busy = s.busy := rfl
@[simp] theorem State.invalidateBlock_err (s : State) : s.invalidateBlock.err = s.err := rfl
@[simp] theorem State.invalidateBlock_einfo (s : State) : s.invalidateBlock.einfo = s.einfo := rfl
@[simp] theorem State.invalidateBlock_ewidth (s : State) : s.invalidateBlock.ewidth = s.ewidth := rfl
@[simp] theorem State.invalidateBlock_warn (s : State) : s.invalidateBlock.warn = s.warn := rfl
@[simp] theorem State.invalidateBlock_wpal (s : State) : s.invalidateBlock.wpal = s.wpal := rfl
@[simp] theorem State.invalidateBlock_pvalid (s : State) : s.invalidateBlock.pvalid = s.pvalid := rfl
@[simp] theorem State.invalidateBlock_wtiles (s : State) : s.invalidateBlock.wtiles = s.wtiles := rfl
@[simp] theorem State.invalidateBlock_tvalid (s : State) : s.invalidateBlock.tvalid = s.tvalid := rfl
@[simp] theorem State.invalidateBlock_wplist (s : State) : s.invalidateBlock.wplist = s.wplist := rfl
@[simp] theorem State.invalidateBlock_lvalid (s : State) : s.invalidateBlock.lvalid = s.lvalid := rfl
@[simp] theorem State.invalidateBlock_wdelay (s : State) : s.invalidateBlock.wdelay = s.wdelay := rfl
@[simp] theorem State.invalidateBlock_wendflag (s : State) : s.invalidateBlock.wendflag = s.wendflag := rfl
@[simp] theorem State.invalidateBlock_frames (s : State) : s.invalidateBlock.frames = s.frames := rfl
@[simp] theorem State.invalidateBlock_lbuf (s : State) : s.invalidateBlock.lbuf = freeLocalBuffer s.fresh := rfl
@[simp] theorem State.invalidateBlock_lw (s : State) : s.invalidateBlock.lw = Config.freeCount s.fresh 0 := rfl
@[simp] theorem State.invalidateBlock_lh (s : State) : s.invalidateBlock.lh = Config.freeCount s.fresh 1 := rfl
@[simp] theorem State.invalidateBlock_out (s : State) : s.invalidateBlock.out = freeOut s.fresh := rfl
@[simp] theorem State.invalidateBlock_outx (s : State) : s.invalidateBlock.outx = Config.freeByte s.fresh 0 := rfl
@[simp] theorem State.invalidateBlock_outy (s : State) : s.invalidateBlock.outy = Config.freeByte s.fresh 1 := rfl
@[simp] theorem State.invalidateBlock_outw (s : State) : s.invalidateBlock.outw = (Config.freeByte s.fresh 2).truncate 7 := rfl
@[simp] theorem State.invalidateBlock_outh (s : State) : s.invalidateBlock.outh = (Config.freeByte s.fresh 3).truncate 7 := rfl
@[simp] theorem State.invalidateBlock_ovalid (s : State) : s.invalidateBlock.ovalid = false := rfl
@[simp] theorem State.invalidateBlock_walk (s : State) : s.invalidateBlock.walk = s.walk := rfl
@[simp] theorem State.invalidateBlock_canvas (s : State) : s.invalidateBlock.canvas = s.canvas := rfl
@[simp] theorem State.invalidateBlock_host (s : State) : s.invalidateBlock.host = s.host := rfl
@[simp] theorem State.invalidateBlock_src (s : State) : s.invalidateBlock.src = s.src := rfl
@[simp] theorem State.invalidateBlock_maxPlacements (s : State) : s.invalidateBlock.maxPlacements = s.maxPlacements := rfl
@[simp] theorem State.invalidateBlock_fresh (s : State) : s.invalidateBlock.fresh = s.fresh + 1 := rfl

@[simp] theorem State.beginAsset_base (s : State) : s.beginAsset.base = s.base := rfl
@[simp] theorem State.beginAsset_cursor (s : State) : s.beginAsset.cursor = s.cursor := rfl
@[simp] theorem State.beginAsset_result (s : State) : s.beginAsset.result = s.result := rfl
@[simp] theorem State.beginAsset_rvalid (s : State) : s.beginAsset.rvalid = s.rvalid := rfl
@[simp] theorem State.beginAsset_busy (s : State) : s.beginAsset.busy = s.busy := rfl
@[simp] theorem State.beginAsset_err (s : State) : s.beginAsset.err = s.err := rfl
@[simp] theorem State.beginAsset_einfo (s : State) : s.beginAsset.einfo = s.einfo := rfl
@[simp] theorem State.beginAsset_ewidth (s : State) : s.beginAsset.ewidth = s.ewidth := rfl
@[simp] theorem State.beginAsset_warn (s : State) : s.beginAsset.warn = s.warn := rfl
@[simp] theorem State.beginAsset_wpal (s : State) : s.beginAsset.wpal = s.wpal := rfl
@[simp] theorem State.beginAsset_pvalid (s : State) : s.beginAsset.pvalid = false := rfl
@[simp] theorem State.beginAsset_wtiles (s : State) : s.beginAsset.wtiles = s.wtiles := rfl
@[simp] theorem State.beginAsset_tvalid (s : State) : s.beginAsset.tvalid = false := rfl
@[simp] theorem State.beginAsset_wplist (s : State) : s.beginAsset.wplist = s.wplist := rfl
@[simp] theorem State.beginAsset_lvalid (s : State) : s.beginAsset.lvalid = false := rfl
@[simp] theorem State.beginAsset_wdelay (s : State) : s.beginAsset.wdelay = s.wdelay := rfl
@[simp] theorem State.beginAsset_wendflag (s : State) : s.beginAsset.wendflag = s.wendflag := rfl
@[simp] theorem State.beginAsset_frames (s : State) : s.beginAsset.frames = [] := rfl
@[simp] theorem State.beginAsset_lbuf (s : State) : s.beginAsset.lbuf = s.lbuf := rfl
@[simp] theorem State.beginAsset_lw (s : State) : s.beginAsset.lw = s.lw := rfl
@[simp] theorem State.beginAsset_lh (s : State) : s.beginAsset.lh = s.lh := rfl
@[simp] theorem State.beginAsset_out (s : State) : s.beginAsset.out = s.out := rfl
@[simp] theorem State.beginAsset_outx (s : State) : s.beginAsset.outx = s.outx := rfl
@[simp] theorem State.beginAsset_outy (s : State) : s.beginAsset.outy = s.outy := rfl
@[simp] theorem State.beginAsset_outw (s : State) : s.beginAsset.outw = s.outw := rfl
@[simp] theorem State.beginAsset_outh (s : State) : s.beginAsset.outh = s.outh := rfl
@[simp] theorem State.beginAsset_ovalid (s : State) : s.beginAsset.ovalid = s.ovalid := rfl
@[simp] theorem State.beginAsset_walk (s : State) : s.beginAsset.walk = s.walk := rfl
@[simp] theorem State.beginAsset_canvas (s : State) : s.beginAsset.canvas = s.canvas := rfl
@[simp] theorem State.beginAsset_host (s : State) : s.beginAsset.host = s.host := rfl
@[simp] theorem State.beginAsset_src (s : State) : s.beginAsset.src = s.src := rfl
@[simp] theorem State.beginAsset_maxPlacements (s : State) : s.beginAsset.maxPlacements = s.maxPlacements := rfl
@[simp] theorem State.beginAsset_fresh (s : State) : s.beginAsset.fresh = s.fresh := rfl

@[simp] theorem State.takeReset_base (s : State) : s.takeReset.base = 0 := rfl
@[simp] theorem State.takeReset_cursor (s : State) : s.takeReset.cursor = 0 := rfl
@[simp] theorem State.takeReset_result (s : State) : s.takeReset.result = Config.freeWord s.fresh := rfl
@[simp] theorem State.takeReset_rvalid (s : State) : s.takeReset.rvalid = false := rfl
@[simp] theorem State.takeReset_busy (s : State) : s.takeReset.busy = false := rfl
@[simp] theorem State.takeReset_err (s : State) : s.takeReset.err = .noFault := rfl
@[simp] theorem State.takeReset_einfo (s : State) : s.takeReset.einfo = 0 := rfl
@[simp] theorem State.takeReset_ewidth (s : State) : s.takeReset.ewidth = 0 := rfl
@[simp] theorem State.takeReset_warn (s : State) : s.takeReset.warn = false := rfl
@[simp] theorem State.takeReset_wpal (s : State) : s.takeReset.wpal = freePalette s.fresh := rfl
@[simp] theorem State.takeReset_pvalid (s : State) : s.takeReset.pvalid = false := rfl
@[simp] theorem State.takeReset_wtiles (s : State) : s.takeReset.wtiles = [] := rfl
@[simp] theorem State.takeReset_tvalid (s : State) : s.takeReset.tvalid = false := rfl
@[simp] theorem State.takeReset_wplist (s : State) : s.takeReset.wplist = [] := rfl
@[simp] theorem State.takeReset_lvalid (s : State) : s.takeReset.lvalid = false := rfl
@[simp] theorem State.takeReset_wdelay (s : State) : s.takeReset.wdelay = Config.freeByte s.fresh 4 := rfl
@[simp] theorem State.takeReset_wendflag (s : State) : s.takeReset.wendflag = Config.freeByte s.fresh 5 := rfl
@[simp] theorem State.takeReset_frames (s : State) : s.takeReset.frames = [] := rfl
@[simp] theorem State.takeReset_lbuf (s : State) : s.takeReset.lbuf = freeLocalBuffer s.fresh := rfl
@[simp] theorem State.takeReset_lw (s : State) : s.takeReset.lw = Config.freeCount s.fresh 0 := rfl
@[simp] theorem State.takeReset_lh (s : State) : s.takeReset.lh = Config.freeCount s.fresh 1 := rfl
@[simp] theorem State.takeReset_out (s : State) : s.takeReset.out = freeOut s.fresh := rfl
@[simp] theorem State.takeReset_outx (s : State) : s.takeReset.outx = Config.freeByte s.fresh 0 := rfl
@[simp] theorem State.takeReset_outy (s : State) : s.takeReset.outy = Config.freeByte s.fresh 1 := rfl
@[simp] theorem State.takeReset_outw (s : State) : s.takeReset.outw = (Config.freeByte s.fresh 2).truncate 7 := rfl
@[simp] theorem State.takeReset_outh (s : State) : s.takeReset.outh = (Config.freeByte s.fresh 3).truncate 7 := rfl
@[simp] theorem State.takeReset_ovalid (s : State) : s.takeReset.ovalid = false := rfl
@[simp] theorem State.takeReset_walk (s : State) : s.takeReset.walk = [] := rfl
@[simp] theorem State.takeReset_canvas (s : State) : s.takeReset.canvas = s.canvas := rfl
@[simp] theorem State.takeReset_host (s : State) : s.takeReset.host = s.host := rfl
@[simp] theorem State.takeReset_src (s : State) : s.takeReset.src = s.src := rfl
@[simp] theorem State.takeReset_maxPlacements (s : State) : s.takeReset.maxPlacements = s.maxPlacements := rfl
@[simp] theorem State.takeReset_fresh (s : State) : s.takeReset.fresh = s.fresh + 1 := rfl

@[simp] theorem State.storeBlock_base (s : State) (p : Placement) (tiles : List Tile) : (s.storeBlock p tiles).base = s.base := rfl
@[simp] theorem State.storeBlock_cursor (s : State) (p : Placement) (tiles : List Tile) : (s.storeBlock p tiles).cursor = s.cursor := rfl
@[simp] theorem State.storeBlock_result (s : State) (p : Placement) (tiles : List Tile) : (s.storeBlock p tiles).result = s.result := rfl
@[simp] theorem State.storeBlock_rvalid (s : State) (p : Placement) (tiles : List Tile) : (s.storeBlock p tiles).rvalid = s.rvalid := rfl
@[simp] theorem State.storeBlock_busy (s : State) (p : Placement) (tiles : List Tile) : (s.storeBlock p tiles).busy = s.busy := rfl
@[simp] theorem State.storeBlock_err (s : State) (p : Placement) (tiles : List Tile) : (s.storeBlock p tiles).err = s.err := rfl
@[simp] theorem State.storeBlock_einfo (s : State) (p : Placement) (tiles : List Tile) : (s.storeBlock p tiles).einfo = s.einfo := rfl
@[simp] theorem State.storeBlock_ewidth (s : State) (p : Placement) (tiles : List Tile) : (s.storeBlock p tiles).ewidth = s.ewidth := rfl
@[simp] theorem State.storeBlock_warn (s : State) (p : Placement) (tiles : List Tile) : (s.storeBlock p tiles).warn = s.warn := rfl
@[simp] theorem State.storeBlock_wpal (s : State) (p : Placement) (tiles : List Tile) : (s.storeBlock p tiles).wpal = s.wpal := rfl
@[simp] theorem State.storeBlock_pvalid (s : State) (p : Placement) (tiles : List Tile) : (s.storeBlock p tiles).pvalid = s.pvalid := rfl
@[simp] theorem State.storeBlock_wtiles (s : State) (p : Placement) (tiles : List Tile) : (s.storeBlock p tiles).wtiles = s.wtiles := rfl
@[simp] theorem State.storeBlock_tvalid (s : State) (p : Placement) (tiles : List Tile) : (s.storeBlock p tiles).tvalid = s.tvalid := rfl
@[simp] theorem State.storeBlock_wplist (s : State) (p : Placement) (tiles : List Tile) : (s.storeBlock p tiles).wplist = s.wplist := rfl
@[simp] theorem State.storeBlock_lvalid (s : State) (p : Placement) (tiles : List Tile) : (s.storeBlock p tiles).lvalid = s.lvalid := rfl
@[simp] theorem State.storeBlock_wdelay (s : State) (p : Placement) (tiles : List Tile) : (s.storeBlock p tiles).wdelay = s.wdelay := rfl
@[simp] theorem State.storeBlock_wendflag (s : State) (p : Placement) (tiles : List Tile) : (s.storeBlock p tiles).wendflag = s.wendflag := rfl
@[simp] theorem State.storeBlock_frames (s : State) (p : Placement) (tiles : List Tile) : (s.storeBlock p tiles).frames = s.frames := rfl
@[simp] theorem State.storeBlock_lbuf (s : State) (p : Placement) (tiles : List Tile) : (s.storeBlock p tiles).lbuf = p.buffer tiles := rfl
@[simp] theorem State.storeBlock_lw (s : State) (p : Placement) (tiles : List Tile) : (s.storeBlock p tiles).lw = p.w := rfl
@[simp] theorem State.storeBlock_lh (s : State) (p : Placement) (tiles : List Tile) : (s.storeBlock p tiles).lh = p.h := rfl
@[simp] theorem State.storeBlock_out (s : State) (p : Placement) (tiles : List Tile) : (s.storeBlock p tiles).out = resolveBuffer s.wpal (p.buffer tiles) := rfl
@[simp] theorem State.storeBlock_outx (s : State) (p : Placement) (tiles : List Tile) : (s.storeBlock p tiles).outx = xformByte p.offsetX := rfl
@[simp] theorem State.storeBlock_outy (s : State) (p : Placement) (tiles : List Tile) : (s.storeBlock p tiles).outy = xformByte p.offsetY := rfl
@[simp] theorem State.storeBlock_outw (s : State) (p : Placement) (tiles : List Tile) : (s.storeBlock p tiles).outw = BitVec.ofNat 7 (consts.tileDim * p.w) := rfl
@[simp] theorem State.storeBlock_outh (s : State) (p : Placement) (tiles : List Tile) : (s.storeBlock p tiles).outh = BitVec.ofNat 7 (consts.tileDim * p.h) := rfl
@[simp] theorem State.storeBlock_ovalid (s : State) (p : Placement) (tiles : List Tile) : (s.storeBlock p tiles).ovalid = true := rfl
@[simp] theorem State.storeBlock_walk (s : State) (p : Placement) (tiles : List Tile) : (s.storeBlock p tiles).walk = s.walk := rfl
@[simp] theorem State.storeBlock_canvas (s : State) (p : Placement) (tiles : List Tile) : (s.storeBlock p tiles).canvas = s.canvas := rfl
@[simp] theorem State.storeBlock_host (s : State) (p : Placement) (tiles : List Tile) : (s.storeBlock p tiles).host = s.host := rfl
@[simp] theorem State.storeBlock_src (s : State) (p : Placement) (tiles : List Tile) : (s.storeBlock p tiles).src = s.src := rfl
@[simp] theorem State.storeBlock_maxPlacements (s : State) (p : Placement) (tiles : List Tile) : (s.storeBlock p tiles).maxPlacements = s.maxPlacements := rfl
@[simp] theorem State.storeBlock_fresh (s : State) (p : Placement) (tiles : List Tile) : (s.storeBlock p tiles).fresh = s.fresh := rfl

end Sys2Proof.Machine
end

