-- ==== Sys2Proof/Laws/Decoder.lean ====
section
/-! SUPPORT. What the decoders' building blocks do: sequencing, the byte-order facts, and one lemma for a read that lies
below `LEN` and one for a read that does not (20_memory.md R53 to R55; 40_reader.md R101 to R106). -/

namespace Sys2Proof.Machine

open Layout

/-! ### Sequencing -/

@[simp] theorem Decoder.pure_apply {α : Type} (a : α) (d : DecodeState) : (pure a : Decoder α) d = .ok a d := rfl

theorem Decoder.bind_apply {α β : Type} (m : Decoder α) (f : α → Decoder β) (d : DecodeState) :
    (m >>= f) d = match m d with
      | .ok a d' => f a d'
      | .error k d' => .error k d' := by
  show EStateM.bind m f d = _
  unfold EStateM.bind
  cases m d <;> rfl

theorem Decoder.bind_of_ok {α β : Type} {m : Decoder α} {f : α → Decoder β} {d d' : DecodeState} {a : α}
    (h : m d = .ok a d') : (m >>= f) d = f a d' := by
  rw [Decoder.bind_apply, h]

theorem Decoder.bind_of_error {α β : Type} {m : Decoder α} {f : α → Decoder β} {d d' : DecodeState} {k : Raise}
    (h : m d = .error k d') : (m >>= f) d = .error k d' := by
  rw [Decoder.bind_apply, h]

/-- A sequence completes exactly when both parts do. -/
theorem Decoder.bind_eq_ok {α β : Type} {m : Decoder α} {f : α → Decoder β} {d d' : DecodeState} {b : β} :
    (m >>= f) d = .ok b d' ↔ ∃ a d₁, m d = .ok a d₁ ∧ f a d₁ = .ok b d' := by
  rw [Decoder.bind_apply]
  cases m d <;> simp

/-- A sequence faults exactly when the first part does, or the second does after the first completed. -/
theorem Decoder.bind_eq_error {α β : Type} {m : Decoder α} {f : α → Decoder β} {d d' : DecodeState} {k : Raise} :
    (m >>= f) d = .error k d' ↔ m d = .error k d' ∨ ∃ a d₁, m d = .ok a d₁ ∧ f a d₁ = .error k d' := by
  rw [Decoder.bind_apply]
  cases m d <;> simp

@[simp] theorem Decoder.fail_apply {α : Type} (k : Raise) (d : DecodeState) :
    (Decoder.fail k : Decoder α) d = .error k d := rfl

@[simp] theorem rebase_apply (b c : Nat) (d : DecodeState) : rebase b c d = .ok () { d with base := b, cursor := c } :=
  rfl

@[simp] theorem seek_apply (c : Nat) (d : DecodeState) : seek c d = .ok () { d with cursor := c } := rfl

@[simp] theorem advance_apply (n : Nat) (d : DecodeState) :
    advance n d = .ok () { d with cursor := d.cursor + n } := rfl

@[simp] theorem setWarn_apply (d : DecodeState) : setWarn d = .ok () { d with warn := true } := rfl

@[simp] theorem readerAddress_apply (d : DecodeState) : readerAddress d = .ok d.ea d := rfl

/-- The Reader `n` bytes on. -/
def DecodeState.forward (d : DecodeState) (n : Nat) : DecodeState := { d with cursor := d.cursor + n }

@[simp] theorem forward_base (d : DecodeState) (n : Nat) : (d.forward n).base = d.base := rfl
@[simp] theorem forward_cursor (d : DecodeState) (n : Nat) : (d.forward n).cursor = d.cursor + n := rfl
@[simp] theorem forward_warn (d : DecodeState) (n : Nat) : (d.forward n).warn = d.warn := rfl

@[simp] theorem forward_ea (d : DecodeState) (n : Nat) : (d.forward n).ea = d.ea + n := by
  simp [DecodeState.ea, Nat.add_assoc]

@[simp] theorem forward_zero (d : DecodeState) : d.forward 0 = d := rfl

theorem forward_forward (d : DecodeState) (m n : Nat) : (d.forward m).forward n = d.forward (m + n) := by
  simp [DecodeState.forward, Nat.add_assoc]

/-! ### Byte order -/

theorem byteNat_lt (src : ByteSource) (a : Nat) : byteNat src a < 256 := (src.byte a).isLt

theorem half_lt (src : ByteSource) (a : Nat) : half src a < 65536 := by
  have := byteNat_lt src a
  have := byteNat_lt src (a + 1)
  unfold half
  omega

theorem word_lt (src : ByteSource) (a : Nat) : word src a < 2 ^ 32 := by
  have := half_lt src a
  have := half_lt src (a + 2)
  unfold word
  omega

theorem le_one (src : ByteSource) (a : Nat) : src.le a 1 = byteNat src a := by
  simp [ByteSource.le, byteNat]

theorem le_two (src : ByteSource) (a : Nat) : src.le a 2 = half src a := by
  simp [ByteSource.le, byteNat, half]

theorem le_four (src : ByteSource) (a : Nat) : src.le a 4 = word src a := by
  simp [ByteSource.le, byteNat, word, half, Nat.add_assoc]
  omega

/-- The little-endian number of `n` bytes is below `256^n` (R53). -/
theorem le_lt (src : ByteSource) (a n : Nat) : src.le a n < 256 ^ n := by
  induction n generalizing a with
  | zero => simp [ByteSource.le]
  | succ n ih =>
    have := (src.byte a).isLt
    have := ih (a + 1)
    rw [ByteSource.le, Nat.pow_succ]
    omega

/-- A read of `m + n` bytes is the read of the first `m` and the read of the other `n` above them (R55). -/
theorem le_add (src : ByteSource) (a m n : Nat) :
    src.le a (m + n) = src.le a m + 256 ^ m * src.le (a + m) n := by
  induction m generalizing a with
  | zero => simp [ByteSource.le]
  | succ m ih =>
    rw [Nat.add_right_comm, ByteSource.le, ih, ByteSource.le, Nat.pow_succ,
      show a + 1 + m = a + (m + 1) by omega]
    ring

/-! ### Reads -/

theorem memRead_ok {src : ByteSource} {a n : Nat} (h : a + n ≤ src.len) : memRead src a n = .ok (src.le a n) := by
  simp [memRead, Nat.not_lt.2 h]

theorem memRead_error {src : ByteSource} {a n : Nat} (h : src.len < a + n) :
    memRead src a n = .error (.outOfBounds a n) := by
  simp [memRead, h]

theorem readBytes_ok {src : ByteSource} {n : Nat} {d : DecodeState} (h : d.ea + n ≤ src.len) :
    readBytes src n d = .ok (src.le d.ea n) (d.forward n) := by
  simp [readBytes, memRead_ok h, DecodeState.forward]

theorem readBytes_error {src : ByteSource} {n : Nat} {d : DecodeState} (h : src.len < d.ea + n) :
    readBytes src n d = .error (.outOfBounds d.ea n) d := by
  simp [readBytes, memRead_error h]

theorem ofNat_byteNat (src : ByteSource) (a : Nat) : BitVec.ofNat 8 (byteNat src a) = src.byte a := by
  simp [byteNat]

theorem read8_ok {src : ByteSource} {d : DecodeState} (h : d.ea + 1 ≤ src.len) :
    read8 src d = .ok (src.byte d.ea) (d.forward 1) := by
  rw [read8, Decoder.bind_of_ok (readBytes_ok h), le_one, ofNat_byteNat]
  rfl

theorem read8_error {src : ByteSource} {d : DecodeState} (h : src.len < d.ea + 1) :
    read8 src d = .error (.outOfBounds d.ea 1) d := by
  rw [read8, Decoder.bind_of_error (readBytes_error h)]

theorem read16_ok {src : ByteSource} {d : DecodeState} (h : d.ea + 2 ≤ src.len) :
    read16 src d = .ok (BitVec.ofNat 16 (half src d.ea)) (d.forward 2) := by
  rw [read16, Decoder.bind_of_ok (readBytes_ok h), le_two]
  rfl

theorem read16_error {src : ByteSource} {d : DecodeState} (h : src.len < d.ea + 2) :
    read16 src d = .error (.outOfBounds d.ea 2) d := by
  rw [read16, Decoder.bind_of_error (readBytes_error h)]

theorem read32_ok {src : ByteSource} {d : DecodeState} (h : d.ea + 4 ≤ src.len) :
    read32 src d = .ok (BitVec.ofNat 32 (word src d.ea)) (d.forward 4) := by
  rw [read32, Decoder.bind_of_ok (readBytes_ok h), le_four]
  rfl

theorem read32_error {src : ByteSource} {d : DecodeState} (h : src.len < d.ea + 4) :
    read32 src d = .error (.outOfBounds d.ea 4) d := by
  rw [read32, Decoder.bind_of_error (readBytes_error h)]

theorem ofNat_word_toNat (src : ByteSource) (a : Nat) : (BitVec.ofNat 32 (word src a)).toNat = word src a := by
  have := word_lt src a
  simp only [BitVec.toNat_ofNat]
  omega

theorem ofNat_half_toNat (src : ByteSource) (a : Nat) : (BitVec.ofNat 16 (half src a)).toNat = half src a := by
  have := half_lt src a
  simp only [BitVec.toNat_ofNat]
  omega

/-- Everything a byte read can do (R101, R106). -/
theorem read8_eq_ok {src : ByteSource} {d d' : DecodeState} {v : Byte} :
    read8 src d = .ok v d' ↔ d.ea + 1 ≤ src.len ∧ v = src.byte d.ea ∧ d' = d.forward 1 := by
  by_cases h : d.ea + 1 ≤ src.len
  · rw [read8_ok h]
    simp [h, eq_comm]
  · rw [read8_error (by omega)]
    simp [h]

theorem read8_eq_error {src : ByteSource} {d d' : DecodeState} {k : Raise} :
    read8 src d = .error k d' ↔ src.len < d.ea + 1 ∧ k = .outOfBounds d.ea 1 ∧ d' = d := by
  by_cases h : d.ea + 1 ≤ src.len
  · rw [read8_ok h]
    simp
    omega
  · rw [read8_error (by omega)]
    simp [Nat.lt_of_not_ge h, eq_comm]

/-- Everything a 16-bit read can do (R102, R106). -/
theorem read16_eq_ok {src : ByteSource} {d d' : DecodeState} {v : Half} :
    read16 src d = .ok v d' ↔ d.ea + 2 ≤ src.len ∧ v = BitVec.ofNat 16 (half src d.ea) ∧ d' = d.forward 2 := by
  by_cases h : d.ea + 2 ≤ src.len
  · rw [read16_ok h]
    simp [h, eq_comm]
  · rw [read16_error (by omega)]
    simp [h]

theorem read16_eq_error {src : ByteSource} {d d' : DecodeState} {k : Raise} :
    read16 src d = .error k d' ↔ src.len < d.ea + 2 ∧ k = .outOfBounds d.ea 2 ∧ d' = d := by
  by_cases h : d.ea + 2 ≤ src.len
  · rw [read16_ok h]
    simp
    omega
  · rw [read16_error (by omega)]
    simp [Nat.lt_of_not_ge h, eq_comm]

/-- Everything a 32-bit read can do (R103, R106). -/
theorem read32_eq_ok {src : ByteSource} {d d' : DecodeState} {v : Word} :
    read32 src d = .ok v d' ↔ d.ea + 4 ≤ src.len ∧ v = BitVec.ofNat 32 (word src d.ea) ∧ d' = d.forward 4 := by
  by_cases h : d.ea + 4 ≤ src.len
  · rw [read32_ok h]
    simp [h, eq_comm]
  · rw [read32_error (by omega)]
    simp [h]

theorem read32_eq_error {src : ByteSource} {d d' : DecodeState} {k : Raise} :
    read32 src d = .error k d' ↔ src.len < d.ea + 4 ∧ k = .outOfBounds d.ea 4 ∧ d' = d := by
  by_cases h : d.ea + 4 ≤ src.len
  · rw [read32_ok h]
    simp
    omega
  · rw [read32_error (by omega)]
    simp [Nat.lt_of_not_ge h, eq_comm]

/-! ### Running a decoder on the state -/

theorem runDecoder_ok {α : Type} {m : Decoder α} {s : State} {ok : α → State → State} {bad : State → State} {a : α}
    {d : DecodeState} (h : m s.decodeState = .ok a d) : runDecoder m s ok bad = .next (ok a (s.withDecode d)) := by
  rw [runDecoder, h]

theorem runDecoder_error {α : Type} {m : Decoder α} {s : State} {ok : α → State → State} {bad : State → State}
    {k : Raise} {d : DecodeState} (h : m s.decodeState = .error k d) :
    runDecoder m s ok bad = .next ((bad (s.withDecode d)).raise k) := by
  rw [runDecoder, h]

/-- Everything running a decoder can do: a next state, with the result stored or with the fault taken. -/
theorem runDecoder_cases {α : Type} (m : Decoder α) (s : State) (ok : α → State → State) (bad : State → State) :
    (∃ a d, m s.decodeState = .ok a d ∧ runDecoder m s ok bad = .next (ok a (s.withDecode d))) ∨
    (∃ k d, m s.decodeState = .error k d ∧ runDecoder m s ok bad = .next ((bad (s.withDecode d)).raise k)) := by
  cases h : m s.decodeState with
  | ok a d => exact .inl ⟨a, d, rfl, runDecoder_ok h⟩
  | error k d => exact .inr ⟨k, d, rfl, runDecoder_error h⟩

theorem withDecode_forward (s : State) (n : Nat) :
    s.withDecode (s.decodeState.forward n) = { s with cursor := s.cursor + n } := rfl

@[simp] theorem withDecode_decodeState (s : State) : s.withDecode s.decodeState = s := rfl

end Sys2Proof.Machine
end

