-- ==== Sys2Proof/Laws/Palette.lean ====
section
/-! SUPPORT. What the palette decoder and the tile unpacker do, on a structure that lies below `LEN` and on one that is cut
short (41_palette.md R121, R125; 42_tilemap.md R136, R139). -/

namespace Sys2Proof.Machine

open Layout

/-! ### Operand fields against the numbers of the layout -/

theorem colourOf_ofNat (w : Nat) : colourOf (BitVec.ofNat 16 w) = colour w := by
  simp only [colourOf, colour, Colour.mk.injEq]
  refine ⟨?_, ?_, ?_⟩ <;> apply BitVec.eq_of_toNat_eq <;>
    simp only [BitVec.extractLsb'_toNat, BitVec.toNat_ofNat, Nat.shiftRight_eq_div_pow] <;> omega

theorem evenCell_toNat (b : Byte) : (evenCell b).toNat = b.toNat % 16 := by
  simp [evenCell, BitVec.extractLsb'_toNat]
  omega

theorem oddCell_toNat (b : Byte) : (oddCell b).toNat = b.toNat / 16 := by
  have := b.isLt
  simp [oddCell, BitVec.extractLsb'_toNat, Nat.shiftRight_eq_div_pow]
  omega

/-- The cell at slot `c` of the bytes from `a` on (R78, R138). -/
def cellFrom (src : ByteSource) (a c : Nat) : Byte :=
  BitVec.ofNat 8 (if c % 2 = 0 then byteNat src (a + c / 2) % 16 else byteNat src (a + c / 2) / 16)

theorem evenCell_eq (src : ByteSource) (a c : Nat) (h : c % 2 = 0) : evenCell (src.byte (a + c / 2)) = cellFrom src a c := by
  apply BitVec.eq_of_toNat_eq
  have := byteNat_lt src (a + c / 2)
  simp only [evenCell_toNat, cellFrom, h, if_true, BitVec.toNat_ofNat, byteNat] at *
  omega

theorem oddCell_eq (src : ByteSource) (a c : Nat) (h : c % 2 = 1) : oddCell (src.byte (a + c / 2)) = cellFrom src a c := by
  apply BitVec.eq_of_toNat_eq
  have := byteNat_lt src (a + c / 2)
  simp only [oddCell_toNat, cellFrom, h, BitVec.toNat_ofNat, byteNat] at *
  norm_num
  omega

/-! ### The palette -/

theorem readColours_ok {src : ByteSource} {n : Nat} {d : DecodeState} (h : d.ea + 2 * n ≤ src.len) :
    readColours src n d = .ok ((List.range n).map fun i => colour (half src (d.ea + 2 * i))) (d.forward (2 * n)) := by
  induction n generalizing d with
  | zero => rfl
  | succ n ih =>
    rw [readColours, Decoder.bind_of_ok (read16_ok (by omega)),
      Decoder.bind_of_ok (ih (d := d.forward 2) (by simp; omega)), forward_forward]
    simp only [Decoder.pure_apply, colourOf_ofNat, List.range_succ_eq_map, List.map_cons, List.map_map, forward_ea]
    simp only [Nat.mul_add, Nat.add_comm 2, Function.comp_def, Nat.mul_zero, Nat.add_zero, Nat.succ_eq_add_one,
      Nat.mul_one, Nat.add_assoc]

/-- The first colour word that does not fit is number `(LEN - ea) div 2`. -/
theorem readColours_error {src : ByteSource} {n : Nat} {d : DecodeState} (hea : d.ea ≤ src.len)
    (h : src.len < d.ea + 2 * n) :
    readColours src n d = .error (.outOfBounds (d.ea + 2 * ((src.len - d.ea) / 2)) 2)
      (d.forward (2 * ((src.len - d.ea) / 2))) := by
  induction n generalizing d with
  | zero => omega
  | succ n ih =>
    rw [readColours]
    by_cases hr : d.ea + 2 ≤ src.len
    · have hdiv : (src.len - (d.ea + 2)) / 2 + 1 = (src.len - d.ea) / 2 := by omega
      rw [Decoder.bind_of_ok (read16_ok hr),
        Decoder.bind_of_error (ih (d := d.forward 2) (by simp; omega) (by simp; omega)), forward_forward, forward_ea,
        ← hdiv]
      rw [show ∀ q, d.ea + 2 + 2 * q = d.ea + 2 * (q + 1) by omega, show ∀ q, 2 + 2 * q = 2 * (q + 1) by omega]
    · have hdiv : (src.len - d.ea) / 2 = 0 := by omega
      rw [Decoder.bind_of_error (read16_error (by omega)), hdiv]
      rfl

theorem decodePalette_ok {src : ByteSource} {d : DecodeState} (h : PaletteFits src d.ea) :
    decodePalette src d = .ok (palette src d.ea) (d.forward 36) := by
  unfold PaletteFits at h
  rw [decodePalette, Decoder.bind_of_ok (read32_ok (by omega)), readColours_ok (by simp; omega), forward_forward]
  simp [palette]

theorem decodePalette_error_size {src : ByteSource} {d : DecodeState} (h : src.len < d.ea + 4) :
    decodePalette src d = .error (.outOfBounds d.ea 4) d := by
  rw [decodePalette, Decoder.bind_of_error (read32_error h)]

theorem decodePalette_error_word {src : ByteSource} {d : DecodeState} (h4 : d.ea + 4 ≤ src.len)
    (h : src.len < d.ea + 36) :
    decodePalette src d = .error (.outOfBounds (d.ea + 4 + 2 * ((src.len - (d.ea + 4)) / 2)) 2)
      (d.forward (4 + 2 * ((src.len - (d.ea + 4)) / 2))) := by
  rw [decodePalette, Decoder.bind_of_ok (read32_ok h4), readColours_error (by simpa using h4) (by simp; omega),
    forward_forward, forward_ea]

/-- Everything the palette decoder can do when it completes. -/
theorem decodePalette_eq_ok {src : ByteSource} {d d' : DecodeState} {pal : List Colour} :
    decodePalette src d = .ok pal d' ↔ PaletteFits src d.ea ∧ pal = palette src d.ea ∧ d' = d.forward 36 := by
  by_cases h : PaletteFits src d.ea
  · rw [decodePalette_ok h]
    simp [h, eq_comm]
  · have h' := h
    unfold PaletteFits at h'
    by_cases h4 : d.ea + 4 ≤ src.len
    · rw [decodePalette_error_word h4 (by omega)]
      simp [h]
    · rw [decodePalette_error_size (by omega)]
      simp [h]

theorem decodePalette_eq_error {src : ByteSource} {d d' : DecodeState} {k : Raise}
    (h : decodePalette src d = .error k d') :
    ∃ a n, k = .outOfBounds a n ∧ a = d'.ea ∧ (n = 2 ∨ n = 4) ∧ src.len < a + n ∧ d'.base = d.base ∧ d'.warn = d.warn ∧
      (d' = d ∨ d'.ea ≤ src.len) := by
  by_cases hf : PaletteFits src d.ea
  · rw [decodePalette_ok hf] at h
    cases h
  · unfold PaletteFits at hf
    by_cases h4 : d.ea + 4 ≤ src.len
    · rw [decodePalette_error_word h4 (by omega)] at h
      cases h
      exact ⟨_, _, rfl, by simp; omega, .inl rfl, by omega, rfl, rfl, .inr (by simp; omega)⟩
    · rw [decodePalette_error_size (by omega)] at h
      cases h
      exact ⟨_, _, rfl, rfl, .inr rfl, by omega, rfl, rfl, .inl rfl⟩

/-! ### The tilemap -/

theorem range_succ_map {α : Type} (f : Nat → α) (n : Nat) :
    (List.range (n + 1)).map f = f 0 :: (List.range n).map fun i => f (i + 1) := by
  simp [List.range_succ_eq_map, Function.comp_def]

theorem readCells_ok {src : ByteSource} {n : Nat} {d : DecodeState} (h : d.ea + n ≤ src.len) :
    readCells src n d = .ok ((List.range (2 * n)).map fun c => cellFrom src d.ea c) (d.forward n) := by
  induction n generalizing d with
  | zero => rfl
  | succ n ih =>
    rw [readCells, Decoder.bind_of_ok (read8_ok (by omega)),
      Decoder.bind_of_ok (ih (d := d.forward 1) (by simp; omega)), forward_forward, Nat.mul_add, Nat.mul_one,
      show 2 * n + 2 = (2 * n + 1) + 1 by omega, range_succ_map, range_succ_map, Nat.add_comm 1]
    have he : evenCell (src.byte d.ea) = cellFrom src d.ea 0 := evenCell_eq src d.ea 0 rfl
    have ho : oddCell (src.byte d.ea) = cellFrom src d.ea 1 := oddCell_eq src d.ea 1 rfl
    have hs : ∀ c, cellFrom src (d.ea + 1) c = cellFrom src d.ea (c + 2) := fun c => by
      rw [cellFrom, cellFrom, show (c + 2) % 2 = c % 2 by omega, show d.ea + (c + 2) / 2 = d.ea + 1 + c / 2 by omega]
    simp only [Decoder.pure_apply, he, ho, forward_ea, hs]

theorem readCells_error {src : ByteSource} {n : Nat} {d : DecodeState} (hea : d.ea ≤ src.len)
    (h : src.len < d.ea + n) :
    readCells src n d = .error (.outOfBounds src.len 1) (d.forward (src.len - d.ea)) := by
  induction n generalizing d with
  | zero => omega
  | succ n ih =>
    rw [readCells]
    by_cases hr : d.ea + 1 ≤ src.len
    · rw [Decoder.bind_of_ok (read8_ok hr),
        Decoder.bind_of_error (ih (d := d.forward 1) (by simpa using hr) (by simp; omega)), forward_forward, forward_ea,
        show 1 + (src.len - (d.ea + 1)) = src.len - d.ea by omega]
    · have he : d.ea = src.len := by omega
      rw [Decoder.bind_of_error (read8_error (by omega)), he, Nat.sub_self, forward_zero]

theorem readTiles_ok {src : ByteSource} {n : Nat} {d : DecodeState} (h : d.ea + 32 * n ≤ src.len) :
    readTiles src n d =
      .ok ((List.range n).map fun t => (List.range 64).map fun c => cellFrom src (d.ea + 32 * t) c)
        (d.forward (32 * n)) := by
  induction n generalizing d with
  | zero => rfl
  | succ n ih =>
    rw [readTiles, consts_tileBytes, Decoder.bind_of_ok (readCells_ok (by omega)),
      Decoder.bind_of_ok (ih (d := d.forward 32) (by simp; omega)), forward_forward,
      range_succ_map (fun t => (List.range 64).map fun c => cellFrom src (d.ea + 32 * t) c)]
    simp only [Decoder.pure_apply, forward_ea, Nat.mul_add, Nat.add_comm 32, Nat.mul_zero, Nat.add_zero, Nat.mul_one,
      Nat.add_assoc]

theorem readTiles_error {src : ByteSource} {n : Nat} {d : DecodeState} (hea : d.ea ≤ src.len)
    (h : src.len < d.ea + 32 * n) :
    readTiles src n d = .error (.outOfBounds src.len 1) (d.forward (src.len - d.ea)) := by
  induction n generalizing d with
  | zero => omega
  | succ n ih =>
    rw [readTiles, consts_tileBytes]
    by_cases hr : d.ea + 32 ≤ src.len
    · rw [Decoder.bind_of_ok (readCells_ok hr),
        Decoder.bind_of_error (ih (d := d.forward 32) (by simpa using hr) (by simp; omega)), forward_forward, forward_ea,
        show 32 + (src.len - (d.ea + 32)) = src.len - d.ea by omega]
    · rw [Decoder.bind_of_error (readCells_error hea (by omega))]

theorem tileCount_ofNat (src : ByteSource) (a : Nat) :
    Machine.tileCount (BitVec.ofNat 32 (word src a)) = Layout.tileCount src a := by
  rw [Machine.tileCount, Layout.tileCount, ofNat_word_toNat, consts_tileBytes]

theorem decodeTilemap_ok {src : ByteSource} {d : DecodeState} (h : TilemapFits src d.ea) :
    decodeTilemap src d = .ok (tilemap src d.ea) (d.forward (4 + 32 * Layout.tileCount src d.ea)) := by
  obtain ⟨h4, h⟩ := h
  rw [decodeTilemap, Decoder.bind_of_ok (read32_ok h4), tileCount_ofNat, readTiles_ok (by simp; omega),
    forward_forward]
  rfl

theorem decodeTilemap_error_size {src : ByteSource} {d : DecodeState} (h : src.len < d.ea + 4) :
    decodeTilemap src d = .error (.outOfBounds d.ea 4) d := by
  rw [decodeTilemap, Decoder.bind_of_error (read32_error h)]

theorem decodeTilemap_error_byte {src : ByteSource} {d : DecodeState} (h4 : d.ea + 4 ≤ src.len)
    (h : src.len < d.ea + 4 + 32 * Layout.tileCount src d.ea) :
    decodeTilemap src d = .error (.outOfBounds src.len 1) (d.forward (src.len - d.ea)) := by
  rw [decodeTilemap, Decoder.bind_of_ok (read32_ok h4), tileCount_ofNat,
    readTiles_error (by simpa using h4) (by simp; omega), forward_forward, forward_ea,
    show 4 + (src.len - (d.ea + 4)) = src.len - d.ea by omega]

/-- Everything the tile unpacker can do when it completes. -/
theorem decodeTilemap_eq_ok {src : ByteSource} {d d' : DecodeState} {tiles : List Tile} :
    decodeTilemap src d = .ok tiles d' ↔
      TilemapFits src d.ea ∧ tiles = tilemap src d.ea ∧ d' = d.forward (4 + 32 * Layout.tileCount src d.ea) := by
  by_cases h : TilemapFits src d.ea
  · rw [decodeTilemap_ok h]
    simp [h, eq_comm]
  · by_cases h4 : d.ea + 4 ≤ src.len
    · rw [decodeTilemap_error_byte h4 (Nat.lt_of_not_ge fun hc => h ⟨h4, hc⟩)]
      simp [h]
    · rw [decodeTilemap_error_size (by omega)]
      simp [h]

theorem decodeTilemap_eq_error {src : ByteSource} {d d' : DecodeState} {k : Raise}
    (h : decodeTilemap src d = .error k d') :
    ∃ a n, k = .outOfBounds a n ∧ a = d'.ea ∧ (n = 1 ∨ n = 4) ∧ src.len < a + n ∧ d'.base = d.base ∧ d'.warn = d.warn ∧
      (d' = d ∨ d'.ea ≤ src.len) := by
  by_cases hf : TilemapFits src d.ea
  · rw [decodeTilemap_ok hf] at h
    cases h
  · by_cases h4 : d.ea + 4 ≤ src.len
    · rw [decodeTilemap_error_byte h4 (Nat.lt_of_not_ge fun hc => hf ⟨h4, hc⟩)] at h
      cases h
      exact ⟨_, _, rfl, by simp; omega, .inl rfl, by omega, rfl, rfl, .inr (by simp; omega)⟩
    · rw [decodeTilemap_error_size (by omega)] at h
      cases h
      exact ⟨_, _, rfl, rfl, .inr rfl, by omega, rfl, rfl, .inl rfl⟩

end Sys2Proof.Machine
end

