-- ==== Sys2Proof/Laws/PlacementList.lean ====
section
/-! SUPPORT. What the placement-list decoder does: the fields of a record, one record, the loop, the whole list
(43_placement_list.md R151 to R160). -/

namespace Sys2Proof.Machine

open Layout

/-! ### The fields of a record -/

theorem sizeIndexOf_toNat : ∀ b : Byte, (sizeIndexOf b).toNat = b.toNat % 4 := by decide

theorem shapeIndexOf_toNat : ∀ b : Byte, (shapeIndexOf b).toNat = b.toNat % 4 := by decide

theorem hflipOf_iff : ∀ b : Byte, hflipOf b = true ↔ b.toNat / 64 % 2 = 1 := by decide

theorem vflipOf_iff : ∀ b : Byte, vflipOf b = true ↔ b.toNat / 32 % 2 = 1 := by decide

/-- The key is `4 * shapeIndex + sizeIndex` (R84). -/
theorem sizeKey_eq : ∀ a b : BitVec 2, sizeKey a b = 4 * a.toNat + b.toNat := by decide

/-- The table of R158, looked up by the key, is the size class of `(shapeIndex, sizeIndex)`. -/
theorem sizeTable_eq : ∀ a b : BitVec 2, consts.sizeTable[sizeKey a b]? = sizeClass a.toNat b.toNat := by decide

theorem sizeClass_none : ∀ a b : BitVec 2, sizeClass a.toNat b.toNat = none ↔ a.toNat = 3 := by decide

theorem placementOf_eq_ok {b0 b1 b2 b3 b4 : Byte} {p : Placement} :
    placementOf b0 b1 b2 b3 b4 = .ok p ↔ RecordStandsFor b0.toNat b1.toNat b2.toNat b3.toNat b4.toNat p := by
  unfold placementOf RecordStandsFor
  simp only [sizeTable_eq]
  rw [← sizeIndexOf_toNat b3, ← shapeIndexOf_toNat b4, ← hflipOf_iff, ← vflipOf_iff]
  cases hc : sizeClass (shapeIndexOf b4).toNat (sizeIndexOf b3).toNat with
  | none => simp
  | some wh =>
    obtain ⟨w, h⟩ := wh
    obtain ⟨st, ox, oy, si, sh, w', h', hf, vf⟩ := p
    simp only [Except.ok.injEq, Placement.mk.injEq, BitVec.toNat_inj, Option.some.injEq, Prod.mk.injEq]
    constructor
    · rintro ⟨rfl, rfl, rfl, rfl, rfl, rfl, rfl, rfl, rfl⟩
      exact ⟨rfl, rfl, rfl, rfl, rfl, ⟨rfl, rfl⟩, Iff.rfl, Iff.rfl⟩
    · rintro ⟨rfl, rfl, rfl, rfl, rfl, ⟨rfl, rfl⟩, h1, h2⟩
      exact ⟨rfl, rfl, rfl, rfl, rfl, rfl, rfl, (Bool.eq_iff_iff.2 h1).symm, (Bool.eq_iff_iff.2 h2).symm⟩

theorem placementOf_eq_error {b0 b1 b2 b3 b4 : Byte} {k : Raise} :
    placementOf b0 b1 b2 b3 b4 = .error k ↔ b4.toNat % 4 = 3 ∧ k = .invalidSizeIndex (12 + b3.toNat % 4) := by
  unfold placementOf
  simp only [sizeTable_eq]
  rw [← sizeIndexOf_toNat b3, ← shapeIndexOf_toNat b4]
  have hn := sizeClass_none (shapeIndexOf b4) (sizeIndexOf b3)
  cases hc : sizeClass (shapeIndexOf b4).toNat (sizeIndexOf b3).toNat with
  | none =>
    have h3 := hn.1 hc
    simp [sizeKey_eq, h3, eq_comm]
  | some wh =>
    have h3 : ¬ (shapeIndexOf b4).toNat = 3 := fun h => by simp [hn.2 h] at hc
    simp [h3]

/-- A placement a record stands for is well formed (R39 (c)). -/
theorem placementOk_of_stands {b0 b1 b2 b3 b4 : Nat} {p : Placement} (h : RecordStandsFor b0 b1 b2 b3 b4 p) :
    p.shapeIndex.toNat < 3 ∧ consts.sizeTable[4 * p.shapeIndex.toNat + p.sizeIndex.toNat]? = some (p.w, p.h) := by
  obtain ⟨-, -, -, hs, hsh, hc, -, -⟩ := h
  rw [← hs, ← hsh] at hc
  have hlt := p.shapeIndex.isLt
  have hne : p.shapeIndex.toNat ≠ 3 := fun h3 => by
    rw [(sizeClass_none p.shapeIndex p.sizeIndex).2 h3] at hc
    cases hc
  refine ⟨by omega, ?_⟩
  rw [← sizeKey_eq, sizeTable_eq, hc]

/-! ### One record -/

/-- The record whose five bytes lie at `a`. -/
def recordAt (src : ByteSource) (a : Nat) : Record :=
  ⟨src.byte a, src.byte (a + 1), src.byte (a + 2), src.byte (a + 3), src.byte (a + 4)⟩

theorem readRecord_ok {src : ByteSource} {d : DecodeState} (h : d.ea + 5 ≤ src.len) :
    readRecord src d = .ok (recordAt src d.ea) (d.forward 5) := by
  rw [readRecord, Decoder.bind_of_ok (read8_ok (by omega)), Decoder.bind_of_ok (read8_ok (by simp; omega)),
    Decoder.bind_of_ok (read8_ok (by simp; omega)), Decoder.bind_of_ok (read8_ok (by simp; omega)),
    Decoder.bind_of_ok (read8_ok (by simp; omega))]
  rfl

/-- A record cut short faults at its first missing byte, the bytes before it consumed (R154). -/
theorem readRecord_error {src : ByteSource} {d : DecodeState} (h : src.len < d.ea + 5) :
    readRecord src d = .error (.outOfBounds (d.ea + (src.len - d.ea)) 1) (d.forward (src.len - d.ea)) := by
  have step : ∀ {α : Type} (f : Byte → Decoder α) (e : DecodeState), src.len < e.ea + 1 →
      (read8 src >>= f) e = .error (.outOfBounds e.ea 1) e := fun f e he => Decoder.bind_of_error (read8_error he)
  by_cases h0 : d.ea + 1 ≤ src.len
  · by_cases h1 : d.ea + 2 ≤ src.len
    · by_cases h2 : d.ea + 3 ≤ src.len
      · by_cases h3 : d.ea + 4 ≤ src.len
        · rw [readRecord, Decoder.bind_of_ok (read8_ok (by omega)), Decoder.bind_of_ok (read8_ok (by simp; omega)),
            Decoder.bind_of_ok (read8_ok (by simp; omega)), Decoder.bind_of_ok (read8_ok (by simp; omega)),
            step _ _ (by simp; omega)]
          simp only [forward_forward, forward_ea, show src.len - d.ea = 4 by omega, Nat.reduceAdd]
        · rw [readRecord, Decoder.bind_of_ok (read8_ok (by omega)), Decoder.bind_of_ok (read8_ok (by simp; omega)),
            Decoder.bind_of_ok (read8_ok (by simp; omega)), step _ _ (by simp; omega)]
          simp only [forward_forward, forward_ea, show src.len - d.ea = 3 by omega, Nat.reduceAdd]
      · rw [readRecord, Decoder.bind_of_ok (read8_ok (by omega)), Decoder.bind_of_ok (read8_ok (by simp; omega)),
          step _ _ (by simp; omega)]
        simp only [forward_forward, forward_ea, show src.len - d.ea = 2 by omega, Nat.reduceAdd]
    · rw [readRecord, Decoder.bind_of_ok (read8_ok (by omega)), step _ _ (by simp; omega)]
      simp only [forward_ea, show src.len - d.ea = 1 by omega]
  · rw [readRecord, step _ _ (by omega)]
    simp only [show src.len - d.ea = 0 by omega, Nat.add_zero, forward_zero]

theorem isSentinel_iff {b0 b1 b2 b3 b4 : Byte} :
    isSentinel b0 b1 b2 b3 b4 = true ↔ b0 = 0xFF ∧ b1 = 0xFF ∧ b2 = 0xFF ∧ b3 = 0xFF ∧ b4 = 0xFF := by
  simp [isSentinel]

theorem recordAt_isEnd {src : ByteSource} {a : Nat} : (recordAt src a).isEnd = true ↔ IsEnd src a := by
  have hb : ∀ b : Byte, b = 0xFF ↔ b.toNat = 255 := fun b => by
    rw [← BitVec.toNat_inj]
    rfl
  simp only [Record.isEnd, recordAt, isSentinel_iff, IsEnd, byteNat, hb]
  constructor
  · rintro ⟨h0, h1, h2, h3, h4⟩ i hi
    match i, hi with
    | 0, _ => exact h0
    | 1, _ => exact h1
    | 2, _ => exact h2
    | 3, _ => exact h3
    | 4, _ => exact h4
  · intro h
    exact ⟨h 0 (by omega), h 1 (by omega), h 2 (by omega), h 3 (by omega), h 4 (by omega)⟩

theorem emit_eq_ok {max rstart : Nat} {src : ByteSource} {a : Nat} {list l : List Placement} :
    (recordAt src a).emit max rstart list = .ok l ↔
      list.length < max ∧ ∃ p, RecordStandsFor (byteNat src a) (byteNat src (a + 1)) (byteNat src (a + 2))
        (byteNat src (a + 3)) (byteNat src (a + 4)) p ∧ l = list ++ [p] := by
  unfold Record.emit emitPlacement
  split
  · simp
    omega
  · simp only [recordAt]
    split
    · rename_i k hk
      rw [placementOf_eq_error] at hk
      simp only [reduceCtorEq, false_iff, not_and, not_exists]
      intro _ p hp
      rw [byteNat, byteNat, byteNat, byteNat, byteNat, ← placementOf_eq_ok] at hp
      rw [placementOf_eq_error.2 hk] at hp
      cases hp
    · rename_i p hp
      have hp' := placementOf_eq_ok.1 hp
      constructor
      · intro h
        cases h
        exact ⟨by omega, p, hp', rfl⟩
      · rintro ⟨_, q, hq, rfl⟩
        rw [byteNat, byteNat, byteNat, byteNat, byteNat, ← placementOf_eq_ok, hp] at hq
        cases hq
        rfl

theorem emit_eq_error {max rstart : Nat} {r : Record} {list : List Placement} {k : Raise} :
    r.emit max rstart list = .error k ↔
      (max ≤ list.length ∧ k = .unterminatedPlacementList rstart) ∨
        (list.length < max ∧ r.shapeByte.toNat % 4 = 3 ∧ k = .invalidSizeIndex (12 + r.sizeByte.toNat % 4)) := by
  unfold Record.emit emitPlacement
  split
  · rename_i h
    simp [h, Nat.not_lt.2 h, eq_comm]
  · rename_i h
    have h' : list.length < max := by omega
    simp only [h, h', false_and, true_and, false_or, ← placementOf_eq_error (b0 := r.startTile) (b1 := r.offsetX)
      (b2 := r.offsetY)]
    split <;> rename_i heq <;> simp [heq]

/-! ### The loop -/

/-- The loop completes exactly when the records from the Reader on are those of a list that fits under the bound, ended by
the sentinel; the cursor then stands past the sentinel (R155, R156, R160). -/
theorem walkRecords_eq_ok {src : ByteSource} {max room : Nat} {list l : List Placement} {d d' : DecodeState}
    (hroom : list.length + room = max + 1) :
    walkRecords src max room list d = .ok l d' ↔
      ∃ l', l = list ++ l' ∧ l.length ≤ max ∧ RecordsAt src d.ea l' ∧ d' = d.forward (5 * (l'.length + 1)) := by
  induction room generalizing list d with
  | zero =>
    rw [walkRecords, Decoder.bind_of_ok (readerAddress_apply d)]
    simp only [Decoder.fail_apply, reduceCtorEq, false_iff, not_exists, not_and]
    rintro l' rfl hl
    simp at hl
    omega
  | succ room ih =>
    rw [walkRecords, Decoder.bind_of_ok (readerAddress_apply d)]
    by_cases h5 : d.ea + 5 ≤ src.len
    · rw [Decoder.bind_of_ok (readRecord_ok h5)]
      by_cases hend : IsEnd src d.ea
      · rw [if_pos (recordAt_isEnd.2 hend)]
        simp only [Decoder.pure_apply, EStateM.Result.ok.injEq]
        constructor
        · rintro ⟨rfl, rfl⟩
          exact ⟨[], by simp, by omega, ⟨h5, hend⟩, rfl⟩
        · rintro ⟨l', rfl, -, hrec, rfl⟩
          cases l' with
          | nil => simp
          | cons p l' => exact absurd hend hrec.2.1.1
      · rw [if_neg (by rw [recordAt_isEnd]; exact hend)]
        cases hem : (recordAt src d.ea).emit max d.ea list with
        | error k =>
          have hk := hem
          simp only [Decoder.fail_apply, reduceCtorEq, false_iff, not_exists, not_and]
          rintro l' rfl hl hrec
          cases l' with
          | nil => exact absurd hrec.2 hend
          | cons p l' =>
            have : (recordAt src d.ea).emit max d.ea list = .ok (list ++ [p]) :=
              emit_eq_ok.2 ⟨by simp at hl; omega, p, hrec.2.1.2, rfl⟩
            rw [hk] at this
            cases this
        | ok list' =>
          have hl' := hem
          simp only
          obtain ⟨hlt, p, hp, rfl⟩ := emit_eq_ok.1 hl'
          rw [ih (by simp; omega)]
          constructor
          · rintro ⟨l', rfl, hl, hrec, rfl⟩
            refine ⟨p :: l', by simp, hl, ⟨h5, ⟨hend, hp⟩, by simpa using hrec⟩, ?_⟩
            rw [forward_forward]
            simp only [List.length_cons]
            congr 1
            omega
          · rintro ⟨l', rfl, hl, hrec, rfl⟩
            cases l' with
            | nil => exact absurd hrec.2 hend
            | cons q l' =>
              have hq : (recordAt src d.ea).emit max d.ea list = .ok (list ++ [q]) :=
                emit_eq_ok.2 ⟨hlt, q, hrec.2.1.2, rfl⟩
              rw [hl'] at hq
              have hpq : p = q := by simpa using hq
              subst hpq
              refine ⟨l', by simp, hl, by simpa using hrec.2.2, ?_⟩
              rw [forward_forward]
              simp only [List.length_cons]
              congr 1
              omega
    · rw [Decoder.bind_of_error (readRecord_error (by omega))]
      simp only [reduceCtorEq, false_iff, not_exists, not_and]
      rintro l' rfl hl hrec
      cases l' with
      | nil => exact absurd hrec.1 h5
      | cons p l' => exact absurd hrec.1 h5

/-! ### The whole list -/

/-! ### One turn of the loop of R151 -/

theorem walkRecords_short {src : ByteSource} {max room : Nat} {list : List Placement} {d : DecodeState}
    (h : src.len < d.ea + 5) :
    walkRecords src max (room + 1) list d =
      .error (.outOfBounds (d.ea + (src.len - d.ea)) 1) (d.forward (src.len - d.ea)) := by
  rw [walkRecords, Decoder.bind_of_ok (readerAddress_apply d), Decoder.bind_of_error (readRecord_error h)]

theorem walkRecords_end {src : ByteSource} {max room : Nat} {list : List Placement} {d : DecodeState}
    (h : d.ea + 5 ≤ src.len) (hend : (recordAt src d.ea).isEnd = true) :
    walkRecords src max (room + 1) list d = .ok list (d.forward 5) := by
  rw [walkRecords, Decoder.bind_of_ok (readerAddress_apply d), Decoder.bind_of_ok (readRecord_ok h), if_pos hend,
    Decoder.pure_apply]

theorem walkRecords_raise {src : ByteSource} {max room : Nat} {list : List Placement} {d : DecodeState} {k : Raise}
    (h : d.ea + 5 ≤ src.len) (hend : (recordAt src d.ea).isEnd = false)
    (hem : (recordAt src d.ea).emit max d.ea list = .error k) :
    walkRecords src max (room + 1) list d = .error k (d.forward 5) := by
  rw [walkRecords, Decoder.bind_of_ok (readerAddress_apply d), Decoder.bind_of_ok (readRecord_ok h),
    if_neg (by simp [hend])]
  simp only [hem, Decoder.fail_apply]

theorem walkRecords_place {src : ByteSource} {max room : Nat} {list list' : List Placement} {d : DecodeState}
    (h : d.ea + 5 ≤ src.len) (hend : (recordAt src d.ea).isEnd = false)
    (hem : (recordAt src d.ea).emit max d.ea list = .ok list') :
    walkRecords src max (room + 1) list d = walkRecords src max room list' (d.forward 5) := by
  rw [walkRecords, Decoder.bind_of_ok (readerAddress_apply d), Decoder.bind_of_ok (readRecord_ok h),
    if_neg (by simp [hend])]
  simp only [hem]

/-! ### The skip field -/

theorem skipLeadIn_ok {src : ByteSource} {d : DecodeState} (h4 : d.ea + 4 ≤ src.len) (hs : 4 ≤ word src d.ea) :
    skipLeadIn src d = .ok () (d.forward (word src d.ea)) := by
  rw [skipLeadIn, Decoder.bind_of_ok (read32_ok h4)]
  rw [if_neg (by rw [ofNat_word_toNat]; exact Nat.not_lt.2 hs), ofNat_word_toNat, consts_skipBias, advance_apply]
  simp only [DecodeState.forward, Nat.add_assoc]
  rw [show 4 + (word src d.ea - 4) = word src d.ea by omega]

theorem skipLeadIn_error {src : ByteSource} {d : DecodeState} (h4 : d.ea + 4 ≤ src.len) (hs : word src d.ea < 4) :
    skipLeadIn src d = .error (.badSkip (BitVec.ofNat 32 (word src d.ea))) (d.forward 4) := by
  rw [skipLeadIn, Decoder.bind_of_ok (read32_ok h4), if_pos (by rw [ofNat_word_toNat]; exact hs), Decoder.fail_apply]

theorem skipLeadIn_error_read {src : ByteSource} {d : DecodeState} (h4 : src.len < d.ea + 4) :
    skipLeadIn src d = .error (.outOfBounds d.ea 4) d := by
  rw [skipLeadIn, Decoder.bind_of_error (read32_error h4)]

/-- Everything the placement-list decoder can do when it completes (R151, R160). -/
theorem decodePlacements_eq_ok {src : ByteSource} {max : Nat} {l : List Placement} {d d' : DecodeState} :
    decodePlacements src max d = .ok l d' ↔
      PlacementListAt src max d.ea l ∧ d' = d.forward (word src d.ea + 5 * (l.length + 1)) := by
  unfold decodePlacements PlacementListAt
  by_cases h4 : d.ea + 4 ≤ src.len
  · by_cases hs : 4 ≤ word src d.ea
    · rw [Decoder.bind_of_ok (skipLeadIn_ok h4 hs), walkRecords_eq_ok (by simp)]
      simp only [List.nil_append, forward_ea, forward_forward, h4, hs, true_and]
      constructor
      · rintro ⟨l', rfl, hl, hrec, rfl⟩
        exact ⟨⟨hl, hrec⟩, rfl⟩
      · rintro ⟨⟨hl, hrec⟩, rfl⟩
        exact ⟨l, rfl, hl, hrec, rfl⟩
    · rw [Decoder.bind_of_error (skipLeadIn_error h4 (by omega))]
      simp [hs]
  · rw [Decoder.bind_of_error (skipLeadIn_error_read (by omega))]
    simp [h4]

theorem recordsAt_placementOk {src : ByteSource} {a : Nat} {l : List Placement} (h : RecordsAt src a l) :
    ∀ p ∈ l, p.shapeIndex.toNat < 3 ∧
      consts.sizeTable[4 * p.shapeIndex.toNat + p.sizeIndex.toNat]? = some (p.w, p.h) := by
  induction l generalizing a with
  | nil => simp
  | cons q l ih =>
    intro p hp
    rcases List.mem_cons.1 hp with rfl | hp
    · exact placementOk_of_stands h.2.1.2
    · exact ih h.2.2 p hp

end Sys2Proof.Machine
end

