-- ==== Sys2Proof/Laws/Asset.lean ====
section
/-! SUPPORT. What the sprite-asset decoder does when it completes (44_asset.md R171 to R178, R185). -/

namespace Sys2Proof.Machine

open Layout

theorem readPointers_ok {src : ByteSource} {n : Nat} {d : DecodeState} (h : d.ea + 4 * n ≤ src.len) :
    readPointers src n d =
      .ok ((List.range n).map fun i => BitVec.ofNat 32 (word src (d.ea + 4 * i))) (d.forward (4 * n)) := by
  induction n generalizing d with
  | zero => rfl
  | succ n ih =>
    rw [readPointers, Decoder.bind_of_ok (read32_ok (by omega)),
      Decoder.bind_of_ok (ih (d := d.forward 4) (by simp; omega)), forward_forward,
      range_succ_map (fun i => BitVec.ofNat 32 (word src (d.ea + 4 * i)))]
    simp only [Decoder.pure_apply, forward_ea, Nat.mul_add, Nat.add_comm 4, Nat.mul_zero, Nat.add_zero, Nat.mul_one,
      Nat.add_assoc]

/-- The first pointer that does not fit is number `(LEN - ea) div 4`. -/
theorem readPointers_error {src : ByteSource} {n : Nat} {d : DecodeState} (hea : d.ea ≤ src.len)
    (h : src.len < d.ea + 4 * n) :
    readPointers src n d = .error (.outOfBounds (d.ea + 4 * ((src.len - d.ea) / 4)) 4)
      (d.forward (4 * ((src.len - d.ea) / 4))) := by
  induction n generalizing d with
  | zero => omega
  | succ n ih =>
    rw [readPointers]
    by_cases hr : d.ea + 4 ≤ src.len
    · have hdiv : (src.len - (d.ea + 4)) / 4 + 1 = (src.len - d.ea) / 4 := by omega
      rw [Decoder.bind_of_ok (read32_ok hr),
        Decoder.bind_of_error (ih (d := d.forward 4) (by simpa using hr) (by simp; omega)), forward_forward, forward_ea,
        ← hdiv]
      rw [show ∀ q, d.ea + 4 + 4 * q = d.ea + 4 * (q + 1) by omega, show ∀ q, 4 + 4 * q = 4 * (q + 1) by omega]
    · have hdiv : (src.len - d.ea) / 4 = 0 := by omega
      rw [Decoder.bind_of_error (read32_error (by omega)), hdiv]
      rfl

theorem checkMarkers_match {strict : Bool} {h1 h2 : Byte} {d : DecodeState} (h : h1 = 0 ∧ h2 = 1) :
    checkMarkers strict h1 h2 d = .ok () d := by
  rw [checkMarkers, if_pos (by exact h)]
  rfl

theorem checkMarkers_strict {h1 h2 : Byte} {d : DecodeState} (h : ¬ (h1 = 0 ∧ h2 = 1)) :
    checkMarkers true h1 h2 d = .error (.unexpectedMarker h1 h2) d := by
  rw [checkMarkers, if_neg (by exact h)]
  rfl

theorem checkMarkers_lenient {h1 h2 : Byte} {d : DecodeState} (h : ¬ (h1 = 0 ∧ h2 = 1)) :
    checkMarkers false h1 h2 d = .ok () { d with warn := true } := by
  rw [checkMarkers, if_neg (by exact h)]
  rfl

/-! ### The animation record -/

/-- `skipBytes` does one thing: it moves the Reader past its bytes where they are all there. -/
theorem skipBytes_eq_ok {src : ByteSource} {n : Nat} {d d' : DecodeState} {u : Unit} :
    skipBytes src n d = .ok u d' ↔ (n = 0 ∨ d.ea + n ≤ src.len) ∧ d' = d.forward n := by
  induction n generalizing d with
  | zero => exact ⟨fun h => by cases h; exact ⟨.inl rfl, rfl⟩, fun h => by rw [h.2]; rfl⟩
  | succ n ih =>
    simp only [skipBytes, Decoder.bind_eq_ok, read8_eq_ok, ih]
    constructor
    · rintro ⟨_, _, ⟨h1, -, rfl⟩, h2, rfl⟩
      simp only [forward_ea] at h2
      exact ⟨.inr (by omega), by rw [forward_forward, Nat.add_comm]⟩
    · rintro ⟨h, rfl⟩
      exact ⟨_, _, ⟨by omega, rfl, rfl⟩, by simp only [forward_ea]; omega, by rw [forward_forward, Nat.add_comm]⟩

theorem pad2_length : consts.animrecBytes - animFieldBytes = 1 := rfl

/-- The record whose twenty bytes lie at `a` (R76). -/
def animRecordAt (src : ByteSource) (a : Nat) : AnimRecord :=
  ⟨BitVec.ofNat 32 (word src a), BitVec.ofNat 32 (word src (a + 4)), BitVec.ofNat 32 (word src (a + 12)),
    src.byte (a + 16), src.byte (a + 18)⟩

theorem readAnimRecord_ok {src : ByteSource} {d : DecodeState} (h : d.ea + 20 ≤ src.len) :
    readAnimRecord src d = .ok (animRecordAt src d.ea) (d.forward 20) := by
  rw [readAnimRecord, Decoder.bind_of_ok (read32_ok (by omega)), Decoder.bind_of_ok (read32_ok (by simp; omega)),
    forward_forward, Decoder.bind_of_ok (read32_ok (by simp; omega)), forward_forward,
    Decoder.bind_of_ok (read32_ok (by simp; omega)), forward_forward,
    Decoder.bind_of_ok (read8_ok (by simp; omega)), forward_forward,
    Decoder.bind_of_ok (read8_ok (by simp; omega)), forward_forward,
    Decoder.bind_of_ok (read8_ok (by simp; omega)), forward_forward,
    pad2_length, Decoder.bind_of_ok ((skipBytes_eq_ok (u := ())).2 ⟨.inr (by simp; omega), rfl⟩), forward_forward]
  simp only [forward_ea, Nat.reduceAdd]
  rfl

theorem readAnimRecord_not_ok {src : ByteSource} {d d' : DecodeState} {r : AnimRecord}
    (hok : readAnimRecord src d = .ok r d') : d.ea + 20 ≤ src.len := by
  simp only [readAnimRecord, Decoder.bind_eq_ok, read32_eq_ok, read8_eq_ok, skipBytes_eq_ok, pad2_length] at hok
  obtain ⟨_, _, ⟨-, -, rfl⟩, _, _, ⟨-, -, rfl⟩, _, _, ⟨-, -, rfl⟩, _, _, ⟨-, -, rfl⟩, _, _, ⟨-, -, rfl⟩,
    _, _, ⟨-, -, rfl⟩, _, _, ⟨-, -, rfl⟩, _, _, ⟨h, rfl⟩, -⟩ := hok
  simp only [forward_ea] at h
  omega

@[simp] theorem ea_mk (b c : Nat) (w : Bool) : DecodeState.ea ⟨b, c, w⟩ = b + c := rfl

/-- The cursor after the frame of the record at `anchor + ptr` (R185). -/
def cursorAfterFrame (src : ByteSource) (anchor ptr : Nat) (f : Frame) : Nat :=
  word src (anchor + ptr + 12) + (word src (anchor + word src (anchor + ptr + 12)) + 5 * (f.plist.length + 1))

theorem followRecord_eq_ok {src : ByteSource} {max : Nat} {r : AnimRecord} {f : Frame} {d d' : DecodeState} :
    followRecord src max r d = .ok f d' ↔
      TilemapFits src (d.base + r.tilemapPtr.toNat) ∧ f.tiles = tilemap src (d.base + r.tilemapPtr.toNat) ∧
      PaletteFits src (d.base + r.palettePtr.toNat) ∧ f.pal = palette src (d.base + r.palettePtr.toNat) ∧
      PlacementListAt src max (d.base + r.oamPtr.toNat) f.plist ∧ f.delay = r.delay ∧ f.endFlag = r.endFlag ∧
      d' = ⟨d.base, r.oamPtr.toNat + (word src (d.base + r.oamPtr.toNat) + 5 * (f.plist.length + 1)), d.warn⟩ := by
  unfold followRecord
  rw [Decoder.bind_of_ok (seek_apply _ _)]
  by_cases ht : TilemapFits src (d.base + r.tilemapPtr.toNat)
  · rw [Decoder.bind_of_ok (decodeTilemap_ok (by exact ht)), Decoder.bind_of_ok (seek_apply _ _)]
    by_cases hp : PaletteFits src (d.base + r.palettePtr.toNat)
    · rw [Decoder.bind_of_ok (decodePalette_ok (by exact hp)), Decoder.bind_of_ok (seek_apply _ _)]
      rw [Decoder.bind_eq_ok]
      constructor
      · rintro ⟨l, d₁, hl, he⟩
        obtain ⟨hlist, rfl⟩ := decodePlacements_eq_ok.1 hl
        rw [Decoder.pure_apply] at he
        cases he
        exact ⟨ht, rfl, hp, rfl, hlist, rfl, rfl, rfl⟩
      · rintro ⟨-, h1, -, h2, hl, h3, h4, rfl⟩
        refine ⟨f.plist, _, decodePlacements_eq_ok.2 ⟨hl, rfl⟩, ?_⟩
        obtain ⟨tiles, pal, plist, delay, endFlag⟩ := f
        simp only at h1 h2 h3 h4
        subst h1 h2 h3 h4
        rfl
    · constructor
      · intro h
        obtain ⟨_, _, h, -⟩ := Decoder.bind_eq_ok.1 h
        exact absurd (decodePalette_eq_ok.1 h).1 hp
      · exact fun h => absurd h.2.2.1 hp
  · constructor
    · intro h
      obtain ⟨_, _, h, -⟩ := Decoder.bind_eq_ok.1 h
      exact absurd (decodeTilemap_eq_ok.1 h).1 ht
    · exact fun h => absurd h.1 ht

theorem decodeFrame_eq_ok {src : ByteSource} {max : Nat} {ptr : Word} {f : Frame} {d d' : DecodeState} :
    decodeFrame src max ptr d = .ok f d' ↔
      FrameAt src max d.base ptr.toNat f ∧ d' = ⟨d.base, cursorAfterFrame src d.base ptr.toNat f, d.warn⟩ := by
  unfold decodeFrame FrameAt
  rw [Decoder.bind_of_ok (seek_apply _ _)]
  by_cases h20 : d.base + ptr.toNat + 20 ≤ src.len
  · rw [Decoder.bind_of_ok (readAnimRecord_ok (by exact h20)), followRecord_eq_ok]
    simp only [animRecordAt, ea_mk, ofNat_word_toNat, forward_base, forward_warn, h20, true_and, cursorAfterFrame]
    tauto
  · constructor
    · intro h
      obtain ⟨_, _, h, -⟩ := Decoder.bind_eq_ok.1 h
      exact absurd (readAnimRecord_not_ok h) h20
    · exact fun h => absurd h.1.1 h20

/-! ### The pointer table -/

/-- The cursor after the frames of a pointer table, or `c` when there is none (R185). -/
def cursorAfterFrames (src : ByteSource) (anchor : Nat) : Nat → Nat → List Frame → Nat
  | c, _, [] => c
  | _, i, f :: fs =>
    cursorAfterFrames src anchor (cursorAfterFrame src anchor (word src (anchor + 4 * i)) f) (i + 1) fs

theorem decodeFrames_eq_ok {src : ByteSource} {max n i : Nat} {fs : List Frame} {b c : Nat} {w : Bool}
    {d' : DecodeState} :
    decodeFrames src max ((List.range n).map fun j => BitVec.ofNat 32 (word src (b + 4 * (i + j)))) ⟨b, c, w⟩ =
        .ok fs d' ↔
      fs.length = n ∧ FramesAt src max b i fs ∧ d' = ⟨b, cursorAfterFrames src b c i fs, w⟩ := by
  induction n generalizing i fs c d' with
  | zero =>
    constructor
    · intro h
      cases h
      exact ⟨rfl, trivial, rfl⟩
    · rintro ⟨hlen, -, rfl⟩
      rw [List.length_eq_zero_iff] at hlen
      subst hlen
      rfl
  | succ n ih =>
    rw [range_succ_map (fun j => BitVec.ofNat 32 (word src (b + 4 * (i + j))))]
    have hj : (fun j => BitVec.ofNat 32 (word src (b + 4 * (i + (j + 1))))) =
        fun j => BitVec.ofNat 32 (word src (b + 4 * (i + 1 + j))) := by
      funext j
      rw [show i + (j + 1) = i + 1 + j by omega]
    rw [hj, Nat.add_zero, decodeFrames, Decoder.bind_eq_ok]
    constructor
    · rintro ⟨f, d₁, hf, h⟩
      obtain ⟨hframe, rfl⟩ := decodeFrame_eq_ok.1 hf
      obtain ⟨fs', d₂, hfs, he⟩ := Decoder.bind_eq_ok.1 h
      obtain ⟨hlen, hframes, rfl⟩ := ih.1 hfs
      rw [Decoder.pure_apply] at he
      cases he
      rw [ofNat_word_toNat] at hframe
      refine ⟨by simp [hlen], ⟨hframe, hframes⟩, ?_⟩
      rw [ofNat_word_toNat]
      rfl
    · rintro ⟨hlen, hfs, rfl⟩
      cases fs with
      | nil => simp at hlen
      | cons f fs =>
        refine ⟨f, ⟨b, cursorAfterFrame src b (word src (b + 4 * i)) f, w⟩,
          decodeFrame_eq_ok.2 ⟨by rw [ofNat_word_toNat]; exact hfs.1, by rw [ofNat_word_toNat]⟩, ?_⟩
        exact Decoder.bind_of_ok (ih.2 ⟨by simpa using hlen, hfs.2, rfl⟩)

theorem cursorAfterFrames_start {src : ByteSource} {anchor c i : Nat} {fs : List Frame} (h : fs ≠ []) :
    cursorAfterFrames src anchor c i fs = cursorAfterFrames src anchor 0 i fs := by
  cases fs with
  | nil => exact absurd rfl h
  | cons f fs => rfl

theorem decodeTable_eq_ok {src : ByteSource} {max a n : Nat} {fs : List Frame} {d d' : DecodeState}
    (ha : a ≤ src.len) :
    decodeTable src max a n d = .ok fs d' ↔
      fs.length = n ∧ a + 4 * n ≤ src.len ∧ FramesAt src max a 0 fs ∧
        d' = ⟨a, cursorAfterFrames src a 0 0 fs, d.warn⟩ := by
  unfold decodeTable
  rw [Decoder.bind_of_ok (rebase_apply _ _ _)]
  by_cases h : a + 4 * n ≤ src.len
  · rw [Decoder.bind_of_ok (readPointers_ok (by exact h))]
    have hfr := decodeFrames_eq_ok (src := src) (max := max) (n := n) (i := 0) (fs := fs) (b := a) (c := 0 + 4 * n)
      (w := d.warn) (d' := d')
    simp only [Nat.zero_add] at hfr
    change decodeFrames src max ((List.range n).map fun i => BitVec.ofNat 32 (word src (a + 0 + 4 * i)))
      ⟨a, 0 + 4 * n, d.warn⟩ = _ ↔ _
    simp only [Nat.add_zero, Nat.zero_add]
    rw [hfr]
    have hcur : fs.length = n → cursorAfterFrames src a (4 * n) 0 fs = cursorAfterFrames src a 0 0 fs := by
      intro hlen
      by_cases hn : fs = []
      · subst hn
        simp at hlen
        simp [← hlen]
      · exact cursorAfterFrames_start hn
    constructor
    · rintro ⟨hlen, hfs, rfl⟩
      exact ⟨hlen, h, hfs, by rw [hcur hlen]⟩
    · rintro ⟨hlen, -, hfs, rfl⟩
      exact ⟨hlen, hfs, by rw [hcur hlen]⟩
  · constructor
    · intro hok
      rw [Decoder.bind_of_error (readPointers_error (by exact ha) (by exact Nat.lt_of_not_ge h))] at hok
      cases hok
    · exact fun hh => absurd hh.2.1 h

/-! ### The whole asset -/

theorem readHeader_ok {src : ByteSource} {d : DecodeState} (h : d.ea + 4 ≤ src.len) :
    readHeader src d = .ok ⟨src.byte (d.ea + 1), src.byte (d.ea + 2), src.byte (d.ea + 3)⟩ (d.forward 4) := by
  rw [readHeader, Decoder.bind_of_ok (read8_ok (by omega)), Decoder.bind_of_ok (read8_ok (by simp; omega)),
    forward_forward, Decoder.bind_of_ok (read8_ok (by simp; omega)), forward_forward,
    Decoder.bind_of_ok (read8_ok (by simp; omega)), forward_forward]
  simp only [forward_ea, Nat.reduceAdd]
  rfl

theorem readHeader_not_ok {src : ByteSource} {d d' : DecodeState} {r : Header} (hok : readHeader src d = .ok r d') :
    d.ea + 4 ≤ src.len := by
  simp only [readHeader, Decoder.bind_eq_ok, read8_eq_ok] at hok
  obtain ⟨_, _, ⟨-, -, rfl⟩, _, _, ⟨-, -, rfl⟩, _, _, ⟨-, -, rfl⟩, _, _, ⟨h, -, rfl⟩, -⟩ := hok
  simp only [forward_ea] at h
  omega

/-- The Reader and `WARN` after a completed asset decode (R174, R185). -/
def afterAsset (src : ByteSource) (a : Nat) (frames : List Frame) (warn : Bool) : DecodeState :=
  ⟨a + 4, cursorAfterFrames src (a + 4) 0 0 frames, warn || !(src.byte (a + 1) == 0 && src.byte (a + 2) == 1)⟩

theorem markersMatch_iff {src : ByteSource} {a : Nat} :
    MarkersMatch src a ↔ src.byte (a + 1) = 0 ∧ src.byte (a + 2) = 1 := by
  unfold MarkersMatch byteNat
  constructor
  · rintro ⟨h1, h2⟩
    exact ⟨BitVec.eq_of_toNat_eq h1, BitVec.eq_of_toNat_eq h2⟩
  · rintro ⟨h1, h2⟩
    exact ⟨by rw [h1]; rfl, by rw [h2]; rfl⟩

/-- Everything the asset decoder can do when it completes (R171): exactly when an asset lies at `A`, and, if strict, its
markers are right. -/
theorem decodeSpriteAsset_eq_ok {src : ByteSource} {max : Nat} {address : Word} {strict : Bool} {frames : List Frame}
    {d d' : DecodeState} :
    decodeSpriteAsset src max address strict d = .ok frames d' ↔
      AssetAt src max address.toNat frames ∧ (strict = true → MarkersMatch src address.toNat) ∧
        d' = afterAsset src address.toNat frames d.warn := by
  unfold decodeSpriteAsset AssetAt
  rw [Decoder.bind_of_ok (rebase_apply _ _ _)]
  by_cases h4 : address.toNat + 4 ≤ src.len
  · rw [Decoder.bind_of_ok (readHeader_ok (by exact h4))]
    simp only [ea_mk, Nat.add_zero, markersMatch_iff, consts_hdrBytes]
    have table : ∀ d₁ : DecodeState,
        decodeTable src max (address.toNat + 4) (src.byte (address.toNat + 3)).toNat d₁ = .ok frames d' ↔
          frames.length = byteNat src (address.toNat + 3) ∧ address.toNat + 4 + 4 * frames.length ≤ src.len ∧
            FramesAt src max (address.toNat + 4) 0 frames ∧
            d' = ⟨address.toNat + 4, cursorAfterFrames src (address.toNat + 4) 0 0 frames, d₁.warn⟩ := by
      intro d₁
      rw [decodeTable_eq_ok h4]
      constructor
      · rintro ⟨hn, hl, hf, hd⟩
        exact ⟨hn, by rw [hn]; exact hl, hf, hd⟩
      · rintro ⟨hn, hl, hf, hd⟩
        rw [hn] at hl
        exact ⟨hn, hl, hf, hd⟩
    by_cases hm : src.byte (address.toNat + 1) = 0 ∧ src.byte (address.toNat + 2) = 1
    · rw [Decoder.bind_of_ok (checkMarkers_match hm), table]
      have hw : (src.byte (address.toNat + 1) == 0 && src.byte (address.toNat + 2) == 1) = true := by simp [hm.1, hm.2]
      simp only [afterAsset, hw, Bool.not_true, Bool.or_false, forward_warn]
      tauto
    · have hw : (src.byte (address.toNat + 1) == 0 && src.byte (address.toNat + 2) == 1) = false := by
        rw [Bool.eq_false_iff]
        simpa using hm
      cases strict with
      | true =>
        rw [Decoder.bind_of_error (checkMarkers_strict hm)]
        simp only [reduceCtorEq, false_iff]
        tauto
      | false =>
        rw [Decoder.bind_of_ok (checkMarkers_lenient hm), table]
        simp only [afterAsset, hw, Bool.not_false, Bool.or_true, Bool.false_eq_true, false_imp_iff]
        tauto
  · constructor
    · intro h
      obtain ⟨_, _, h, -⟩ := Decoder.bind_eq_ok.1 h
      exact absurd (readHeader_not_ok h) h4
    · exact fun h => absurd h.1.1 h4

/-- The cursor after a run of frames is that after the last one (R185). -/
theorem cursorAfterFrames_last (src : ByteSource) (anchor c i : Nat) (fs : List Frame) :
    cursorAfterFrames src anchor c i fs = match fs.getLast? with
      | none => c
      | some f => cursorAfterFrame src anchor (word src (anchor + 4 * (i + (fs.length - 1)))) f := by
  induction fs generalizing c i with
  | nil => rfl
  | cons f fs ih =>
    rw [cursorAfterFrames, ih]
    cases fs with
    | nil => rfl
    | cons g gs =>
      rw [List.getLast?_cons_cons]
      cases h : (g :: gs).getLast? with
      | none => simp at h
      | some x =>
        simp only [List.length_cons]
        rw [show i + 1 + (gs.length + 1 - 1) = i + (gs.length + 1 + 1 - 1) by omega]

/-- The cursor after an asset, as the layout says it (R185). -/
theorem cursorAfterFrames_eq_assetCursor (src : ByteSource) (a : Nat) (fs : List Frame) :
    cursorAfterFrames src (a + 4) 0 0 fs = assetCursor src a fs := by
  rw [cursorAfterFrames_last]
  unfold assetCursor
  cases fs.getLast? with
  | none => rfl
  | some f => simp only [cursorAfterFrame, Nat.zero_add, Nat.add_assoc]

/-- The marker test on bytes and on their numbers. -/
theorem markers_beq (src : ByteSource) (a : Nat) :
    (byteNat src (a + 1) == 0 && byteNat src (a + 2) == 1) =
      (src.byte (a + 1) == 0 && src.byte (a + 2) == 1) := by
  have h0 : ∀ b : Byte, (b.toNat == 0) = (b == 0) := by decide
  have h1 : ∀ b : Byte, (b.toNat == 1) = (b == 1) := by decide
  simp only [byteNat, h0, h1]

end Sys2Proof.Machine
end

