-- ==== Sys2Proof/Laws/Bounds.lean ====
section
/-! SUPPORT. The bounds every decoder keeps (10_state.md R23, R27): the Reader's two registers stay below 2^34, and a fault's
`EINFO` is below 2^35 with a legal `EWIDTH`. -/

namespace Sys2Proof.Machine

open Layout

/-- The Reader's registers are below 2^34 (R23). -/
def DecodeState.Bounded (d : DecodeState) : Prop := d.base < 2 ^ 34 ∧ d.cursor < 2 ^ 34

/-- What a fault records fits its registers (R27). -/
def Raise.Bounded (k : Raise) : Prop := k.info < 2 ^ 35 ∧ k.width ∈ [0, 1, 2, 4]

/-- A decoder that keeps the bounds. -/
def Decoder.Bounded {α : Type} (m : Decoder α) : Prop :=
  ∀ d, d.Bounded → (∀ a d', m d = .ok a d' → d'.Bounded) ∧ (∀ k d', m d = .error k d' → d'.Bounded ∧ k.Bounded)

theorem Decoder.Bounded.bind {α β : Type} {m : Decoder α} {f : α → Decoder β} (hm : m.Bounded)
    (hf : ∀ a, (f a).Bounded) : (m >>= f).Bounded := by
  intro d hd
  refine ⟨fun b d' h => ?_, fun k d' h => ?_⟩
  · obtain ⟨a, d₁, h₁, h₂⟩ := Decoder.bind_eq_ok.1 h
    exact (hf a d₁ ((hm d hd).1 a d₁ h₁)).1 b d' h₂
  · rcases Decoder.bind_eq_error.1 h with h | ⟨a, d₁, h₁, h₂⟩
    · exact (hm d hd).2 k d' h
    · exact (hf a d₁ ((hm d hd).1 a d₁ h₁)).2 k d' h₂

theorem Decoder.Bounded.pure {α : Type} (a : α) : (Pure.pure a : Decoder α).Bounded := by
  intro d hd
  refine ⟨fun b d' h => ?_, fun k d' h => by (cases h)⟩
  cases h
  exact hd

theorem Decoder.Bounded.fail {α : Type} {k : Raise} (hk : k.Bounded) : (Decoder.fail k : Decoder α).Bounded := by
  intro d hd
  refine ⟨fun b d' h => by (cases h), fun k' d' h => ?_⟩
  cases h
  exact ⟨hd, hk⟩

variable {src : ByteSource}

theorem bounded_rebase {b c : Nat} (hb : b < 2 ^ 34) (hc : c < 2 ^ 34) : (rebase b c).Bounded := by
  intro d _
  refine ⟨fun u d' h => ?_, fun k d' h => by (cases h)⟩
  cases h
  exact ⟨hb, hc⟩

theorem bounded_seek {c : Nat} (hc : c < 2 ^ 34) : (seek c).Bounded := by
  intro d hd
  refine ⟨fun u d' h => ?_, fun k d' h => by (cases h)⟩
  cases h
  exact ⟨hd.1, hc⟩

theorem bounded_setWarn : setWarn.Bounded := by
  intro d hd
  refine ⟨fun u d' h => ?_, fun k d' h => by (cases h)⟩
  cases h
  exact hd

theorem word_toNat_lt (w : Word) : w.toNat < 2 ^ 34 := by
  have := w.isLt
  omega

theorem bounded_read8 (hlen : src.len ≤ 2 ^ 32) : (read8 src).Bounded := by
  intro d hd
  refine ⟨fun v d' h => ?_, fun k d' h => ?_⟩
  · obtain ⟨hfit, -, rfl⟩ := read8_eq_ok.1 h
    simp only [DecodeState.ea] at hfit
    exact ⟨hd.1, by simp only [forward_cursor]; omega⟩
  · obtain ⟨-, rfl, rfl⟩ := read8_eq_error.1 h
    have := hd.1
    have := hd.2
    exact ⟨hd, by simp only [Raise.info, DecodeState.ea]; omega, by simp [Raise.width]⟩

theorem bounded_read16 (hlen : src.len ≤ 2 ^ 32) : (read16 src).Bounded := by
  intro d hd
  refine ⟨fun v d' h => ?_, fun k d' h => ?_⟩
  · obtain ⟨hfit, -, rfl⟩ := read16_eq_ok.1 h
    simp only [DecodeState.ea] at hfit
    exact ⟨hd.1, by simp only [forward_cursor]; omega⟩
  · obtain ⟨-, rfl, rfl⟩ := read16_eq_error.1 h
    have := hd.1
    have := hd.2
    exact ⟨hd, by simp only [Raise.info, DecodeState.ea]; omega, by simp [Raise.width]⟩

theorem bounded_read32 (hlen : src.len ≤ 2 ^ 32) : (read32 src).Bounded := by
  intro d hd
  refine ⟨fun v d' h => ?_, fun k d' h => ?_⟩
  · obtain ⟨hfit, -, rfl⟩ := read32_eq_ok.1 h
    simp only [DecodeState.ea] at hfit
    exact ⟨hd.1, by simp only [forward_cursor]; omega⟩
  · obtain ⟨-, rfl, rfl⟩ := read32_eq_error.1 h
    have := hd.1
    have := hd.2
    exact ⟨hd, by simp only [Raise.info, DecodeState.ea]; omega, by simp [Raise.width]⟩

theorem bounded_readColours (hlen : src.len ≤ 2 ^ 32) (n : Nat) : (readColours src n).Bounded := by
  induction n with
  | zero => exact .pure _
  | succ n ih => exact (bounded_read16 hlen).bind fun _ => ih.bind fun _ => .pure _

theorem bounded_decodePalette (hlen : src.len ≤ 2 ^ 32) : (decodePalette src).Bounded :=
  (bounded_read32 hlen).bind fun _ => bounded_readColours hlen _

theorem bounded_readCells (hlen : src.len ≤ 2 ^ 32) (n : Nat) : (readCells src n).Bounded := by
  induction n with
  | zero => exact .pure _
  | succ n ih => exact (bounded_read8 hlen).bind fun _ => ih.bind fun _ => .pure _

theorem bounded_readTiles (hlen : src.len ≤ 2 ^ 32) (n : Nat) : (readTiles src n).Bounded := by
  induction n with
  | zero => exact .pure _
  | succ n ih => exact (bounded_readCells hlen _).bind fun _ => ih.bind fun _ => .pure _

theorem bounded_decodeTilemap (hlen : src.len ≤ 2 ^ 32) : (decodeTilemap src).Bounded :=
  (bounded_read32 hlen).bind fun _ => bounded_readTiles hlen _

theorem bounded_readRecord (hlen : src.len ≤ 2 ^ 32) : (readRecord src).Bounded :=
  (bounded_read8 hlen).bind fun _ => (bounded_read8 hlen).bind fun _ => (bounded_read8 hlen).bind fun _ =>
    (bounded_read8 hlen).bind fun _ => (bounded_read8 hlen).bind fun _ => .pure _

theorem bounded_skipLeadIn (hlen : src.len ≤ 2 ^ 32) : (skipLeadIn src).Bounded := by
  intro d hd
  have hb := hd.1
  have hc := hd.2
  by_cases h4 : d.ea + 4 ≤ src.len
  · have hw := word_lt src d.ea
    simp only [DecodeState.ea] at h4
    by_cases hs : 4 ≤ word src d.ea
    · rw [skipLeadIn_ok h4 hs]
      refine ⟨fun u d' h => ?_, fun k d' h => by (cases h)⟩
      cases h
      exact ⟨hb, by simp only [forward_cursor]; omega⟩
    · rw [skipLeadIn_error h4 (by omega)]
      refine ⟨fun u d' h => by (cases h), fun k d' h => ?_⟩
      cases h
      refine ⟨⟨hb, by simp only [forward_cursor]; omega⟩, ?_, by simp [Raise.width]⟩
      simp only [Raise.info, ofNat_word_toNat]
      omega
  · rw [skipLeadIn_error_read (by omega)]
    refine ⟨fun u d' h => by (cases h), fun k d' h => ?_⟩
    cases h
    exact ⟨hd, by simp only [Raise.info, DecodeState.ea]; omega, by simp [Raise.width]⟩

theorem emit_bounded {max rstart : Nat} {r : Record} {list : List Placement} {k : Raise} (hr : rstart < 2 ^ 35)
    (h : r.emit max rstart list = .error k) : k.Bounded := by
  rcases emit_eq_error.1 h with ⟨-, rfl⟩ | ⟨-, -, rfl⟩
  · exact ⟨hr, by simp [Raise.width]⟩
  · exact ⟨by simp only [Raise.info]; omega, by simp [Raise.width]⟩

theorem bounded_walkRecords (hlen : src.len ≤ 2 ^ 32) (max room : Nat) (list : List Placement) :
    (walkRecords src max room list).Bounded := by
  induction room generalizing list with
  | zero =>
    intro d hd
    have hb := hd.1
    have hc := hd.2
    rw [walkRecords, Decoder.bind_of_ok (readerAddress_apply d), Decoder.fail_apply]
    refine ⟨fun u d' h => by (cases h), fun k d' h => ?_⟩
    cases h
    exact ⟨hd, by simp only [Raise.info, DecodeState.ea]; omega, by simp [Raise.width]⟩
  | succ room ih =>
    intro d hd
    have hb := hd.1
    have hc := hd.2
    rw [walkRecords, Decoder.bind_of_ok (readerAddress_apply d)]
    refine ((bounded_readRecord hlen).bind fun r => ?_) d hd
    split
    · exact .pure _
    · cases hem : r.emit max d.ea list with
      | error k => exact .fail (emit_bounded (by simp only [DecodeState.ea]; omega) hem)
      | ok list' => exact ih list'

theorem bounded_decodePlacements (hlen : src.len ≤ 2 ^ 32) (max : Nat) : (decodePlacements src max).Bounded :=
  (bounded_skipLeadIn hlen).bind fun _ => bounded_walkRecords hlen _ _ _

theorem bounded_readPointers (hlen : src.len ≤ 2 ^ 32) (n : Nat) : (readPointers src n).Bounded := by
  induction n with
  | zero => exact .pure _
  | succ n ih => exact (bounded_read32 hlen).bind fun _ => ih.bind fun _ => .pure _

theorem bounded_skipBytes (hlen : src.len ≤ 2 ^ 32) (n : Nat) : (skipBytes src n).Bounded := by
  induction n with
  | zero => exact .pure _
  | succ n ih => exact (bounded_read8 hlen).bind fun _ => ih

theorem bounded_readAnimRecord (hlen : src.len ≤ 2 ^ 32) : (readAnimRecord src).Bounded :=
  (bounded_read32 hlen).bind fun _ => (bounded_read32 hlen).bind fun _ => (bounded_read32 hlen).bind fun _ =>
    (bounded_read32 hlen).bind fun _ => (bounded_read8 hlen).bind fun _ => (bounded_read8 hlen).bind fun _ =>
      (bounded_read8 hlen).bind fun _ => (bounded_skipBytes hlen _).bind fun _ => .pure _

theorem bounded_decodeFrame (hlen : src.len ≤ 2 ^ 32) (max : Nat) (ptr : Word) :
    (decodeFrame src max ptr).Bounded :=
  (bounded_seek (word_toNat_lt _)).bind fun _ => (bounded_readAnimRecord hlen).bind fun _ =>
    (bounded_seek (word_toNat_lt _)).bind fun _ => (bounded_decodeTilemap hlen).bind fun _ =>
      (bounded_seek (word_toNat_lt _)).bind fun _ => (bounded_decodePalette hlen).bind fun _ =>
        (bounded_seek (word_toNat_lt _)).bind fun _ => (bounded_decodePlacements hlen _).bind fun _ => .pure _

theorem bounded_decodeFrames (hlen : src.len ≤ 2 ^ 32) (max : Nat) (ptrs : List Word) :
    (decodeFrames src max ptrs).Bounded := by
  induction ptrs with
  | nil => exact .pure _
  | cons ptr ptrs ih => exact (bounded_decodeFrame hlen max ptr).bind fun _ => ih.bind fun _ => .pure _

theorem bounded_checkMarkers (strict : Bool) (h1 h2 : Byte) : (checkMarkers strict h1 h2).Bounded := by
  unfold checkMarkers
  split
  · exact .pure _
  · split
    · refine .fail ⟨?_, by simp [Raise.width]⟩
      have := h1.isLt
      have := h2.isLt
      simp only [Raise.info]
      omega
    · exact bounded_setWarn

theorem bounded_readHeader (hlen : src.len ≤ 2 ^ 32) : (readHeader src).Bounded :=
  (bounded_read8 hlen).bind fun _ => (bounded_read8 hlen).bind fun _ => (bounded_read8 hlen).bind fun _ =>
    (bounded_read8 hlen).bind fun _ => .pure _

theorem bounded_decodeSpriteAsset (hlen : src.len ≤ 2 ^ 32) (max : Nat) (address : Word) (strict : Bool) :
    (decodeSpriteAsset src max address strict).Bounded := by
  have ha := address.isLt
  exact (bounded_rebase (word_toNat_lt _) (by omega)).bind fun _ => (bounded_readHeader hlen).bind fun _ =>
    (bounded_checkMarkers _ _ _).bind fun _ =>
      (bounded_rebase (by simp only [consts_hdrBytes]; omega) (by omega)).bind fun _ =>
        (bounded_readPointers hlen _).bind fun _ => bounded_decodeFrames hlen _ _

theorem bounded_lookupEntry (index : Word) : (lookupEntry src index).Bounded := by
  intro d hd
  have hi := index.isLt
  unfold lookupEntry
  by_cases h : lookupAddress index + 4 ≤ src.len
  · rw [memRead_ok h]
    refine ⟨fun u d' h => ?_, fun k d' h => by (cases h)⟩
    cases h
    exact hd
  · rw [memRead_error (by omega)]
    refine ⟨fun u d' h => by (cases h), fun k d' h => ?_⟩
    cases h
    exact ⟨hd, by simp only [Raise.info, lookupAddress, consts_lookupBase]; omega, by simp [Raise.width]⟩

end Sys2Proof.Machine
end

