-- ==== Sys2Proof/Laws/Sparse.lean ====
section
/-! SUPPORT. The laws of sparse data: a read after a write, and that a write keeps the canonical form and lists no key
but its own. -/

namespace Sys2Proof.Machine.Sparse

variable {α : Type} [DecidableEq α] {d : α}

theorem wfFrom_mono {lo lo' : Nat} {m : List (Nat × α)} (h : wfFrom d lo' m = true) (hle : lo ≤ lo') :
    wfFrom d lo m = true := by
  cases m with
  | nil => rfl
  | cons e rest =>
    obtain ⟨k, v⟩ := e
    simp only [wfFrom, Bool.and_eq_true, decide_eq_true_eq] at h ⊢
    exact ⟨⟨by omega, h.1.2⟩, h.2⟩

/-- Below the first listed key everything reads as the unlisted value. -/
theorem get_below {lo k : Nat} {m : List (Nat × α)} (h : wfFrom d lo m = true) (hk : k < lo) : get d m k = d := by
  induction m generalizing lo with
  | nil => rfl
  | cons e rest ih =>
    obtain ⟨k', v⟩ := e
    simp only [wfFrom, Bool.and_eq_true, decide_eq_true_eq] at h
    rw [get, if_neg (by omega)]
    exact ih h.2 (by omega)

theorem get_put_self {k : Nat} {v : α} {m : List (Nat × α)} (h : get d m k = d) : get d (put d k v m) k = v := by
  unfold put
  split
  · simp_all
  · simp [get]

theorem get_put_other {k j : Nat} {v : α} {m : List (Nat × α)} (h : j ≠ k) : get d (put d k v m) j = get d m j := by
  unfold put
  split
  · rfl
  · rw [get, if_neg (Ne.symm h)]

/-- A read after a write to the same key gives the value written. -/
theorem get_set_self {lo k : Nat} {v : α} {m : List (Nat × α)} (h : wfFrom d lo m = true) :
    get d (set d m k v) k = v := by
  induction m generalizing lo with
  | nil => exact get_put_self rfl
  | cons e rest ih =>
    obtain ⟨k', v'⟩ := e
    simp only [wfFrom, Bool.and_eq_true, decide_eq_true_eq] at h
    unfold set
    split
    · refine get_put_self ?_
      rw [get, if_neg (by omega)]
      exact get_below h.2 (by omega)
    · split
      · exact get_put_self (get_below h.2 (by omega))
      · rw [get, if_neg (by omega)]
        exact ih h.2

/-- A write leaves every other key alone. -/
theorem get_set_other {k j : Nat} {v : α} {m : List (Nat × α)} (h : j ≠ k) : get d (set d m k v) j = get d m j := by
  induction m with
  | nil => exact get_put_other h
  | cons e rest ih =>
    obtain ⟨k', v'⟩ := e
    unfold set
    split
    · exact get_put_other h
    · split
      · rename_i hk
        subst hk
        rw [get_put_other h, get, if_neg (Ne.symm h)]
      · by_cases hj : k' = j
        · simp [get, hj]
        · rw [get, get, if_neg hj, if_neg hj, ih]

theorem wfFrom_put {lo k : Nat} {v : α} {m : List (Nat × α)} (h : wfFrom d (k + 1) m = true) (hk : lo ≤ k) :
    wfFrom d lo (put d k v m) = true := by
  unfold put
  split
  · exact wfFrom_mono h (by omega)
  · simp_all [wfFrom]

theorem wfFrom_set {lo k : Nat} {v : α} {m : List (Nat × α)} (h : wfFrom d lo m = true) (hk : lo ≤ k) :
    wfFrom d lo (set d m k v) = true := by
  induction m generalizing lo with
  | nil => exact wfFrom_put rfl hk
  | cons e rest ih =>
    obtain ⟨k', v'⟩ := e
    have h' := h
    simp only [wfFrom, Bool.and_eq_true, decide_eq_true_eq] at h
    unfold set
    split
    · refine wfFrom_put ?_ hk
      simp only [wfFrom, Bool.and_eq_true, decide_eq_true_eq]
      exact ⟨⟨by omega, h.1.2⟩, h.2⟩
    · split
      · rename_i hkk
        subst hkk
        exact wfFrom_put h.2 hk
      · simp only [wfFrom, Bool.and_eq_true, decide_eq_true_eq]
        exact ⟨h.1, ih h.2 (by omega)⟩

/-- A write keeps the canonical form. -/
theorem wf_set {k : Nat} {v : α} {m : List (Nat × α)} (h : wf d m = true) : wf d (set d m k v) = true :=
  wfFrom_set h (Nat.zero_le k)

theorem mem_put {k : Nat} {v : α} {m : List (Nat × α)} {c : Nat × α} (h : c ∈ put d k v m) : c.1 = k ∨ c ∈ m := by
  unfold put at h
  split at h
  · exact .inr h
  · rcases List.mem_cons.1 h with rfl | h
    · exact .inl rfl
    · exact .inr h

/-- A write lists no key but its own that was not listed before. -/
theorem mem_set {k : Nat} {v : α} {m : List (Nat × α)} {c : Nat × α} (h : c ∈ set d m k v) : c.1 = k ∨ c ∈ m := by
  induction m with
  | nil => exact mem_put h
  | cons e rest ih =>
    obtain ⟨k', v'⟩ := e
    unfold set at h
    split at h
    · exact mem_put h
    · split at h
      · rcases mem_put h with h | h
        · exact .inl h
        · exact .inr (List.mem_cons_of_mem _ h)
      · rcases List.mem_cons.1 h with rfl | h
        · exact .inr List.mem_cons_self
        · rcases ih h with h | h
          · exact .inl h
          · exact .inr (List.mem_cons_of_mem _ h)

/-- Equal canonical contents are equal lists. -/
theorem wfFrom_ext {lo lo' : Nat} {m m' : List (Nat × α)} (h : wfFrom d lo m = true) (h' : wfFrom d lo' m' = true)
    (heq : ∀ k, get d m k = get d m' k) : m = m' := by
  induction m generalizing lo lo' m' with
  | nil =>
    cases m' with
    | nil => rfl
    | cons e rest =>
      obtain ⟨k, v⟩ := e
      simp only [wfFrom, Bool.and_eq_true, decide_eq_true_eq, Bool.not_eq_true', decide_eq_false_iff_not] at h'
      have := heq k
      simp only [get, if_true] at this
      exact absurd this.symm h'.1.2
  | cons e rest ih =>
    obtain ⟨k, v⟩ := e
    have hw := h
    simp only [wfFrom, Bool.and_eq_true, decide_eq_true_eq, Bool.not_eq_true', decide_eq_false_iff_not] at h
    cases m' with
    | nil =>
      have := heq k
      simp only [get, if_true] at this
      exact absurd this h.1.2
    | cons e' rest' =>
      obtain ⟨k', v'⟩ := e'
      have hw' := h'
      simp only [wfFrom, Bool.and_eq_true, decide_eq_true_eq, Bool.not_eq_true', decide_eq_false_iff_not] at h'
      have hkk : k = k' := by
        rcases Nat.lt_trichotomy k k' with hlt | heq' | hgt
        · have e1 := heq k
          rw [get, if_pos rfl, get, if_neg (by omega), get_below h'.2 (by omega)] at e1
          exact absurd e1 h.1.2
        · exact heq'
        · have e1 := heq k'
          rw [get, if_neg (by omega), get_below h.2 (by omega), get, if_pos rfl] at e1
          exact absurd e1.symm h'.1.2
      subst hkk
      have hvv : v = v' := by simpa [get] using heq k
      subst hvv
      refine congrArg _ (ih h.2 h'.2 fun j => ?_)
      by_cases hj : k = j
      · subst hj
        rw [get_below h.2 (by omega), get_below h'.2 (by omega)]
      · simpa [get, hj] using heq j

end Sys2Proof.Machine.Sparse
end

