-- ==== Sys2Proof/Laws/Compositor.lean ====
section
/-! SUPPORT. What the compositor's parts do: fetching tiles in tile order, the local buffer cell by cell, the palette
resolution, and the canvas pixel by pixel (45_compositor.md R194 to R206). -/

namespace Sys2Proof.Machine

open Layout

/-! ### Tiles -/

theorem fetchTiles_ok {tiles : List Tile} {t n : Nat} (h : t + n ≤ tiles.length) :
    fetchTiles tiles t n = .ok ((tiles.drop t).take n) := by
  induction n generalizing t with
  | zero => simp [fetchTiles]
  | succ n ih =>
    have ht : t < tiles.length := by omega
    rw [fetchTiles, List.getElem?_eq_getElem ht]
    simp only [ih (t := t + 1) (by omega), List.drop_eq_getElem_cons ht, List.take_succ_cons]

/-- The first missing tile in tile order is number `max(startTile, NT)` (R196). -/
theorem fetchTiles_error {tiles : List Tile} {t n : Nat} (hn : 0 < n) (h : tiles.length < t + n) :
    fetchTiles tiles t n = .error (.tileIndexOutOfRange (max t tiles.length)) := by
  induction n generalizing t with
  | zero => omega
  | succ n ih =>
    rw [fetchTiles]
    by_cases ht : t < tiles.length
    · rw [List.getElem?_eq_getElem ht]
      simp only [ih (t := t + 1) (by omega) (by omega)]
      rw [show max (t + 1) tiles.length = max t tiles.length by omega]
    · rw [List.getElem?_eq_none (by omega), Nat.max_eq_left (by omega)]

/-! ### The local buffer -/

/-- Before the flip, cell `(x, y)` is the cell of the tile that covers it (R194, R195). -/
theorem composeBuffer_eq (w h : Nat) (tiles : List Tile) :
    composeBuffer w h tiles = (List.range (8 * h)).map fun y => (List.range (8 * w)).map fun x =>
      (tiles.getD ((y / 8) * w + x / 8) []).getD (8 * (y % 8) + x % 8) 0 := rfl

/-- The reverse of a row given by columns is the row read from the other end (R197). -/
theorem reverse_range_map {α : Type} (n : Nat) (f : Nat → α) :
    ((List.range n).map f).reverse = (List.range n).map fun x => f (n - 1 - x) := by
  apply List.ext_getElem
  · simp
  · intro i h1 h2
    simp

theorem getD_take_drop {α : Type} (l : List α) (t n i : Nat) (d : α) (hi : i < n) :
    ((l.drop t).take n).getD i d = l.getD (t + i) d := by
  simp [List.getD_eq_getElem?_getD, hi]

/-- The whole local buffer of a placement, flip included, is the index formula of R203. -/
theorem buffer_eq_shownIndex (p : Placement) (tiles : List Tile) :
    p.buffer ((tiles.drop p.startTile.toNat).take (p.w * p.h)) =
      (List.range (8 * p.h)).map fun y => (List.range (8 * p.w)).map fun x => shownIndex tiles p x y := by
  have hidx : ∀ x y, x < 8 * p.w → y < 8 * p.h → (y / 8) * p.w + x / 8 < p.w * p.h := by
    intro x y hx hy
    have h1 : y / 8 + 1 ≤ p.h := by omega
    have h2 : (y / 8 + 1) * p.w ≤ p.h * p.w := Nat.mul_le_mul_right _ h1
    rw [Nat.add_mul, Nat.mul_comm p.h, Nat.one_mul] at h2
    omega
  unfold Placement.buffer
  split
  · rename_i hf
    rw [mirrorRows, composeBuffer_eq, List.map_map]
    apply List.map_congr_left
    intro y hy
    rw [List.mem_range] at hy
    rw [Function.comp_apply, reverse_range_map]
    apply List.map_congr_left
    intro x hx
    rw [List.mem_range] at hx
    rw [shownIndex, if_pos hf, getD_take_drop _ _ _ _ _ (hidx _ _ (by omega) hy), Nat.add_assoc]
  · rename_i hf
    rw [composeBuffer_eq]
    apply List.map_congr_left
    intro y hy
    rw [List.mem_range] at hy
    apply List.map_congr_left
    intro x hx
    rw [List.mem_range] at hx
    rw [shownIndex, if_neg hf, getD_take_drop _ _ _ _ _ (hidx _ _ hx hy), Nat.add_assoc]

theorem channel8_toNat (c : BitVec 5) : (channel8 c).toNat = 8 * c.toNat := by
  have := c.isLt
  simp only [channel8, consts_chScale, BitVec.toNat_ofNat]
  omega

theorem resolveCell_eq (pal : List Colour) (v : Byte) : resolveCell pal v = shownPixel pal v := by
  unfold resolveCell shownPixel
  have h : v = 0 ↔ v.toNat = 0 := by
    rw [← BitVec.toNat_inj]
    rfl
  simp only [h]
  rfl

/-- The output block of a completed composition is the formula of R203. -/
theorem resolve_buffer_eq (p : Placement) (pal : List Colour) (tiles : List Tile) :
    resolveBuffer pal (p.buffer ((tiles.drop p.startTile.toNat).take (p.w * p.h))) =
      (List.range (8 * p.h)).map fun y => (List.range (8 * p.w)).map fun x =>
        shownPixel pal (shownIndex tiles p x y) := by
  rw [buffer_eq_shownIndex, resolveBuffer, List.map_map]
  simp only [Function.comp_def, List.map_map, resolveCell_eq]

theorem xformByte_toNat (v : Byte) : (xformByte v).toNat = (v.toNat + 128) % 256 := by
  simp [xformByte]

/-! ### Composing -/

theorem composePlacement_notReady {index : Word} {s : State} (h : s.ready = false) :
    composePlacement index s = .faulted (s.raise .notReady) := by
  simp [composePlacement, h]

theorem composePlacement_badOperand {index : Word} {s : State} (h : s.ready = true) (hp : s.np ≤ index.toNat) :
    composePlacement index s = .faulted (s.raise (.badOperand index)) := by
  have : s.wplist[index.toNat]? = none := List.getElem?_eq_none hp
  simp [composePlacement, h, this]

theorem composePlacement_missingTile {index : Word} {s : State} {p : Placement} (h : s.ready = true)
    (hp : s.wplist[index.toNat]? = some p) (hn : 0 < p.w * p.h) (ht : s.nt < p.startTile.toNat + p.w * p.h) :
    composePlacement index s =
      .faulted (s.invalidateBlock.raise (.tileIndexOutOfRange (max p.startTile.toNat s.nt))) := by
  rw [composePlacement, if_pos h]
  simp only [hp, fetchTiles_error hn ht]
  rfl

theorem composePlacement_done {index : Word} {s : State} {p : Placement} (h : s.ready = true)
    (hp : s.wplist[index.toNat]? = some p) (ht : p.startTile.toNat + p.w * p.h ≤ s.nt) :
    composePlacement index s = .done (s.storeBlock p ((s.wtiles.drop p.startTile.toNat).take (p.w * p.h))) := by
  rw [composePlacement, if_pos h]
  simp only [hp, fetchTiles_ok ht]

/-- Everything a composition can do. -/
theorem composePlacement_cases (index : Word) (s : State) :
    (s.ready = false ∧ composePlacement index s = .faulted (s.raise .notReady)) ∨
    (s.ready = true ∧ s.np ≤ index.toNat ∧ composePlacement index s = .faulted (s.raise (.badOperand index))) ∨
    (∃ p, s.ready = true ∧ s.wplist[index.toNat]? = some p ∧ s.nt < p.startTile.toNat + p.w * p.h ∧ 0 < p.w * p.h ∧
      composePlacement index s =
        .faulted (s.invalidateBlock.raise (.tileIndexOutOfRange (max p.startTile.toNat s.nt)))) ∨
    (∃ p tiles, s.ready = true ∧ s.wplist[index.toNat]? = some p ∧ (∀ t ∈ tiles, t ∈ s.wtiles) ∧
      composePlacement index s = .done (s.storeBlock p tiles)) := by
  cases h : s.ready with
  | false => exact .inl ⟨rfl, composePlacement_notReady h⟩
  | true =>
    right
    cases hp : s.wplist[index.toNat]? with
    | none =>
      have hle : s.np ≤ index.toNat := List.getElem?_eq_none_iff.1 hp
      exact .inl ⟨rfl, hle, composePlacement_badOperand h hle⟩
    | some p =>
      right
      by_cases hn : 0 < p.w * p.h
      · by_cases ht : s.nt < p.startTile.toNat + p.w * p.h
        · exact .inl ⟨p, rfl, rfl, ht, hn, composePlacement_missingTile h hp hn ht⟩
        · refine .inr ⟨p, _, rfl, rfl, fun t htm => ?_, composePlacement_done h hp (by omega)⟩
          exact List.mem_of_mem_drop (List.mem_of_mem_take htm)
      · have h0 : p.w * p.h = 0 := by omega
        refine .inr ⟨p, [], rfl, rfl, by simp, ?_⟩
        rw [composePlacement, if_pos h]
        simp only [hp, h0, fetchTiles]

/-! ### The canvas -/

@[simp] theorem Canvas.write_width (c : Canvas) (x y : Nat) (v : Rgba) : (c.write x y v).width = c.width := by
  unfold Canvas.write
  split <;> rfl

@[simp] theorem Canvas.write_height (c : Canvas) (x y : Nat) (v : Rgba) : (c.write x y v).height = c.height := by
  unfold Canvas.write
  split <;> rfl

theorem pixelKey_inj {W x y x' y' : Nat} (hx : x < W) (hx' : x' < W) (h : y * W + x = y' * W + x') :
    x = x' ∧ y = y' := by
  have hW : 0 < W := by omega
  have h1 : (y * W + x) % W = x := by rw [Nat.mul_comm, Nat.mul_add_mod, Nat.mod_eq_of_lt hx]
  have h2 : (y' * W + x') % W = x' := by rw [Nat.mul_comm, Nat.mul_add_mod, Nat.mod_eq_of_lt hx']
  have hxx : x = x' := by rw [← h1, h, h2]
  subst hxx
  exact ⟨rfl, Nat.eq_of_mul_eq_mul_right hW (by omega)⟩

/-- A canvas write changes its own pixel, where there is one, and no other (R206, R207). -/
theorem Canvas.pixel_write {c : Canvas} (hc : Sparse.wf Rgba.blank c.pixels = true) (x y a b : Nat) (v : Rgba) :
    (c.write x y v).pixel a b = if a = x ∧ b = y ∧ x < c.width ∧ y < c.height then some v else c.pixel a b := by
  unfold Canvas.write
  by_cases hin : x < c.width ∧ y < c.height
  · rw [if_pos hin]
    by_cases hab : a = x ∧ b = y
    · obtain ⟨rfl, rfl⟩ := hab
      simp only [Canvas.pixel, if_pos hin, true_and]
      rw [Sparse.get_set_self hc]
    · rw [if_neg (fun h => hab ⟨h.1, h.2.1⟩)]
      unfold Canvas.pixel
      by_cases hin' : a < c.width ∧ b < c.height
      · rw [if_pos hin', if_pos hin', Sparse.get_set_other]
        intro hk
        exact hab (pixelKey_inj hin'.1 hin.1 hk)
      · rw [if_neg hin', if_neg hin']
  · rw [if_neg hin, if_neg (fun h => hin ⟨h.2.2.1, h.2.2.2⟩)]

theorem Canvas.write_wf {c : Canvas} (hc : Sparse.wf Rgba.blank c.pixels = true) (x y : Nat) (v : Rgba) :
    Sparse.wf Rgba.blank (c.write x y v).pixels = true := by
  unfold Canvas.write
  split
  · exact Sparse.wf_set hc
  · exact hc

theorem Canvas.write_inside {c : Canvas} (hc : ∀ e ∈ c.pixels, e.1 < c.width * c.height) (x y : Nat) (v : Rgba) :
    ∀ e ∈ (c.write x y v).pixels, e.1 < (c.write x y v).width * (c.write x y v).height := by
  rw [Canvas.write_width, Canvas.write_height]
  unfold Canvas.write
  split
  · rename_i hin
    intro e he
    rcases Sparse.mem_set he with h | h
    · have h1 : (y + 1) * c.width ≤ c.height * c.width := Nat.mul_le_mul_right _ hin.2
      rw [Nat.add_mul, Nat.one_mul, Nat.mul_comm c.height] at h1
      rw [h]
      omega
    · exact hc e h
  · exact hc

/-- What holds of a canvas and is kept by every canvas write is kept by a row of writes. -/
theorem blitRow_keeps {P : Canvas → Prop} (hw : ∀ c x y v, P c → P (c.write x y v)) (x y : Nat)
    (row : List (Option Rgba)) (c : Canvas) (hc : P c) : P (blitRow x y row c) := by
  induction row generalizing x c with
  | nil => exact hc
  | cons q row ih =>
    cases q with
    | none => exact ih _ _ hc
    | some q => exact ih _ _ (hw _ _ _ _ hc)

/-- What holds of a canvas and is kept by every canvas write is kept by a block of writes. -/
theorem blitRows_keeps {P : Canvas → Prop} (hw : ∀ c x y v, P c → P (c.write x y v)) (x y : Nat)
    (rows : List (List (Option Rgba))) (c : Canvas) (hc : P c) : P (blitRows x y rows c) := by
  induction rows generalizing y c with
  | nil => exact hc
  | cons row rows ih => exact ih _ _ (blitRow_keeps hw _ _ _ _ hc)

@[simp] theorem blitRow_width (x y : Nat) (row : List (Option Rgba)) (c : Canvas) :
    (blitRow x y row c).width = c.width :=
  blitRow_keeps (P := fun c' => c'.width = c.width) (fun _ _ _ _ h => by simpa using h) x y row c rfl

@[simp] theorem blitRow_height (x y : Nat) (row : List (Option Rgba)) (c : Canvas) :
    (blitRow x y row c).height = c.height :=
  blitRow_keeps (P := fun c' => c'.height = c.height) (fun _ _ _ _ h => by simpa using h) x y row c rfl

@[simp] theorem blitRows_width (x y : Nat) (rows : List (List (Option Rgba))) (c : Canvas) :
    (blitRows x y rows c).width = c.width :=
  blitRows_keeps (P := fun c' => c'.width = c.width) (fun _ _ _ _ h => by simpa using h) x y rows c rfl

@[simp] theorem blitRows_height (x y : Nat) (rows : List (List (Option Rgba))) (c : Canvas) :
    (blitRows x y rows c).height = c.height :=
  blitRows_keeps (P := fun c' => c'.height = c.height) (fun _ _ _ _ h => by simpa using h) x y rows c rfl

theorem blitRow_wf {c : Canvas} (hc : Sparse.wf Rgba.blank c.pixels = true) (x y : Nat) (row : List (Option Rgba)) :
    Sparse.wf Rgba.blank (blitRow x y row c).pixels = true :=
  blitRow_keeps (P := fun c => Sparse.wf Rgba.blank c.pixels = true) (fun _ _ _ _ h => Canvas.write_wf h _ _ _) x y row
    c hc

/-- A row of writes changes exactly the canvas pixels under the row's opaque pixels (R206). -/
theorem pixel_blitRow {c : Canvas} (hc : Sparse.wf Rgba.blank c.pixels = true) (x y a b : Nat)
    (row : List (Option Rgba)) :
    (blitRow x y row c).pixel a b =
      if b = y ∧ x ≤ a ∧ a < c.width ∧ b < c.height then
        match row[a - x]? with
        | some (some q) => some { q with a := 255 }
        | _ => c.pixel a b
      else c.pixel a b := by
  induction row generalizing x c with
  | nil =>
    simp [blitRow]
  | cons q row ih =>
    by_cases hax : a = x
    · subst hax
      have htail : ∀ c' : Canvas, (if b = y ∧ a + 1 ≤ a ∧ a < c'.width ∧ b < c'.height then
          match row[a - (a + 1)]? with
          | some (some q) => some { q with a := 255 }
          | _ => c'.pixel a b
        else c'.pixel a b) = c'.pixel a b := fun c' => if_neg (by omega)
      cases q with
      | none =>
        rw [blitRow, ih hc, htail]
        simp
      | some q =>
        rw [blitRow, ih (Canvas.write_wf hc _ _ _), htail, Canvas.pixel_write hc]
        simp only [Nat.le_refl, true_and, Nat.sub_self, List.getElem?_cons_zero, consts_alphaOpaque]
        by_cases hby : b = y
        · subst hby
          rfl
        · rw [if_neg (fun h => hby h.1), if_neg (fun h => hby h.1)]
    · have hsub : x ≤ a → (q :: row)[a - x]? = row[a - (x + 1)]? := by
        intro hle
        rw [show a - x = a - (x + 1) + 1 by omega, List.getElem?_cons_succ]
      have hcond : (b = y ∧ x ≤ a ∧ a < c.width ∧ b < c.height) ↔
          (b = y ∧ x + 1 ≤ a ∧ a < c.width ∧ b < c.height) := by omega
      cases q with
      | none =>
        rw [blitRow, ih hc]
        by_cases h : b = y ∧ x ≤ a ∧ a < c.width ∧ b < c.height
        · rw [if_pos h, if_pos (hcond.1 h), hsub h.2.1]
        · rw [if_neg h, if_neg (fun h' => h (hcond.2 h'))]
      | some q =>
        rw [blitRow, ih (Canvas.write_wf hc _ _ _), Canvas.pixel_write hc,
          if_neg (c := a = x ∧ b = y ∧ x < c.width ∧ y < c.height) (fun h => hax h.1)]
        simp only [Canvas.write_width, Canvas.write_height]
        by_cases h : b = y ∧ x ≤ a ∧ a < c.width ∧ b < c.height
        · rw [if_pos h, if_pos (hcond.1 h), hsub h.2.1]
        · rw [if_neg h, if_neg (fun h' => h (hcond.2 h'))]

/-- A block of writes changes exactly the canvas pixels under the block's opaque pixels (R206, R207). -/
theorem pixel_blitRows {c : Canvas} (hc : Sparse.wf Rgba.blank c.pixels = true) (x y a b : Nat)
    (rows : List (List (Option Rgba))) :
    (blitRows x y rows c).pixel a b =
      if y ≤ b ∧ x ≤ a ∧ a < c.width ∧ b < c.height then
        match (rows[b - y]?.bind fun row => row[a - x]?) with
        | some (some q) => some { q with a := 255 }
        | _ => c.pixel a b
      else c.pixel a b := by
  induction rows generalizing y c with
  | nil => simp [blitRows]
  | cons row rows ih =>
    rw [blitRows, ih (blitRow_wf hc _ _ _), pixel_blitRow hc]
    simp only [blitRow_width, blitRow_height]
    by_cases hby : b = y
    · subst hby
      simp only [Nat.sub_self, List.getElem?_cons_zero, Option.bind_some, true_and, Nat.le_refl]
      rw [if_neg (by omega)]
    · rw [if_neg (c := b = y ∧ _) (fun h => hby h.1)]
      by_cases h : y ≤ b ∧ x ≤ a ∧ a < c.width ∧ b < c.height
      · rw [if_pos h, if_pos (by omega), show b - y = b - (y + 1) + 1 by omega, List.getElem?_cons_succ]
      · rw [if_neg h, if_neg (by omega)]

end Sys2Proof.Machine
end

