-- ==== Sys2Proof/Laws/Encoding.lean ====
section
/-! SUPPORT. The fields of a command word, as arithmetic on the word and as what the encoder puts there (30_encoding.md
R71). -/

namespace Sys2Proof

theorem opOf_toNat (w : CommandWord) : (opOf w).toNat = w.toNat / 2 ^ 64 := by
  have := w.isLt
  simp only [opOf, BitVec.extractLsb'_toNat, Nat.shiftRight_eq_div_pow]
  omega

theorem opOf_of_toNat {w : CommandWord} {n : Nat} (h : w.toNat / 2 ^ 64 = n) (hn : n < 256) : opOf w = BitVec.ofNat 8 n := by
  apply BitVec.eq_of_toNat_eq
  rw [opOf_toNat, h, BitVec.toNat_ofNat]
  omega

theorem aOf_eq (w : CommandWord) : aOf w = BitVec.ofNat 32 (w.toNat / 2 ^ 32) := by
  apply BitVec.eq_of_toNat_eq
  simp only [aOf, BitVec.extractLsb'_toNat, Nat.shiftRight_eq_div_pow, BitVec.toNat_ofNat]

theorem bOf_eq (w : CommandWord) : bOf w = BitVec.ofNat 32 w.toNat := by
  apply BitVec.eq_of_toNat_eq
  simp only [bOf, BitVec.extractLsb'_toNat, Nat.shiftRight_zero, BitVec.toNat_ofNat]

theorem commandWord_toNat (op : Byte) (a b : Word) :
    (commandWord op a b).toNat = 2 ^ 64 * op.toNat + 2 ^ 32 * a.toNat + b.toNat := by
  have ha := a.isLt
  have hb := b.isLt
  simp only [commandWord, BitVec.toNat_append]
  rw [← Nat.shiftLeft_add_eq_or_of_lt ha, ← Nat.shiftLeft_add_eq_or_of_lt hb, Nat.shiftLeft_eq, Nat.shiftLeft_eq]
  omega

@[simp] theorem opOf_commandWord (op : Byte) (a b : Word) : opOf (commandWord op a b) = op := by
  have ha := a.isLt
  have hb := b.isLt
  apply BitVec.eq_of_toNat_eq
  rw [opOf_toNat, commandWord_toNat]
  omega

@[simp] theorem aOf_commandWord (op : Byte) (a b : Word) : aOf (commandWord op a b) = a := by
  have ha := a.isLt
  have hb := b.isLt
  apply BitVec.eq_of_toNat_eq
  rw [aOf_eq, commandWord_toNat, BitVec.toNat_ofNat]
  omega

@[simp] theorem bOf_commandWord (op : Byte) (a b : Word) : bOf (commandWord op a b) = b := by
  have ha := a.isLt
  have hb := b.isLt
  apply BitVec.eq_of_toNat_eq
  rw [bOf_eq, commandWord_toNat, BitVec.toNat_ofNat]
  omega

/-- The fourteen opcodes of R72. -/
def opcodes : List Byte :=
  [0x01, 0x02, 0x03, 0x04, 0x05, 0x10, 0x11, 0x12, 0x13, 0x14, 0x15, 0x20, 0x21, 0x22]

/-- An `op` outside the table is rejected by name (R73). -/
theorem decodeCommand_illegal {w : CommandWord} (h : opOf w ∉ opcodes) :
    decodeCommand w = .error (.illegalCommand (opOf w)) := by
  unfold decodeCommand
  split <;> first
    | rfl
    | (rename_i hop; exact absurd (by rw [hop]; decide) h)

end Sys2Proof
end

