-- ==== Sys2Proof/Laws/Frames.lean ====
section
/-! SUPPORT. What a decode can change and which faults it can raise, said once for each decoder: the Reader's base and
`WARN` are kept by every decoder but the asset's (40_reader.md R101 to R105), and the kinds of 60_exceptions.md R221 to
R225. -/

namespace Sys2Proof.Machine

open Layout

/-- However the decoder ends, its two states are related by `R`, and every fault it raises satisfies `K`. -/
def Decoder.Within {α : Type} (R : DecodeState → DecodeState → Prop) (K : Raise → Prop) (m : Decoder α) : Prop :=
  ∀ d, (∀ a d', m d = .ok a d' → R d d') ∧ (∀ k d', m d = .error k d' → R d d' ∧ K k)

/-- The base and `WARN` are kept. -/
def SameBase (d d' : DecodeState) : Prop := d'.base = d.base ∧ d'.warn = d.warn

/-- The kinds of fault, as predicates on what is raised; an `OutOfBounds` has a legal width. -/
def Raise.IsBounds : Raise → Prop
  | .outOfBounds _ n => n = 1 ∨ n = 2 ∨ n = 4
  | _ => False

/-- The faults of the placement-list decoder (R161). -/
def Raise.IsList : Raise → Prop
  | .outOfBounds _ n => n = 1 ∨ n = 2 ∨ n = 4
  | .unterminatedPlacementList _ => True
  | .invalidSizeIndex _ => True
  | .badSkip _ => True
  | _ => False

/-- The faults of the asset decoder (R179). -/
def Raise.IsAsset (strict : Bool) : Raise → Prop
  | .outOfBounds _ n => n = 1 ∨ n = 2 ∨ n = 4
  | .unexpectedMarker _ _ => strict = true
  | .unterminatedPlacementList _ => True
  | .invalidSizeIndex _ => True
  | .badSkip _ => True
  | _ => False

theorem Raise.IsBounds.isList {k : Raise} (h : k.IsBounds) : k.IsList := by
  cases k <;> first | exact h | cases h

theorem Raise.IsList.isAsset {strict : Bool} {k : Raise} (h : k.IsList) : k.IsAsset strict := by
  cases k <;> first | exact h | cases h

theorem SameBase.trans {a b c : DecodeState} (h : SameBase a b) (h' : SameBase b c) : SameBase a c :=
  ⟨h'.1.trans h.1, h'.2.trans h.2⟩

theorem Decoder.Within.mono {α : Type} {R R' : DecodeState → DecodeState → Prop} {K K' : Raise → Prop} {m : Decoder α}
    (h : m.Within R K) (hR : ∀ d d', R d d' → R' d d') (hK : ∀ k, K k → K' k) : m.Within R' K' := fun d =>
  ⟨fun a d' hm => hR _ _ ((h d).1 a d' hm), fun k d' hm => ⟨hR _ _ ((h d).2 k d' hm).1, hK _ ((h d).2 k d' hm).2⟩⟩

theorem Decoder.Within.bind {α β : Type} {R : DecodeState → DecodeState → Prop} {K : Raise → Prop} {m : Decoder α}
    {f : α → Decoder β} (trans : ∀ {a b c}, R a b → R b c → R a c) (hm : m.Within R K) (hf : ∀ a, (f a).Within R K) :
    (m >>= f).Within R K := by
  intro d
  refine ⟨fun b d' h => ?_, fun k d' h => ?_⟩
  · obtain ⟨a, d₁, h₁, h₂⟩ := Decoder.bind_eq_ok.1 h
    exact trans ((hm d).1 a d₁ h₁) ((hf a d₁).1 b d' h₂)
  · rcases Decoder.bind_eq_error.1 h with h | ⟨a, d₁, h₁, h₂⟩
    · exact (hm d).2 k d' h
    · exact ⟨trans ((hm d).1 a d₁ h₁) ((hf a d₁).2 k d' h₂).1, ((hf a d₁).2 k d' h₂).2⟩

/-- Sequencing two decoders that keep the base. -/
theorem Decoder.Within.seq {α β : Type} {K : Raise → Prop} {m : Decoder α} {f : α → Decoder β}
    (hm : m.Within SameBase K) (hf : ∀ a, (f a).Within SameBase K) : (m >>= f).Within SameBase K :=
  hm.bind SameBase.trans hf

theorem within_pure {α : Type} {K : Raise → Prop} (a : α) : (Pure.pure a : Decoder α).Within SameBase K := by
  intro d
  refine ⟨fun b d' h => ?_, fun k d' h => by (cases h)⟩
  cases h
  exact ⟨rfl, rfl⟩

theorem within_fail {α : Type} {K : Raise → Prop} {k : Raise} (hk : K k) :
    (Decoder.fail k : Decoder α).Within SameBase K := by
  intro d
  refine ⟨fun b d' h => by (cases h), fun k' d' h => ?_⟩
  cases h
  exact ⟨⟨rfl, rfl⟩, hk⟩

theorem within_seek {K : Raise → Prop} (c : Nat) : (seek c).Within SameBase K := by
  intro d
  refine ⟨fun b d' h => ?_, fun k d' h => by (cases h)⟩
  cases h
  exact ⟨rfl, rfl⟩

theorem within_advance {K : Raise → Prop} (n : Nat) : (advance n).Within SameBase K := by
  intro d
  refine ⟨fun b d' h => ?_, fun k d' h => by (cases h)⟩
  cases h
  exact ⟨rfl, rfl⟩

theorem within_readerAddress {K : Raise → Prop} : readerAddress.Within SameBase K := by
  intro d
  refine ⟨fun b d' h => ?_, fun k d' h => by (cases h)⟩
  cases h
  exact ⟨rfl, rfl⟩

theorem within_readBytes (src : ByteSource) {n : Nat} (hn : n = 1 ∨ n = 2 ∨ n = 4) :
    (readBytes src n).Within SameBase Raise.IsBounds := by
  intro d
  by_cases h : d.ea + n ≤ src.len
  · rw [readBytes_ok h]
    refine ⟨fun b d' h => ?_, fun k d' h => by (cases h)⟩
    cases h
    exact ⟨rfl, rfl⟩
  · rw [readBytes_error (Nat.lt_of_not_ge h)]
    refine ⟨fun b d' h => by (cases h), fun k d' h => ?_⟩
    cases h
    exact ⟨⟨rfl, rfl⟩, hn⟩

theorem within_read8 (src : ByteSource) : (read8 src).Within SameBase Raise.IsBounds :=
  (within_readBytes src (.inl rfl)).seq fun _ => within_pure _

theorem within_read16 (src : ByteSource) : (read16 src).Within SameBase Raise.IsBounds :=
  (within_readBytes src (.inr (.inl rfl))).seq fun _ => within_pure _

theorem within_read32 (src : ByteSource) : (read32 src).Within SameBase Raise.IsBounds :=
  (within_readBytes src (.inr (.inr rfl))).seq fun _ => within_pure _

theorem within_lookupEntry (src : ByteSource) (index : Word) :
    (lookupEntry src index).Within (fun d d' => d' = d) Raise.IsBounds := by
  intro d
  unfold lookupEntry
  cases h : memRead src (lookupAddress index) 4 with
  | ok e =>
    refine ⟨fun b d' h => ?_, fun k d' h => by (cases h)⟩
    cases h
    rfl
  | error k =>
    refine ⟨fun b d' h => by (cases h), fun k' d' h' => ?_⟩
    cases h'
    unfold memRead at h
    split at h
    · cases h
      exact ⟨rfl, .inr (.inr rfl)⟩
    · cases h

theorem within_readColours (src : ByteSource) (n : Nat) : (readColours src n).Within SameBase Raise.IsBounds := by
  induction n with
  | zero => exact within_pure _
  | succ n ih => exact (within_read16 src).seq fun _ => ih.seq fun _ => within_pure _

theorem within_decodePalette (src : ByteSource) : (decodePalette src).Within SameBase Raise.IsBounds :=
  (within_read32 src).seq fun _ => within_readColours src _

theorem within_readCells (src : ByteSource) (n : Nat) : (readCells src n).Within SameBase Raise.IsBounds := by
  induction n with
  | zero => exact within_pure _
  | succ n ih => exact (within_read8 src).seq fun _ => ih.seq fun _ => within_pure _

theorem within_readTiles (src : ByteSource) (n : Nat) : (readTiles src n).Within SameBase Raise.IsBounds := by
  induction n with
  | zero => exact within_pure _
  | succ n ih => exact (within_readCells src _).seq fun _ => ih.seq fun _ => within_pure _

theorem within_decodeTilemap (src : ByteSource) : (decodeTilemap src).Within SameBase Raise.IsBounds :=
  (within_read32 src).seq fun _ => within_readTiles src _

/-- A decoder with the faults of a read, as part of the placement-list decoder. -/
theorem Decoder.Within.list {α : Type} {m : Decoder α} (h : m.Within SameBase Raise.IsBounds) :
    m.Within SameBase Raise.IsList :=
  h.mono (fun _ _ => id) fun _ => Raise.IsBounds.isList

/-- A decoder with the faults of the placement-list decoder, as part of the asset decoder. -/
theorem Decoder.Within.asset {α : Type} {m : Decoder α} {strict : Bool} (h : m.Within SameBase Raise.IsList) :
    m.Within SameBase (Raise.IsAsset strict) :=
  h.mono (fun _ _ => id) fun _ => Raise.IsList.isAsset

theorem within_readRecord (src : ByteSource) : (readRecord src).Within SameBase Raise.IsBounds :=
  (within_read8 src).seq fun _ => (within_read8 src).seq fun _ => (within_read8 src).seq fun _ =>
    (within_read8 src).seq fun _ => (within_read8 src).seq fun _ => within_pure _

theorem emit_isList {max rstart : Nat} {r : Record} {list : List Placement} {k : Raise}
    (h : r.emit max rstart list = .error k) : k.IsList := by
  rcases emit_eq_error.1 h with ⟨-, rfl⟩ | ⟨-, -, rfl⟩ <;> exact trivial

theorem within_walkRecords (src : ByteSource) (max room : Nat) (list : List Placement) :
    (walkRecords src max room list).Within SameBase Raise.IsList := by
  induction room generalizing list with
  | zero => exact within_readerAddress.seq fun _ => within_fail trivial
  | succ room ih =>
    refine within_readerAddress.seq fun rstart => (within_readRecord src).list.seq fun r => ?_
    split
    · exact within_pure _
    · cases hem : r.emit max rstart list with
      | error k => exact within_fail (emit_isList hem)
      | ok list' => exact ih list'

theorem within_skipLeadIn (src : ByteSource) : (skipLeadIn src).Within SameBase Raise.IsList := by
  refine (within_read32 src).list.seq fun skip => ?_
  split
  · exact within_fail trivial
  · exact within_advance _

theorem within_decodePlacements (src : ByteSource) (max : Nat) :
    (decodePlacements src max).Within SameBase Raise.IsList :=
  (within_skipLeadIn src).seq fun _ => within_walkRecords src _ _ _

theorem within_readPointers (src : ByteSource) (n : Nat) : (readPointers src n).Within SameBase Raise.IsBounds := by
  induction n with
  | zero => exact within_pure _
  | succ n ih => exact (within_read32 src).seq fun _ => ih.seq fun _ => within_pure _

theorem within_skipBytes (src : ByteSource) (n : Nat) : (skipBytes src n).Within SameBase Raise.IsBounds := by
  induction n with
  | zero => exact within_pure _
  | succ n ih => exact (within_read8 src).seq fun _ => ih

theorem within_readAnimRecord (src : ByteSource) : (readAnimRecord src).Within SameBase Raise.IsBounds :=
  (within_read32 src).seq fun _ => (within_read32 src).seq fun _ => (within_read32 src).seq fun _ =>
    (within_read32 src).seq fun _ => (within_read8 src).seq fun _ => (within_read8 src).seq fun _ =>
      (within_read8 src).seq fun _ => (within_skipBytes src _).seq fun _ => within_pure _

theorem within_decodeFrame (src : ByteSource) (max : Nat) (ptr : Word) :
    (decodeFrame src max ptr).Within SameBase Raise.IsList :=
  (within_seek _).seq fun _ => (within_readAnimRecord src).list.seq fun _ => (within_seek _).seq fun _ =>
    (within_decodeTilemap src).list.seq fun _ => (within_seek _).seq fun _ =>
      (within_decodePalette src).list.seq fun _ => (within_seek _).seq fun _ =>
        (within_decodePlacements src _).seq fun _ => within_pure _

theorem within_decodeFrames (src : ByteSource) (max : Nat) (ptrs : List Word) :
    (decodeFrames src max ptrs).Within SameBase Raise.IsList := by
  induction ptrs with
  | nil => exact within_pure _
  | cons ptr ptrs ih => exact (within_decodeFrame src max ptr).seq fun _ => ih.seq fun _ => within_pure _

theorem within_readHeader (src : ByteSource) : (readHeader src).Within SameBase Raise.IsBounds :=
  (within_read8 src).seq fun _ => (within_read8 src).seq fun _ => (within_read8 src).seq fun _ =>
    (within_read8 src).seq fun _ => within_pure _

/-- The pointer table and its frames are decoded with the anchor as base, whatever happens (R173). -/
theorem within_decodeTable (src : ByteSource) (max anchor count : Nat) :
    (decodeTable src max anchor count).Within (fun d d' => d'.base = anchor ∧ d'.warn = d.warn) Raise.IsList := by
  intro d
  unfold decodeTable
  rw [Decoder.bind_of_ok (rebase_apply _ _ _)]
  exact ((within_readPointers src count).list.seq fun ptrs => within_decodeFrames src max ptrs) _

theorem readHeader_error {src : ByteSource} {d : DecodeState} (h : src.len < d.ea + 4) :
    readHeader src d = .error (.outOfBounds (d.ea + (src.len - d.ea)) 1) (d.forward (src.len - d.ea)) := by
  have stop : ∀ {α : Type} (f : Byte → Decoder α) (e : DecodeState), src.len < e.ea + 1 →
      (read8 src >>= f) e = .error (.outOfBounds e.ea 1) e := fun f e he => Decoder.bind_of_error (read8_error he)
  unfold readHeader
  by_cases h0 : d.ea + 1 ≤ src.len
  · rw [Decoder.bind_of_ok (read8_ok h0)]
    by_cases h1 : d.ea + 2 ≤ src.len
    · rw [Decoder.bind_of_ok (read8_ok (by simp; omega)), forward_forward]
      by_cases h2 : d.ea + 3 ≤ src.len
      · rw [Decoder.bind_of_ok (read8_ok (by simp; omega)), forward_forward, stop _ _ (by simp; omega), forward_ea,
          show src.len - d.ea = 1 + 1 + 1 by omega]
      · rw [stop _ _ (by simp; omega), forward_ea, show src.len - d.ea = 1 + 1 by omega]
    · rw [stop _ _ (by simp; omega), forward_ea, show src.len - d.ea = 1 by omega]
  · rw [stop _ _ (by omega), show src.len - d.ea = 0 by omega]
    rfl

/-- Everything the asset decoder can leave in the Reader and in `WARN`, and every fault it can raise (R171, R183). -/
theorem within_decodeSpriteAsset (src : ByteSource) (max : Nat) (address : Word) (strict : Bool) :
    (decodeSpriteAsset src max address strict).Within
      (fun d d' => (d'.base = address.toNat ∨ d'.base = address.toNat + 4) ∧
        (d'.warn = d.warn ∨ (d'.warn = true ∧ strict = false ∧ ¬ MarkersMatch src address.toNat)))
      (Raise.IsAsset strict) := by
  intro d
  unfold decodeSpriteAsset
  rw [Decoder.bind_of_ok (rebase_apply _ _ _)]
  by_cases h4 : address.toNat + 4 ≤ src.len
  · rw [Decoder.bind_of_ok (readHeader_ok (by exact h4))]
    simp only [ea_mk, Nat.add_zero, consts_hdrBytes]
    have table := within_decodeTable src max (address.toNat + 4) (src.byte (address.toNat + 3)).toNat
    by_cases hm : src.byte (address.toNat + 1) = 0 ∧ src.byte (address.toNat + 2) = 1
    · rw [Decoder.bind_of_ok (checkMarkers_match hm)]
      refine ⟨fun a d' h => ?_, fun k d' h => ?_⟩
      · obtain ⟨hb, hw⟩ := (table _).1 a d' h
        exact ⟨.inr hb, .inl hw⟩
      · obtain ⟨⟨hb, hw⟩, hk⟩ := (table _).2 k d' h
        exact ⟨⟨.inr hb, .inl hw⟩, hk.isAsset⟩
    · cases strict with
      | true =>
        rw [Decoder.bind_of_error (checkMarkers_strict hm)]
        refine ⟨fun a d' h => by (cases h), fun k d' h => ?_⟩
        cases h
        exact ⟨⟨.inl rfl, .inl rfl⟩, rfl⟩
      | false =>
        rw [Decoder.bind_of_ok (checkMarkers_lenient hm)]
        have hnm : ¬ MarkersMatch src address.toNat := fun h => hm (markersMatch_iff.1 h)
        refine ⟨fun a d' h => ?_, fun k d' h => ?_⟩
        · obtain ⟨hb, hw⟩ := (table _).1 a d' h
          exact ⟨.inr hb, .inr ⟨hw, rfl, hnm⟩⟩
        · obtain ⟨⟨hb, hw⟩, hk⟩ := (table _).2 k d' h
          exact ⟨⟨.inr hb, .inr ⟨hw, rfl, hnm⟩⟩, hk.isAsset⟩
  · rw [Decoder.bind_of_error (readHeader_error (by exact Nat.lt_of_not_ge h4))]
    refine ⟨fun a d' h => by (cases h), fun k d' h => ?_⟩
    cases h
    exact ⟨⟨.inl rfl, .inl rfl⟩, .inl rfl⟩

end Sys2Proof.Machine
end

