-- ==== Sys2Proof/Laws/Step.lean ====
section
/-! SUPPORT. Everything a step can do, said once: a reset, nothing in FAULTED, a record, a command, or nothing when idle
(Machine/Port.lean). -/

namespace Sys2Proof.Machine

theorem faulted_eq_false {s : State} : s.faulted = false ↔ s.err = .noFault := by
  simp [State.faulted]

theorem faulted_eq_true {s : State} : s.faulted = true ↔ s.err ≠ .noFault := by
  simp [State.faulted]

/-- Running the unit, not reset (R229, R251). -/
theorem runUnit_cases (s : State) (h : ∀ rest, s.host ≠ .rst :: rest) :
    (s.err ≠ .noFault ∧ runUnit s = .next { s with host := s.host.tail }) ∨
    (s.err = .noFault ∧ s.busy = true ∧ runUnit s = runRecord s) ∨
    (s.err = .noFault ∧ s.busy = false ∧ ∃ w rest, s.host = .cmd w :: rest ∧
      runUnit s = runCommand w { s with host := rest }) ∨
    (s.err = .noFault ∧ s.busy = false ∧ s.host = [] ∧ runUnit s = .next s) := by
  by_cases he : s.err = .noFault
  · have hf := faulted_eq_false.2 he
    right
    cases hb : s.busy with
    | true => exact .inl ⟨he, rfl, by simp [runUnit, hf, hb]⟩
    | false =>
      right
      cases hh : s.host with
      | nil => exact .inr ⟨he, rfl, rfl, by simp [runUnit, hf, hb, hh]⟩
      | cons a rest =>
        cases a with
        | rst => exact absurd hh (h rest)
        | cmd w => exact .inl ⟨he, rfl, w, rest, rfl, by simp [runUnit, hf, hb, hh]⟩
  · exact .inl ⟨he, by simp [runUnit, faulted_eq_true.2 he]⟩

theorem step_of_reset {s : State} {rest : List HostInput} (h : s.host = .rst :: rest) :
    step s = .next { s.takeReset with host := rest } := by
  simp [step, hostStep, h]

theorem step_of_no_reset {s : State} (h : ∀ rest, s.host ≠ .rst :: rest) : step s = runUnit s := by
  unfold step hostStep
  split
  · rename_i rest hh
    exact absurd hh (h rest)
  · rfl
  · rfl

/-- Everything a step can do. -/
theorem step_cases (s : State) :
    (∃ rest, s.host = .rst :: rest ∧ step s = .next { s.takeReset with host := rest }) ∨
    (s.err ≠ .noFault ∧ step s = .next { s with host := s.host.tail }) ∨
    (s.err = .noFault ∧ s.busy = true ∧ step s = runRecord s) ∨
    (s.err = .noFault ∧ s.busy = false ∧ ∃ w rest, s.host = .cmd w :: rest ∧
      step s = runCommand w { s with host := rest }) ∨
    (s.err = .noFault ∧ s.busy = false ∧ s.host = [] ∧ step s = .next s) := by
  by_cases h : ∃ rest, s.host = .rst :: rest
  · obtain ⟨rest, h⟩ := h
    exact .inl ⟨rest, h, step_of_reset h⟩
  · have h' : ∀ rest, s.host ≠ .rst :: rest := fun rest hh => h ⟨rest, hh⟩
    rw [step_of_no_reset h']
    exact .inr (runUnit_cases s h')

/-- Everything the acceptance of a command word can do (R71, R73). -/
theorem runCommand_cases (w : CommandWord) (s : State) :
    (∃ i, decode (.command w) = .ok i ∧ i.wf = true ∧ runCommand w s = exec i s) ∨
    (decode (.command w) = .error (.illegalCommand (opOf w)) ∧
      runCommand w s = .next (s.raise (.illegalCommand (opOf w)))) := by
  by_cases h : opOf w ∈ opcodes
  · left
    have : ∃ i, decode (.command w) = .ok i ∧ i.wf = true := by
      simp only [opcodes, List.mem_cons, List.not_mem_nil, or_false] at h
      rcases h with h | h | h | h | h | h | h | h | h | h | h | h | h | h <;>
        exact ⟨_, by simp only [decode, decodeCommand, h]; rfl, rfl⟩
    obtain ⟨i, hi, hw⟩ := this
    exact ⟨i, hi, hw, by simp [runCommand, hi]⟩
  · have hd : decode (.command w) = .error (.illegalCommand (opOf w)) := decodeCommand_illegal h
    exact .inr ⟨hd, by simp [runCommand, hd]⟩

/-- Everything the fetch of a record can do (R25, R154). -/
theorem runRecord_cases (s : State) :
    (s.src.len < s.ea + 5 ∧ runRecord s =
      .next ((s.withDecode (s.decodeState.forward (s.src.len - s.ea))).invalidatePlacements.raise
        (.outOfBounds (s.ea + (s.src.len - s.ea)) 1))) ∨
    (s.ea + 5 ≤ s.src.len ∧ (recordAt s.src s.ea).isEnd = true ∧ runRecord s = exec .endMark s) ∨
    (s.ea + 5 ≤ s.src.len ∧ (recordAt s.src s.ea).isEnd = false ∧ runRecord s =
      exec (.place (s.src.byte s.ea) (s.src.byte (s.ea + 1)) (s.src.byte (s.ea + 2)) (s.src.byte (s.ea + 3))
        (s.src.byte (s.ea + 4))) s) := by
  by_cases h : s.ea + 5 ≤ s.src.len
  · right
    have hr : readRecord s.src s.decodeState = .ok (recordAt s.src s.ea) (s.decodeState.forward 5) :=
      readRecord_ok (d := s.decodeState) h
    cases he : (recordAt s.src s.ea).isEnd with
    | true =>
      have hd : decode (.record (recordAt s.src s.ea).bytes) = .ok .endMark := by
        unfold Record.isEnd at he
        simp [decode, Record.bytes, decodeRecord, he]
      exact .inl ⟨h, rfl, by simp only [runRecord, hr, hd]⟩
    | false =>
      have hd : decode (.record (recordAt s.src s.ea).bytes) = .ok (.place (s.src.byte s.ea) (s.src.byte (s.ea + 1))
          (s.src.byte (s.ea + 2)) (s.src.byte (s.ea + 3)) (s.src.byte (s.ea + 4))) := by
        unfold Record.isEnd at he
        simp [decode, Record.bytes, decodeRecord, he]
        simp [recordAt]
      exact .inr ⟨h, rfl, by simp only [runRecord, hr, hd]⟩
  · have hr := readRecord_error (src := s.src) (d := s.decodeState) (Nat.lt_of_not_ge h)
    exact .inl ⟨Nat.lt_of_not_ge h, by simp only [runRecord, hr]; rfl⟩

/-- A run is its first step and the run after it (R242). -/
theorem run_step {s t : State} (n : Nat) (h : step s = .next t) :
    Host.Core.run core (n + 1) s = Host.Core.run core n t := by
  have h' : core.step s = .next t := h
  exact (Host.Core.run.eq_2 core s n).trans (by rw [h'])

/-- A step that changes nothing repeats for ever. -/
theorem run_still {s : State} (n : Nat) (h : step s = .next s) : Host.Core.run core n s = .next s := by
  induction n with
  | zero => rfl
  | succ n ih => rw [run_step n h, ih]

end Sys2Proof.Machine
end

