-- ==== Sys2Proof/Laws/Exec.lean ====
section
/-! SUPPORT. Everything an instruction can do, said once: one constructor for each way an instruction can end, and the
inversion lemma that every next state is one of them. The laws about all instructions go through it. -/

namespace Sys2Proof.Machine

/-! ### A completed asset decode leaves every field alone but the frame store and the working stores (R179) -/

@[simp] theorem State.storeFrames_base (s : State) (frames : List Frame) : (s.storeFrames frames).base = s.base := by
  unfold State.storeFrames
  split <;> rfl

@[simp] theorem State.storeFrames_cursor (s : State) (frames : List Frame) : (s.storeFrames frames).cursor = s.cursor := by
  unfold State.storeFrames
  split <;> rfl

@[simp] theorem State.storeFrames_result (s : State) (frames : List Frame) : (s.storeFrames frames).result = s.result := by
  unfold State.storeFrames
  split <;> rfl

@[simp] theorem State.storeFrames_rvalid (s : State) (frames : List Frame) : (s.storeFrames frames).rvalid = s.rvalid := by
  unfold State.storeFrames
  split <;> rfl

@[simp] theorem State.storeFrames_busy (s : State) (frames : List Frame) : (s.storeFrames frames).busy = s.busy := by
  unfold State.storeFrames
  split <;> rfl

@[simp] theorem State.storeFrames_err (s : State) (frames : List Frame) : (s.storeFrames frames).err = s.err := by
  unfold State.storeFrames
  split <;> rfl

@[simp] theorem State.storeFrames_einfo (s : State) (frames : List Frame) : (s.storeFrames frames).einfo = s.einfo := by
  unfold State.storeFrames
  split <;> rfl

@[simp] theorem State.storeFrames_ewidth (s : State) (frames : List Frame) : (s.storeFrames frames).ewidth = s.ewidth := by
  unfold State.storeFrames
  split <;> rfl

@[simp] theorem State.storeFrames_warn (s : State) (frames : List Frame) : (s.storeFrames frames).warn = s.warn := by
  unfold State.storeFrames
  split <;> rfl

@[simp] theorem State.storeFrames_lbuf (s : State) (frames : List Frame) : (s.storeFrames frames).lbuf = s.lbuf := by
  unfold State.storeFrames
  split <;> rfl

@[simp] theorem State.storeFrames_lw (s : State) (frames : List Frame) : (s.storeFrames frames).lw = s.lw := by
  unfold State.storeFrames
  split <;> rfl

@[simp] theorem State.storeFrames_lh (s : State) (frames : List Frame) : (s.storeFrames frames).lh = s.lh := by
  unfold State.storeFrames
  split <;> rfl

@[simp] theorem State.storeFrames_out (s : State) (frames : List Frame) : (s.storeFrames frames).out = s.out := by
  unfold State.storeFrames
  split <;> rfl

@[simp] theorem State.storeFrames_outx (s : State) (frames : List Frame) : (s.storeFrames frames).outx = s.outx := by
  unfold State.storeFrames
  split <;> rfl

@[simp] theorem State.storeFrames_outy (s : State) (frames : List Frame) : (s.storeFrames frames).outy = s.outy := by
  unfold State.storeFrames
  split <;> rfl

@[simp] theorem State.storeFrames_outw (s : State) (frames : List Frame) : (s.storeFrames frames).outw = s.outw := by
  unfold State.storeFrames
  split <;> rfl

@[simp] theorem State.storeFrames_outh (s : State) (frames : List Frame) : (s.storeFrames frames).outh = s.outh := by
  unfold State.storeFrames
  split <;> rfl

@[simp] theorem State.storeFrames_ovalid (s : State) (frames : List Frame) : (s.storeFrames frames).ovalid = s.ovalid := by
  unfold State.storeFrames
  split <;> rfl

@[simp] theorem State.storeFrames_walk (s : State) (frames : List Frame) : (s.storeFrames frames).walk = s.walk := by
  unfold State.storeFrames
  split <;> rfl

@[simp] theorem State.storeFrames_canvas (s : State) (frames : List Frame) : (s.storeFrames frames).canvas = s.canvas := by
  unfold State.storeFrames
  split <;> rfl

@[simp] theorem State.storeFrames_host (s : State) (frames : List Frame) : (s.storeFrames frames).host = s.host := by
  unfold State.storeFrames
  split <;> rfl

@[simp] theorem State.storeFrames_src (s : State) (frames : List Frame) : (s.storeFrames frames).src = s.src := by
  unfold State.storeFrames
  split <;> rfl

@[simp] theorem State.storeFrames_maxPlacements (s : State) (frames : List Frame) : (s.storeFrames frames).maxPlacements = s.maxPlacements := by
  unfold State.storeFrames
  split <;> rfl

@[simp] theorem State.storeFrames_fresh (s : State) (frames : List Frame) : (s.storeFrames frames).fresh = s.fresh := by
  unfold State.storeFrames
  split <;> rfl

@[simp] theorem State.storeFrames_frames (s : State) (frames : List Frame) : (s.storeFrames frames).frames = frames := by
  unfold State.storeFrames
  split <;> rfl

/-! ### The record forms -/

theorem exec_place_ok {b0 b1 b2 b3 b4 : Byte} {s : State} {list : List Placement}
    (h : emitPlacement s.maxPlacements s.ea b0 b1 b2 b3 b4 s.walk = .ok list) :
    exec (.place b0 b1 b2 b3 b4) s = .next { s with cursor := s.cursor + 5, walk := list } := by
  simp only [exec, execPlace, h, consts_recBytes]

theorem exec_place_error {b0 b1 b2 b3 b4 : Byte} {s : State} {k : Raise}
    (h : emitPlacement s.maxPlacements s.ea b0 b1 b2 b3 b4 s.walk = .error k) :
    exec (.place b0 b1 b2 b3 b4) s =
      .next (({ s with cursor := s.cursor + 5 } : State).invalidatePlacements.raise k) := by
  simp only [exec, execPlace, h, consts_recBytes]

/-! ### The instructions that run a decoder -/

theorem exec_read8 (s : State) :
    exec .read8 s = runDecoder (read8 s.src) s (fun v s => s.setResult (v.zeroExtend 32)) State.invalidateResult := rfl

theorem exec_read16 (s : State) :
    exec .read16 s = runDecoder (read16 s.src) s (fun v s => s.setResult (v.zeroExtend 32)) State.invalidateResult :=
  rfl

theorem exec_read32 (s : State) :
    exec .read32 s = runDecoder (read32 s.src) s (fun v s => s.setResult v) State.invalidateResult := rfl

theorem exec_lookup (index : Word) (s : State) :
    exec (.lookup index) s =
      runDecoder (lookupEntry s.src index) s (fun v s => s.setResult v) State.invalidateResult := rfl

theorem exec_decpal (s : State) :
    exec .decpal s =
      runDecoder (decodePalette s.src) s (fun pal s => { s with wpal := pal, pvalid := true })
        State.invalidatePalette := rfl

theorem exec_dectile (s : State) :
    exec .dectile s =
      runDecoder (decodeTilemap s.src) s (fun tiles s => { s with wtiles := tiles, tvalid := true })
        State.invalidateTiles := rfl

theorem exec_decoam (s : State) :
    exec .decoam s =
      runDecoder (decodePlacements s.src s.maxPlacements) s (fun list s => { s with wplist := list, lvalid := true })
        State.invalidatePlacements := rfl

theorem exec_decasset (address : Word) (strict : Bool) (s : State) :
    exec (.decasset address strict) s =
      runDecoder (decodeSpriteAsset s.src s.maxPlacements address strict) s.beginAsset
        (fun frames s => s.storeFrames frames) State.invalidateAsset := rfl

/-- `Effect s i t`: `t` is a state instruction `i` can leave from `s`. -/
inductive Effect (s : State) : Instr → State → Prop
  | rebase (b c : Word) : Effect s (.rebase b c) { s with base := b.toNat, cursor := c.toNat }
  | seek (c : Word) : Effect s (.seek c) { s with cursor := c.toNat }
  | read8 (v : Byte) (d : DecodeState) (h : read8 s.src s.decodeState = .ok v d) :
      Effect s .read8 ((s.withDecode d).setResult (v.zeroExtend 32))
  | read8Fault (k : Raise) (d : DecodeState) (h : read8 s.src s.decodeState = .error k d) :
      Effect s .read8 ((s.withDecode d).invalidateResult.raise k)
  | read16 (v : Half) (d : DecodeState) (h : read16 s.src s.decodeState = .ok v d) :
      Effect s .read16 ((s.withDecode d).setResult (v.zeroExtend 32))
  | read16Fault (k : Raise) (d : DecodeState) (h : read16 s.src s.decodeState = .error k d) :
      Effect s .read16 ((s.withDecode d).invalidateResult.raise k)
  | read32 (v : Word) (d : DecodeState) (h : read32 s.src s.decodeState = .ok v d) :
      Effect s .read32 ((s.withDecode d).setResult v)
  | read32Fault (k : Raise) (d : DecodeState) (h : read32 s.src s.decodeState = .error k d) :
      Effect s .read32 ((s.withDecode d).invalidateResult.raise k)
  | lookup (index v : Word) (d : DecodeState) (h : lookupEntry s.src index s.decodeState = .ok v d) :
      Effect s (.lookup index) ((s.withDecode d).setResult v)
  | lookupFault (index : Word) (k : Raise) (d : DecodeState) (h : lookupEntry s.src index s.decodeState = .error k d) :
      Effect s (.lookup index) ((s.withDecode d).invalidateResult.raise k)
  | xform (v : Byte) : Effect s (.xform v) (s.setResult ((xformByte v).zeroExtend 32))
  | palette (pal : List Colour) (d : DecodeState) (h : decodePalette s.src s.decodeState = .ok pal d) :
      Effect s .decpal { s.withDecode d with wpal := pal, pvalid := true }
  | paletteFault (k : Raise) (d : DecodeState) (h : decodePalette s.src s.decodeState = .error k d) :
      Effect s .decpal ((s.withDecode d).invalidatePalette.raise k)
  | tiles (tiles : List Tile) (d : DecodeState) (h : decodeTilemap s.src s.decodeState = .ok tiles d) :
      Effect s .dectile { s.withDecode d with wtiles := tiles, tvalid := true }
  | tilesFault (k : Raise) (d : DecodeState) (h : decodeTilemap s.src s.decodeState = .error k d) :
      Effect s .dectile ((s.withDecode d).invalidateTiles.raise k)
  | placements (list : List Placement) (d : DecodeState)
      (h : decodePlacements s.src s.maxPlacements s.decodeState = .ok list d) :
      Effect s .decoam { s.withDecode d with wplist := list, lvalid := true }
  | placementsFault (k : Raise) (d : DecodeState)
      (h : decodePlacements s.src s.maxPlacements s.decodeState = .error k d) :
      Effect s .decoam ((s.withDecode d).invalidatePlacements.raise k)
  | asset (address : Word) (strict : Bool) (frames : List Frame) (d : DecodeState)
      (h : decodeSpriteAsset s.src s.maxPlacements address strict s.decodeState = .ok frames d) :
      Effect s (.decasset address strict) ((s.beginAsset.withDecode d).storeFrames frames)
  | assetFault (address : Word) (strict : Bool) (k : Raise) (d : DecodeState)
      (h : decodeSpriteAsset s.src s.maxPlacements address strict s.decodeState = .error k d) :
      Effect s (.decasset address strict) ((s.beginAsset.withDecode d).invalidateAsset.raise k)
  | select (index : Word) (f : Frame) (h : s.frames[index.toNat]? = some f) : Effect s (.selframe index) (s.loadFrame f)
  | selectFault (index : Word) : Effect s (.selframe index) (s.raise (.badOperand index))
  | compose (index : Word) (p : Placement) (tiles : List Tile) (hp : s.wplist[index.toNat]? = some p)
      (ht : ∀ t ∈ tiles, t ∈ s.wtiles) (hr : s.ready = true) : Effect s (.compose index) (s.storeBlock p tiles)
  | blit (index : Word) (p : Placement) (tiles : List Tile) (hp : s.wplist[index.toNat]? = some p)
      (ht : ∀ t ∈ tiles, t ∈ s.wtiles) (hr : s.ready = true) :
      Effect s (.blit index) { s.storeBlock p tiles with
        canvas := blitRows (xformByte p.offsetX).toNat (xformByte p.offsetY).toNat
          (resolveBuffer s.wpal (p.buffer tiles)) s.canvas }
  | notReady (i : Instr) (index : Word) (hi : i = .compose index ∨ i = .blit index) : Effect s i (s.raise .notReady)
  | noPlacement (i : Instr) (index : Word) (hi : i = .compose index ∨ i = .blit index) :
      Effect s i (s.raise (.badOperand index))
  | missingTile (i : Instr) (index : Word) (hi : i = .compose index ∨ i = .blit index) (p : Placement)
      (hp : s.wplist[index.toNat]? = some p) :
      Effect s i (s.invalidateBlock.raise (.tileIndexOutOfRange (max p.startTile.toNat s.nt)))
  | place (b0 b1 b2 b3 b4 : Byte) (list : List Placement)
      (h : emitPlacement s.maxPlacements s.ea b0 b1 b2 b3 b4 s.walk = .ok list) :
      Effect s (.place b0 b1 b2 b3 b4) { s with cursor := s.cursor + 5, walk := list }
  | placeFault (b0 b1 b2 b3 b4 : Byte) (k : Raise)
      (h : emitPlacement s.maxPlacements s.ea b0 b1 b2 b3 b4 s.walk = .error k) :
      Effect s (.place b0 b1 b2 b3 b4) (({ s with cursor := s.cursor + 5 } : State).invalidatePlacements.raise k)
  | endMark : Effect s .endMark
      { s with cursor := s.cursor + 5, wplist := s.walk, lvalid := true, walk := [], busy := false }

/-- Every instruction answers a next state, and it is one of its effects. -/
theorem exec_effect (i : Instr) (s : State) : ∃ t, exec i s = .next t ∧ Effect s i t := by
  cases i with
  | rebase b c => exact ⟨_, rfl, .rebase b c⟩
  | seek c => exact ⟨_, rfl, .seek c⟩
  | read8 =>
    rcases runDecoder_cases (read8 s.src) s (fun v s => s.setResult (v.zeroExtend 32)) State.invalidateResult with
      ⟨v, d, h, hr⟩ | ⟨k, d, h, hr⟩
    · exact ⟨_, hr, .read8 v d h⟩
    · exact ⟨_, hr, .read8Fault k d h⟩
  | read16 =>
    rcases runDecoder_cases (read16 s.src) s (fun v s => s.setResult (v.zeroExtend 32)) State.invalidateResult with
      ⟨v, d, h, hr⟩ | ⟨k, d, h, hr⟩
    · exact ⟨_, hr, .read16 v d h⟩
    · exact ⟨_, hr, .read16Fault k d h⟩
  | read32 =>
    rcases runDecoder_cases (read32 s.src) s (fun v s => s.setResult v) State.invalidateResult with
      ⟨v, d, h, hr⟩ | ⟨k, d, h, hr⟩
    · exact ⟨_, hr, .read32 v d h⟩
    · exact ⟨_, hr, .read32Fault k d h⟩
  | lookup index =>
    rcases runDecoder_cases (lookupEntry s.src index) s (fun v s => s.setResult v) State.invalidateResult with
      ⟨v, d, h, hr⟩ | ⟨k, d, h, hr⟩
    · exact ⟨_, hr, .lookup index v d h⟩
    · exact ⟨_, hr, .lookupFault index k d h⟩
  | decpal =>
    rcases runDecoder_cases (decodePalette s.src) s (fun pal s => { s with wpal := pal, pvalid := true })
      State.invalidatePalette with ⟨v, d, h, hr⟩ | ⟨k, d, h, hr⟩
    · exact ⟨_, hr, .palette v d h⟩
    · exact ⟨_, hr, .paletteFault k d h⟩
  | dectile =>
    rcases runDecoder_cases (decodeTilemap s.src) s (fun tiles s => { s with wtiles := tiles, tvalid := true })
      State.invalidateTiles with ⟨v, d, h, hr⟩ | ⟨k, d, h, hr⟩
    · exact ⟨_, hr, .tiles v d h⟩
    · exact ⟨_, hr, .tilesFault k d h⟩
  | decoam =>
    rcases runDecoder_cases (decodePlacements s.src s.maxPlacements) s
      (fun list s => { s with wplist := list, lvalid := true }) State.invalidatePlacements with
      ⟨v, d, h, hr⟩ | ⟨k, d, h, hr⟩
    · exact ⟨_, hr, .placements v d h⟩
    · exact ⟨_, hr, .placementsFault k d h⟩
  | decasset address strict =>
    rcases runDecoder_cases (decodeSpriteAsset s.src s.maxPlacements address strict) s.beginAsset
      (fun frames s => s.storeFrames frames) State.invalidateAsset with ⟨v, d, h, hr⟩ | ⟨k, d, h, hr⟩
    · exact ⟨_, hr, .asset address strict v d h⟩
    · exact ⟨_, hr, .assetFault address strict k d h⟩
  | selframe index =>
    cases h : s.frames[index.toNat]? with
    | none => exact ⟨_, by simp only [exec, execSelframe, h], .selectFault index⟩
    | some f => exact ⟨_, by simp only [exec, execSelframe, h], .select index f h⟩
  | xform v => exact ⟨_, rfl, .xform v⟩
  | compose index =>
    rcases composePlacement_cases index s with ⟨-, h⟩ | ⟨-, -, h⟩ | ⟨p, -, hp, -, -, h⟩ | ⟨p, tiles, hr, hp, ht, h⟩
    · exact ⟨_, by simp only [exec, execCompose, h], .notReady _ index (.inl rfl)⟩
    · exact ⟨_, by simp only [exec, execCompose, h], .noPlacement _ index (.inl rfl)⟩
    · exact ⟨_, by simp only [exec, execCompose, h], .missingTile _ index (.inl rfl) p hp⟩
    · exact ⟨_, by simp only [exec, execCompose, h], .compose index p tiles hp ht hr⟩
  | blit index =>
    rcases composePlacement_cases index s with ⟨-, h⟩ | ⟨-, -, h⟩ | ⟨p, -, hp, -, -, h⟩ | ⟨p, tiles, hr, hp, ht, h⟩
    · exact ⟨_, by simp only [exec, execBlit, h], .notReady _ index (.inr rfl)⟩
    · exact ⟨_, by simp only [exec, execBlit, h], .noPlacement _ index (.inr rfl)⟩
    · exact ⟨_, by simp only [exec, execBlit, h], .missingTile _ index (.inr rfl) p hp⟩
    · exact ⟨_, by simp only [exec, execBlit, h]; rfl, .blit index p tiles hp ht hr⟩
  | endMark => exact ⟨_, rfl, .endMark⟩
  | place b0 b1 b2 b3 b4 =>
    cases h : emitPlacement s.maxPlacements s.ea b0 b1 b2 b3 b4 s.walk with
    | ok list => exact ⟨_, exec_place_ok h, .place b0 b1 b2 b3 b4 list h⟩
    | error k => exact ⟨_, exec_place_error h, .placeFault b0 b1 b2 b3 b4 k h⟩

/-- Every next state an instruction answers is one of its effects. -/
theorem effect_of_exec {i : Instr} {s t : State} (h : exec i s = .next t) : Effect s i t := by
  obtain ⟨t', h', he⟩ := exec_effect i s
  rw [h] at h'
  cases h'
  exact he

/-- The kind of a fault is never `None`. -/
theorem Raise.kind_ne (k : Raise) : k.kind ≠ .noFault := by
  cases k <;> simp [Raise.kind]

end Sys2Proof.Machine
end

