-- ==== Sys2Proof/Laws/Invariant.lean ====
section
/-! SUPPORT. What the invariant of Safety.lean asks of contents holds of everything an operation stores: the free contents
(log 20), what the decoders answer, and what a composition leaves. -/

namespace Sys2Proof.Machine

open Layout

/-! ### The free contents -/

theorem freePalette_length (k : Nat) : (freePalette k).length = 16 := by simp [freePalette]

theorem zeroExtend_nibble_lt (v : BitVec 4) : (v.zeroExtend 8).toNat < 16 := by
  have := v.isLt
  simp only [BitVec.truncate_eq_setWidth, BitVec.toNat_setWidth]
  omega

theorem freeTile_ok (k t : Nat) : TileOk (freeTile k t) := by
  refine ⟨by simp [freeTile], fun c hc => ?_⟩
  obtain ⟨i, -, rfl⟩ := List.mem_map.1 hc
  exact zeroExtend_nibble_lt _

theorem freeTiles_ok (src : ByteSource) (k : Nat) : TilesOk src.len (freeTiles src k) := by
  refine ⟨by simp [freeTiles], fun t ht => ?_⟩
  obtain ⟨i, -, rfl⟩ := List.mem_map.1 ht
  exact freeTile_ok k i

/-- Every key of the table names its pair (R84, R158). -/
theorem sizeOfFree_table : ∀ key < 12,
    (BitVec.ofNat 2 (key / 4)).toNat < 3 ∧
      consts.sizeTable[4 * (BitVec.ofNat 2 (key / 4)).toNat + (BitVec.ofNat 2 (key % 4)).toNat]? =
        some ((sizeOfFree key).1, (sizeOfFree key).2) := by
  decide

theorem freePlacements_ok (max k : Nat) : PlacementsOk max (freePlacements max k) := by
  refine ⟨by simp [freePlacements], fun p hp => ?_⟩
  obtain ⟨i, -, rfl⟩ := List.mem_map.1 hp
  exact sizeOfFree_table _ (Nat.mod_lt _ (by decide))

theorem freeLocalBuffer_ok (k : Nat) : ∀ row ∈ freeLocalBuffer k, ∀ c ∈ row, c.toNat < 16 := by
  intro row hrow
  obtain ⟨y, -, rfl⟩ := List.mem_map.1 hrow
  exact (freeTile_ok k y).2

/-- A palette entry paints a legal pixel (R124, R200). -/
theorem opaquePixel_ok (e : Colour) : PixelOk e.opaquePixel := by
  refine ⟨rfl, fun c hc => ?_⟩
  have h : ∀ v : BitVec 5, (channel8 v).toNat % 8 = 0 ∧ (channel8 v).toNat ≤ 248 := by decide
  simp only [Colour.opaquePixel, Colour.rgb8, List.mem_cons, List.not_mem_nil, or_false] at hc
  rcases hc with rfl | rfl | rfl <;> exact h _

theorem freeOut_ok (k : Nat) : ∀ row ∈ freeOut k, ∀ p, some p ∈ row → PixelOk p := by
  intro row hrow p hp
  obtain ⟨y, -, rfl⟩ := List.mem_map.1 hrow
  obtain ⟨x, -, h⟩ := List.mem_map.1 hp
  split at h
  · cases h
    exact opaquePixel_ok _
  · cases h

/-! ### What the decoders answer -/

theorem tilemap_ok {src : ByteSource} {a : Nat} (h : TilemapFits src a) : TilesOk src.len (tilemap src a) := by
  refine ⟨?_, fun t ht => ?_⟩
  · have := h.2
    simp only [tilemap, List.length_map, List.length_range]
    omega
  · obtain ⟨i, -, rfl⟩ := List.mem_map.1 ht
    refine ⟨by simp, fun c hc => ?_⟩
    obtain ⟨j, -, rfl⟩ := List.mem_map.1 hc
    have := byteNat_lt src (a + 4 + 32 * i + j / 2)
    simp only [tileCell, BitVec.toNat_ofNat]
    split <;> omega

theorem palette_length (src : ByteSource) (a : Nat) : (palette src a).length = 16 := by simp [palette]

theorem placementList_ok {src : ByteSource} {max a : Nat} {l : List Placement} (h : PlacementListAt src max a l) :
    PlacementsOk max l :=
  ⟨h.2.2.1, recordsAt_placementOk h.2.2.2⟩

theorem frameAt_ok {src : ByteSource} {max anchor ptr : Nat} {f : Frame} (h : FrameAt src max anchor ptr f) :
    FrameOk src.len max f := by
  obtain ⟨-, ht, htiles, -, hpal, hlist, -, -⟩ := h
  exact ⟨htiles ▸ tilemap_ok ht, hpal ▸ palette_length _ _, placementList_ok hlist⟩

theorem framesAt_ok {src : ByteSource} {max anchor i : Nat} {fs : List Frame} (h : FramesAt src max anchor i fs) :
    ∀ f ∈ fs, FrameOk src.len max f := by
  induction fs generalizing i with
  | nil => simp
  | cons f fs ih =>
    intro g hg
    rcases List.mem_cons.1 hg with rfl | hg
    · exact frameAt_ok h.1
    · exact ih h.2 g hg

theorem assetAt_count {src : ByteSource} {max a : Nat} {fs : List Frame} (h : AssetAt src max a fs) :
    fs.length ≤ 255 := by
  have := byteNat_lt src (a + 3)
  rw [h.2.1]
  omega

/-- What the list under construction becomes when a record is appended (R157 to R159). -/
theorem emit_ok {max rstart : Nat} {b0 b1 b2 b3 b4 : Byte} {list l : List Placement} (hl : PlacementsOk max list)
    (h : emitPlacement max rstart b0 b1 b2 b3 b4 list = .ok l) : PlacementsOk max l := by
  unfold emitPlacement at h
  split at h
  · cases h
  · split at h
    · cases h
    · rename_i p hp
      cases h
      refine ⟨by simp; omega, fun q hq => ?_⟩
      rcases List.mem_append.1 hq with hq | hq
      · exact hl.2 q hq
      · cases List.mem_singleton.1 hq
        exact placementOk_of_stands (placementOf_eq_ok.1 hp)

/-! ### What a composition leaves -/

theorem getD_mem {α : Type} (l : List α) (i : Nat) (d : α) : l.getD i d ∈ l ∨ l.getD i d = d := by
  rw [List.getD_eq_getElem?_getD]
  cases h : l[i]? with
  | none => exact .inr rfl
  | some a => exact .inl (List.mem_of_getElem? h)

theorem composeBuffer_ok {w h : Nat} {tiles : List Tile} (ht : ∀ t ∈ tiles, TileOk t) :
    ∀ row ∈ composeBuffer w h tiles, ∀ c ∈ row, c.toNat < 16 := by
  intro row hrow c hc
  rw [composeBuffer_eq] at hrow
  obtain ⟨y, -, rfl⟩ := List.mem_map.1 hrow
  obtain ⟨x, -, rfl⟩ := List.mem_map.1 hc
  rcases getD_mem (tiles.getD ((y / 8) * w + x / 8) []) (8 * (y % 8) + x % 8) 0 with hm | hm
  · rcases getD_mem tiles ((y / 8) * w + x / 8) [] with hm' | hm'
    · exact (ht _ hm').2 _ hm
    · rw [hm'] at hm
      cases hm
  · rw [hm]
    decide

theorem buffer_ok {p : Placement} {tiles : List Tile} (ht : ∀ t ∈ tiles, TileOk t) :
    ∀ row ∈ p.buffer tiles, ∀ c ∈ row, c.toNat < 16 := by
  unfold Placement.buffer
  split
  · intro row hrow c hc
    obtain ⟨row', hrow', rfl⟩ := List.mem_map.1 hrow
    exact composeBuffer_ok ht row' hrow' c (List.mem_reverse.1 hc)
  · exact composeBuffer_ok ht

theorem buffer_grid (p : Placement) (tiles : List Tile) : GridOf (8 * p.w) (8 * p.h) (p.buffer tiles) := by
  unfold Placement.buffer
  split
  · refine ⟨by simp [mirrorRows, composeBuffer_eq], fun row hrow => ?_⟩
    obtain ⟨row', hrow', rfl⟩ := List.mem_map.1 hrow
    rw [composeBuffer_eq] at hrow'
    obtain ⟨y, -, rfl⟩ := List.mem_map.1 hrow'
    simp
  · refine ⟨by simp [composeBuffer_eq], fun row hrow => ?_⟩
    rw [composeBuffer_eq] at hrow
    obtain ⟨y, -, rfl⟩ := List.mem_map.1 hrow
    simp

theorem resolve_grid {w h : Nat} {buffer : List (List Byte)} (pal : List Colour) (hb : GridOf w h buffer) :
    GridOf w h (resolveBuffer pal buffer) := by
  refine ⟨by simp [resolveBuffer, hb.1], fun row hrow => ?_⟩
  obtain ⟨row', hrow', rfl⟩ := List.mem_map.1 hrow
  simp [hb.2 row' hrow']

theorem resolve_ok (pal : List Colour) (buffer : List (List Byte)) :
    ∀ row ∈ resolveBuffer pal buffer, ∀ p, some p ∈ row → PixelOk p := by
  intro row hrow p hp
  obtain ⟨row', -, rfl⟩ := List.mem_map.1 hrow
  obtain ⟨c, -, h⟩ := List.mem_map.1 hp
  unfold resolveCell at h
  split at h
  · cases h
  · cases h
    exact opaquePixel_ok _

/-- A legal placement has one of the twelve sizes (R158). -/
theorem placementOk_size {p : Placement} (h : PlacementOk p) : (p.w, p.h) ∈ consts.sizeTable :=
  List.mem_of_getElem? h.2

/-- Every side of the table fits the 7-bit size registers in pixels (R35, R202). -/
theorem sizeTable_bound : ∀ e ∈ consts.sizeTable, e.1 ≤ 8 ∧ e.2 ≤ 8 := by decide

/-! ### The stores through an operation -/

/-- The part of the invariant that speaks of the stores, with no record stream in progress: what every operation keeps,
and all that is left to show when a fault is taken. -/
structure Sound (s : State) : Prop where
  memCanonical : Sparse.wf 0 s.src.mem = true
  memInside : ∀ c ∈ s.src.mem, c.1 < s.src.len
  lenBound : s.src.len ≤ 2 ^ 32
  canvasCanonical : Sparse.wf Rgba.blank s.canvas.pixels = true
  canvasInside : ∀ c ∈ s.canvas.pixels, c.1 < s.canvas.width * s.canvas.height
  baseBound : s.base < 2 ^ 34
  cursorBound : s.cursor < 2 ^ 34
  walkNil : s.walk = []
  paletteOk : s.wpal.length = 16
  tilesOk : TilesOk s.src.len s.wtiles
  placementsOk : PlacementsOk s.maxPlacements s.wplist
  framesCount : s.nframes ≤ 255
  framesOk : ∀ f ∈ s.frames, FrameOk s.src.len s.maxPlacements f
  lbufOk : ∀ row ∈ s.lbuf, ∀ c ∈ row, c.toNat < 16
  outOk : ∀ row ∈ s.out, ∀ p, some p ∈ row → PixelOk p
  blockOk : s.ovalid = true →
    s.outw.toNat = 8 * s.lw ∧ s.outh.toNat = 8 * s.lh ∧ (s.lw, s.lh) ∈ consts.sizeTable ∧
      GridOf (8 * s.lw) (8 * s.lh) s.lbuf ∧ GridOf (8 * s.lw) (8 * s.lh) s.out

theorem Inv.sound {s : State} (h : Inv s) (hb : s.busy = false) : Sound s := by
  obtain ⟨h1, h2, h3, h4, h5, h6, h7, h8, h9, h10, h11, h12, h13, h14, h15, h16, h17, h18, h19, h20, h21⟩ := h
  exact ⟨h1, h2, h3, h4, h5, h6, h7, h12 hb, h14, h15, h16, h17, h18, h19, h20, h21⟩

theorem Sound.inv {s : State} (h : Sound s) (he : s.einfo = 0) (hw : s.ewidth = 0) (hf : s.err = .noFault) : Inv s := by
  obtain ⟨h1, h2, h3, h4, h5, h6, h7, h12, h14, h15, h16, h17, h18, h19, h20, h21⟩ := h
  exact ⟨h1, h2, h3, h4, h5, h6, h7, by omega, by simp [hw], fun _ => ⟨he, hw⟩, fun h => absurd hf h, fun _ => h12, by
    rw [h12]; simp [PlacementsOk], h14, h15, h16, h17, h18, h19, h20, h21⟩

theorem Sound.raise {s : State} (h : Sound s) {k : Raise} (hk : k.Bounded) : Inv (s.raise k) := by
  obtain ⟨h1, h2, h3, h4, h5, h6, h7, h12, h14, h15, h16, h17, h18, h19, h20, h21⟩ := h
  exact ⟨h1, h2, h3, h4, h5, h6, h7, hk.1, hk.2, fun h => absurd h (Raise.kind_ne k), fun _ => rfl, fun _ => h12, by
    rw [show (s.raise k).walk = [] from h12]; simp [PlacementsOk], h14, h15, h16, h17, h18, h19, h20, h21⟩

theorem Sound.withDecode {s : State} (h : Sound s) {d : DecodeState} (hd : d.Bounded) : Sound (s.withDecode d) := by
  obtain ⟨h1, h2, h3, h4, h5, h6, h7, h12, h14, h15, h16, h17, h18, h19, h20, h21⟩ := h
  exact ⟨h1, h2, h3, h4, h5, hd.1, hd.2, h12, h14, h15, h16, h17, h18, h19, h20, h21⟩

theorem Sound.bounded {s : State} (h : Sound s) : s.decodeState.Bounded := ⟨h.baseBound, h.cursorBound⟩

theorem Sound.beginAsset {s : State} (h : Sound s) : Sound s.beginAsset := by
  obtain ⟨h1, h2, h3, h4, h5, h6, h7, h12, h14, h15, h16, h17, h18, h19, h20, h21⟩ := h
  exact ⟨h1, h2, h3, h4, h5, h6, h7, h12, h14, h15, h16, by simp [State.nframes], by simp, h19, h20, h21⟩

theorem Sound.loadFrame {s : State} (h : Sound s) {f : Frame} (hf : FrameOk s.src.len s.maxPlacements f) :
    Sound (s.loadFrame f) := by
  obtain ⟨h1, h2, h3, h4, h5, h6, h7, h12, h14, h15, h16, h17, h18, h19, h20, h21⟩ := h
  exact ⟨h1, h2, h3, h4, h5, h6, h7, h12, hf.2.1, hf.1, hf.2.2, h17, h18, h19, h20, h21⟩

theorem Sound.storeBlock {s : State} (h : Sound s) {p : Placement} (hp : PlacementOk p) {tiles : List Tile}
    (ht : ∀ t ∈ tiles, t ∈ s.wtiles) : Sound (s.storeBlock p tiles) := by
  have hok : ∀ t ∈ tiles, TileOk t := fun t h' => h.tilesOk.2 t (ht t h')
  obtain ⟨h1, h2, h3, h4, h5, h6, h7, h12, h14, h15, h16, h17, h18, h19, h20, h21⟩ := h
  refine ⟨h1, h2, h3, h4, h5, h6, h7, h12, h14, h15, h16, h17, h18, buffer_ok hok, resolve_ok _ _, fun _ => ?_⟩
  have hs := placementOk_size hp
  have hb := sizeTable_bound _ hs
  simp only at hb
  refine ⟨?_, ?_, hs, buffer_grid _ _, resolve_grid _ (buffer_grid _ _)⟩
  · simp only [State.storeBlock, BitVec.toNat_ofNat, consts_tileDim]; omega
  · simp only [State.storeBlock, BitVec.toNat_ofNat, consts_tileDim]; omega

theorem Sound.invalidatePalette {s : State} (h : Sound s) : Sound s.invalidatePalette := by
  obtain ⟨h1, h2, h3, h4, h5, h6, h7, h12, h14, h15, h16, h17, h18, h19, h20, h21⟩ := h
  exact ⟨h1, h2, h3, h4, h5, h6, h7, h12, freePalette_length _, h15, h16, h17, h18, h19, h20, h21⟩

theorem Sound.invalidateTiles {s : State} (h : Sound s) : Sound s.invalidateTiles := by
  obtain ⟨h1, h2, h3, h4, h5, h6, h7, h12, h14, h15, h16, h17, h18, h19, h20, h21⟩ := h
  exact ⟨h1, h2, h3, h4, h5, h6, h7, h12, h14, freeTiles_ok _ _, h16, h17, h18, h19, h20, h21⟩

theorem Sound.invalidatePlacements {s : State} (h : Sound {s with walk := []}) : Sound s.invalidatePlacements := by
  obtain ⟨h1, h2, h3, h4, h5, h6, h7, h12, h14, h15, h16, h17, h18, h19, h20, h21⟩ := h
  exact ⟨h1, h2, h3, h4, h5, h6, h7, h12, h14, h15, freePlacements_ok _ _, h17, h18, h19, h20, h21⟩

theorem Sound.invalidateAsset {s : State} (h : Sound s) : Sound s.invalidateAsset := by
  obtain ⟨h1, h2, h3, h4, h5, h6, h7, h12, h14, h15, h16, h17, h18, h19, h20, h21⟩ := h
  exact ⟨h1, h2, h3, h4, h5, h6, h7, h12, freePalette_length _, freeTiles_ok _ _, freePlacements_ok _ _, by simp
    [State.nframes], by simp, h19, h20, h21⟩

theorem Sound.invalidateBlock {s : State} (h : Sound s) : Sound s.invalidateBlock := by
  obtain ⟨h1, h2, h3, h4, h5, h6, h7, h12, h14, h15, h16, h17, h18, h19, h20, h21⟩ := h
  exact ⟨h1, h2, h3, h4, h5, h6, h7, h12, h14, h15, h16, h17, h18, freeLocalBuffer_ok _, freeOut_ok _, fun h => by
    cases h⟩

end Sys2Proof.Machine
end

