-- ==== Sys2Proof/Laws/PerInstr.lean ====
section
/-! SUPPORT. The per-instruction family `CodeForm`: each instruction is encoded in its row's form of spec/opcode_table.json,
a 72-bit command word with the row's `op` in bits 71:64, or a record of five bytes (30_encoding.md R70 to R72, R82). -/

namespace Sys2Proof.Laws.CodeForm

/-- The `op` of the instruction's row (R72); the two record forms have none. -/
def opcode : Instr → Option Nat
  | .rebase _ _ => some 0x01
  | .seek _ => some 0x02
  | .read8 => some 0x03
  | .read16 => some 0x04
  | .read32 => some 0x05
  | .decpal => some 0x10
  | .dectile => some 0x11
  | .decoam => some 0x12
  | .decasset _ _ => some 0x13
  | .selframe _ => some 0x14
  | .lookup _ => some 0x15
  | .compose _ => some 0x20
  | .xform _ => some 0x21
  | .blit _ => some 0x22
  | .endMark => none
  | .place _ _ _ _ _ => none

/-- What the form of an encoding must be, given the row's `op`. -/
def HasForm : Code → Option Nat → Prop
  | .command w, some op => w.toNat / 2 ^ 64 = op
  | .record bytes, none => bytes.length = 5
  | _, _ => False

/-- The instruction's encoding has its row's form. -/
def Statement (i : Instr) : Prop := HasForm (encode i) (opcode i)

/-- The quotient of a command word by 2^64 is its `op`. -/
theorem hasForm_command (op : Byte) (a b : Word) (n : Nat) (h : op.toNat = n) :
    HasForm (.command (commandWord op a b)) (some n) := by
  have ha := a.isLt
  have hb := b.isLt
  rw [HasForm, commandWord_toNat]
  omega

theorem rebase (newBase newCursor : Word) : Statement (.rebase newBase newCursor) := hasForm_command _ _ _ _ rfl

theorem seek (newCursor : Word) : Statement (.seek newCursor) := hasForm_command _ _ _ _ rfl

theorem read8 : Statement .read8 := hasForm_command _ _ _ _ rfl

theorem read16 : Statement .read16 := hasForm_command _ _ _ _ rfl

theorem read32 : Statement .read32 := hasForm_command _ _ _ _ rfl

theorem decpal : Statement .decpal := hasForm_command _ _ _ _ rfl

theorem dectile : Statement .dectile := hasForm_command _ _ _ _ rfl

theorem decoam : Statement .decoam := hasForm_command _ _ _ _ rfl

theorem decasset (address : Word) (strict : Bool) : Statement (.decasset address strict) := hasForm_command _ _ _ _ rfl

theorem selframe (index : Word) : Statement (.selframe index) := hasForm_command _ _ _ _ rfl

theorem lookup (index : Word) : Statement (.lookup index) := hasForm_command _ _ _ _ rfl

theorem compose (index : Word) : Statement (.compose index) := hasForm_command _ _ _ _ rfl

theorem xform (offset : Byte) : Statement (.xform offset) := hasForm_command _ _ _ _ rfl

theorem blit (index : Word) : Statement (.blit index) := hasForm_command _ _ _ _ rfl

theorem endMark : Statement .endMark := rfl

theorem place (startTile offsetX offsetY sizeByte shapeByte : Byte) :
    Statement (.place startTile offsetX offsetY sizeByte shapeByte) := rfl

end Sys2Proof.Laws.CodeForm
end

