-- ==== Sys2Proof/Tests/Slice0.lean ====
section
/-! SUPPORT. The model's own tests: the well-formedness smoke test, the decoding of words written out from the spec's
encodings, one or two steps' results per instruction with the expected values of spec/95_test_vectors.md, and for each
obligation a witness that its hypotheses can be met. -/

namespace Sys2Proof.Tests

open Sys2Proof.Machine

/-! ### Helpers -/

/-- The cells of `bytes` laid out from address `a` on. -/
def cells (a : Nat) : List Byte → List Host.Cell
  | [] => []
  | b :: bs => Sparse.put 0 a b (cells (a + 1) bs)

/-- A ByteSource of exactly these bytes. -/
def source (bytes : List Byte) : ByteSource := ⟨bytes.length, cells 0 bytes⟩

/-- The reset state over a ByteSource of exactly these bytes. -/
def loaded (bytes : List Byte) : State := { State.reset with src := source bytes }

/-- What is seen of the next state, where there is one. -/
def see {α : Type} (o : Outcome) (f : State → α) : Option α :=
  match o with
  | .next t => some (f t)
  | .fault _ => none
  | .refused _ => none

/-- What a decoder answers when it completes. -/
def answer {α : Type} (m : Decoder α) (d : DecodeState) : Option (α × DecodeState) :=
  match m d with
  | .ok a d' => some (a, d')
  | .error _ _ => none

theorem ok_of_answer {α : Type} {m : Decoder α} {d d' : DecodeState} {a : α} (h : answer m d = some (a, d')) :
    m d = .ok a d' := by
  unfold answer at h
  split at h
  · cases h
    assumption
  · cases h

/-- A command word with `op`, and 1 in both operands. -/
def wordOf (op : Nat) : CommandWord := BitVec.ofNat 72 (op * 2 ^ 64 + 2 ^ 32 + 1)

/-- A tile of 64 cells `c`. -/
def flatTile (c : Byte) : Tile := List.replicate 64 c

/-- A palette of sixteen entries, entry 1 white. -/
def somePalette : List Colour := ⟨0, 0, 0⟩ :: ⟨31, 31, 31⟩ :: List.replicate 14 ⟨0, 0, 0⟩

/-- The placement of tile `t`, `w` by `h` tiles of the size class `(shape, size)`. -/
def place (t x y : Byte) (size shape : BitVec 2) (w h : Nat) (hflip : Bool) : Placement :=
  ⟨t, x, y, size, shape, w, h, hflip, false⟩

/-- Working stores ready to compose: three tiles (of ones, twos, threes), the palette, and the list. -/
def ready (list : List Placement) : State :=
  { State.reset with
    wtiles := [flatTile 1, flatTile 2, flatTile 3], wpal := somePalette, wplist := list
    tvalid := true, pvalid := true, lvalid := true }

/-- The ByteSource of program P1 (the source's end-to-end example, S7). -/
def p1 : List Byte :=
  [0x00, 0x00, 0x01, 0x01, 0x04, 0, 0, 0, 0x18, 0, 0, 0, 0x3C, 0, 0, 0, 0, 0, 0, 0, 0x60, 0, 0, 0, 0x0A, 0, 0x01, 0]
    ++ [0x20, 0, 0, 0] ++ List.replicate 32 0x11
    ++ [0x20, 0, 0, 0, 0x00, 0x00, 0xFF, 0x7F] ++ List.replicate 28 0
    ++ [0x04, 0, 0, 0, 0, 0, 0, 0, 0, 0xFF, 0xFF, 0xFF, 0xFF, 0xFF]

/-- The one frame of program P1. -/
def p1Frame : Frame := ⟨[flatTile 1], somePalette, [place 0 0 0 0 0 1 1 false], 0x0A, 0x01⟩

/-- Bytes of a placement list: no lead-in, two placements, the end (case e of P4 and O-4). -/
def listBytes : List Byte :=
  [4, 0, 0, 0, 0x05, 0xF8, 0xF0, 0x41, 0x01, 0xFF, 0xFF, 0xFF, 0xFF, 0xFE, 0xFF, 0xFF, 0xFF, 0xFF, 0xFF]

/-- The two placements of `listBytes` (O-4, O-5). -/
def listOf : List Placement :=
  [⟨0x05, 0xF8, 0xF0, 1, 1, 4, 1, true, false⟩, ⟨0xFF, 0xFF, 0xFF, 3, 2, 4, 8, true, true⟩]

/-! ### Well-formedness -/

/-- A `PLACE` of five bytes 0xFF is ill formed (R83). -/
theorem test_place_of_sentinel_ill_formed : (Instr.place 0xFF 0xFF 0xFF 0xFF 0xFF).wf = false := by decide

/-- A `PLACE` with one other byte is well formed (R83, O-5). -/
theorem test_place_one_other_byte_well_formed : (Instr.place 0xFF 0xFF 0xFF 0xFF 0xFE).wf = true := by decide

/-! ### Decoding, from words written out from R72 and R82 -/

theorem test_decode_rebase : decode (.command 0x010000008000000010) = .ok (.rebase 0x80 0x10) := by decide
theorem test_decode_seek : decode (.command 0x0200000020FFFFFFFF) = .ok (.seek 0x20) := by decide
theorem test_decode_read8 : decode (.command 0x03DEADBEEF12345678) = .ok .read8 := by decide
theorem test_decode_read16 : decode (.command 0x040000000000000000) = .ok .read16 := by decide
theorem test_decode_read32 : decode (.command 0x050000000000000000) = .ok .read32 := by decide
theorem test_decode_decpal : decode (.command 0x100000000000000000) = .ok .decpal := by decide
theorem test_decode_dectile : decode (.command 0x110000000000000000) = .ok .dectile := by decide
theorem test_decode_decoam : decode (.command 0x120000000000000000) = .ok .decoam := by decide
theorem test_decode_decasset_lenient : decode (.command 0x1300000000FFFFFFFE) = .ok (.decasset 0 false) := by decide
theorem test_decode_decasset_strict : decode (.command 0x130000010000000001) = .ok (.decasset 0x100 true) := by decide
theorem test_decode_selframe : decode (.command 0x140000000100000000) = .ok (.selframe 1) := by decide
theorem test_decode_lookup : decode (.command 0x150000000200000000) = .ok (.lookup 2) := by decide
theorem test_decode_compose : decode (.command 0x200000000100000000) = .ok (.compose 1) := by decide
theorem test_decode_xform : decode (.command 0x21FFFFFF8000000000) = .ok (.xform 0x80) := by decide
theorem test_decode_blit : decode (.command 0x220000000100000000) = .ok (.blit 1) := by decide
theorem test_decode_end : decode (.record [0xFF, 0xFF, 0xFF, 0xFF, 0xFF]) = .ok .endMark := by decide
theorem test_decode_place :
    decode (.record [0x05, 0xF8, 0xF0, 0x41, 0x01]) = .ok (.place 0x05 0xF8 0xF0 0x41 0x01) := by decide
theorem test_decode_illegal_zero : decode (.command 0) = .error (.illegalCommand 0) := by decide
theorem test_decode_illegal_23 : decode (.command 0x230000000000000000) = .error (.illegalCommand 0x23) := by decide

/-- A record of the opcode table, its first byte least significant (R82). -/
theorem test_table_record : decodeTableWord 40 0x0141F0F805 = some (.place 0x05 0xF8 0xF0 0x41 0x01) := by decide

/-- A command word of the opcode table (R71). -/
theorem test_table_command : decodeTableWord 72 0x010000008000000010 = some (.rebase 0x80 0x10) := by decide

/-! ### The step -/

/-- A word placed by `withFetchWord` is what the next step runs. -/
theorem test_fetch_command :
    see (step (State.reset.withFetchWord 72 0x210000008100000000)) (·.result) = some 1 := by decide +kernel

/-- A record placed by `withFetchWord` is what the next step runs (O-4). -/
theorem test_fetch_record :
    see (step (State.reset.withFetchWord 40 0x0141F0F805)) (fun t => (t.walk, t.cursor)) =
      some ([⟨0x05, 0xF8, 0xF0, 1, 1, 4, 1, true, false⟩], 5) := by decide +kernel

/-- X-2: an `op` outside the table raises `IllegalCommand`. -/
theorem test_step_illegal :
    see (step { State.reset with host := [.cmd 0x230000000000000000] }) (fun t => (t.err, t.einfo, t.ewidth)) =
      some (.illegalCommand, 0x23, 0) := by decide +kernel

/-- X-6: a FAULTED unit does not run a command. -/
theorem test_step_faulted :
    see (step { State.reset with err := .badSkip, host := [.cmd 0x210000008100000000] }) (·.rvalid) = some false := by
  decide +kernel

/-! ### Results of single steps, expected values from spec/95_test_vectors.md -/

/-- R-6. -/
theorem test_rebase : see (exec (.rebase 0x104 0) State.reset) (fun t => (t.base, t.cursor)) = some (0x104, 0) := by
  decide +kernel

/-- R-7. -/
theorem test_seek :
    see (exec (.seek 1) { State.reset with base := 3, cursor := 7 }) (fun t => (t.base, t.cursor)) = some (3, 1) := by
  decide +kernel

/-- R-2. -/
theorem test_read8_fault :
    see (exec .read8 { loaded [1, 2, 3, 4, 5] with base := 1, cursor := 4, rvalid := true })
      (fun t => (t.err, t.einfo, t.ewidth, t.cursor, t.rvalid)) = some (.outOfBounds, 5, 1, 4, false) := by
  decide +kernel

/-- R-5, its first read. -/
theorem test_read8 :
    see (exec .read8 (loaded [1, 2, 3, 4, 5])) (fun t => (t.result, t.cursor, t.rvalid)) = some (1, 1, true) := by
  decide +kernel

/-- R-3. -/
theorem test_read16 :
    see (exec .read16 { loaded [1, 2, 3] with base := 1 }) (fun t => (t.result, t.cursor)) = some (0x0302, 2) := by
  decide +kernel

/-- R-4. -/
theorem test_read16_fault :
    see (exec .read16 { loaded [1, 2, 3] with base := 2 }) (fun t => (t.err, t.einfo, t.ewidth, t.cursor)) =
      some (.outOfBounds, 2, 2, 0) := by
  decide +kernel

/-- R-1. -/
theorem test_read32 :
    see (exec .read32 { loaded [1, 2, 3, 4, 5] with base := 1 }) (fun t => (t.result, t.cursor)) =
      some (0x05040302, 4) := by
  decide +kernel

/-- P-6, P-1 and P-3, at the end of the buffer (P-10), with a size field that is ignored (P-9). -/
theorem test_decpal :
    see (exec .decpal (loaded ([0xFF, 0xFF, 0xFF, 0xFF, 0x34, 0x12, 0xFF, 0x7F, 0x1F, 0x00] ++ List.replicate 26 0)))
      (fun t => (t.wpal.take 3, t.wpal.length, t.cursor, t.pvalid)) =
      some ([⟨20, 17, 4⟩, ⟨31, 31, 31⟩, ⟨31, 0, 0⟩], 16, 36, true) := by
  decide +kernel

/-- P-11. -/
theorem test_decpal_fault :
    see (exec .decpal (loaded (List.replicate 35 0))) (fun t => (t.err, t.einfo, t.ewidth, t.cursor, t.pvalid)) =
      some (.outOfBounds, 34, 2, 34, false) := by
  decide +kernel

/-- T-3. -/
theorem test_dectile :
    see (exec .dectile (loaded ([0x20, 0, 0, 0, 0xAB] ++ List.replicate 31 0x11)))
      (fun t => (t.wtiles, t.cursor, t.tvalid)) = some ([11 :: 10 :: List.replicate 62 1], 36, true) := by
  decide +kernel

/-- T-8. -/
theorem test_dectile_fault :
    see (exec .dectile (loaded ([0x40, 0, 0, 0] ++ List.replicate 40 0x11)))
      (fun t => (t.err, t.einfo, t.ewidth, t.tvalid)) = some (.outOfBounds, 44, 1, false) := by
  decide +kernel

/-- O-4 and O-5 in one list. -/
theorem test_decoam :
    see (exec .decoam (loaded listBytes)) (fun t => (t.wplist, t.cursor, t.lvalid)) = some (listOf, 19, true) := by
  decide +kernel

/-- O-12 with `MAX_PLACEMENTS = 2`. -/
theorem test_decoam_unterminated :
    see (exec .decoam { loaded [4, 0, 0, 0, 1, 2, 3, 0, 0, 4, 5, 6, 1, 0, 7, 8, 9, 2, 2] with maxPlacements := 2 })
      (fun t => (t.err, t.einfo, t.cursor, t.lvalid)) = some (.unterminatedPlacementList, 0x0E, 19, false) := by
  decide +kernel

/-- P1, command 1 (S7). -/
theorem test_decasset :
    see (exec (.decasset 0 true) (loaded p1)) (fun t => (t.frames, t.base, t.cursor, t.warn)) =
      some ([p1Frame], 4, 110, false) := by
  decide +kernel

/-- A-2. -/
theorem test_decasset_markers :
    see (exec (.decasset 0 true) (loaded [0x55, 0x00, 0x02, 0x00])) (fun t => (t.err, t.einfo, t.base, t.cursor)) =
      some (.unexpectedMarker, 0x0200, 0, 4) := by
  decide +kernel

/-- A-9. -/
theorem test_selframe_fault :
    see (exec (.selframe 0) State.reset) (fun t => (t.err, t.einfo)) = some (.badOperand, 0) := by
  decide +kernel

/-- P1, command 2. -/
theorem test_selframe :
    see (exec (.selframe 0) { State.reset with frames := [p1Frame] })
      (fun t => (t.wtiles, t.wplist, t.wdelay, t.wendflag, t.lvalid)) =
      some ([flatTile 1], [place 0 0 0 0 0 1 1 false], 0x0A, 0x01, true) := by
  decide +kernel

/-- A-7. -/
theorem test_lookup :
    see (exec (.lookup 1) { State.reset with
      src := ⟨0x31EB0, cells 0x31EAC [0x78, 0x56, 0x34, 0x12]⟩ }) (fun t => (t.result, t.cursor)) =
      some (0x00345678, 0) := by
  decide +kernel

/-- C-9. -/
theorem test_compose :
    see (exec (.compose 0) (ready [place 1 0x7F 0x80 0 1 2 1 false]))
      (fun t => (t.outx, t.outy, t.outw, t.outh, t.lbuf.head?)) =
      some (255, 0, 16, 8, some (List.replicate 8 2 ++ List.replicate 8 3)) := by
  decide +kernel

/-- C-8. -/
theorem test_compose_missing_tile :
    see (exec (.compose 0) (ready [place 2 0 0 0 1 2 1 false])) (fun t => (t.err, t.einfo, t.ovalid)) =
      some (.tileIndexOutOfRange, 3, false) := by
  decide +kernel

/-- C-1. -/
theorem test_xform : see (exec (.xform 0x81) State.reset) (fun t => (t.result, t.rvalid)) = some (1, true) := by
  decide +kernel

/-- C-2 and P1, command 4: the corner pixels of the block, and one outside it. -/
theorem test_blit :
    see (exec (.blit 0) (ready [place 0 0 0 0 0 1 1 false])) (fun t =>
      (t.canvas.pixel 128 128, t.canvas.pixel 135 135, t.canvas.pixel 136 135, t.canvas.pixels.length)) =
      some (some ⟨248, 248, 248, 255⟩, some ⟨248, 248, 248, 255⟩, some ⟨0, 0, 0, 0⟩, 64) := by
  decide +kernel

/-- R163: the list is the result. -/
theorem test_end :
    see (exec .endMark { State.reset with busy := true, walk := listOf })
      (fun t => (t.wplist, t.lvalid, t.busy, t.walk, t.cursor)) = some (listOf, true, false, [], 5) := by
  decide +kernel

/-- O-7. -/
theorem test_place_shape_3 :
    see (exec (.place 0xFF 0xFF 0xFF 0xFF 0xFB) { State.reset with busy := true })
      (fun t => (t.err, t.einfo, t.lvalid, t.busy)) = some (.invalidSizeIndex, 15, false, false) := by
  decide +kernel

/-- O-9: only ignored bits set. -/
theorem test_place_ignored_bits :
    see (exec (.place 0 0 0 0x9C 0xFC) { State.reset with busy := true }) (·.walk) =
      some [place 0 0 0 0 0 1 1 false] := by
  decide +kernel

/-! ### Witnesses: concrete states and operands that meet each obligation's hypotheses

One theorem for each obligation that has hypotheses, in the obligations' order, with a conjunct for each clause, at the
boundary values of the clause's range. -/

theorem next_of_see {α : Type} {o : Outcome} {f : State → α} {a : α} (h : see o f = some a) :
    ∃ t, o = .next t ∧ f t = a := by
  unfold see at h
  split at h
  · rename_i t
    cases h
    exact ⟨t, rfl, rfl⟩
  · cases h
  · cases h

/-- The host presents a command word with `op`. -/
def presented (op : Nat) : State := { State.reset with host := [.cmd (wordOf op)] }

/-- A record stream in progress over `bytes`. -/
def walking (bytes : List Byte) : State := { loaded bytes with busy := true }

/-- A FAULTED state in which the host presents `input`. -/
def faultedWith (input : HostInput) : State := { State.reset with err := .badSkip, einfo := 3, host := [input] }

theorem witness_DecodeEncodeAgree :
    (Instr.place 0xFF 0xFF 0xFF 0xFF 0xFE).wf = true ∧ Instr.endMark.wf = true ∧ (Instr.decasset 0x100 true).wf = true := by
  decide

theorem witness_DecodedIsWellFormed :
    decode (.command 0x21FFFFFF8000000000) = .ok (.xform 0x80) ∧
    decode (.record [0xFF, 0xFF, 0xFF, 0xFF, 0xFE]) = .ok (.place 0xFF 0xFF 0xFF 0xFF 0xFE) := by
  decide

theorem witness_CommandOperands :
    ∀ op ∈ [0x01, 0x02, 0x03, 0x04, 0x05, 0x10, 0x11, 0x12, 0x13, 0x14, 0x15, 0x20, 0x21, 0x22],
      (wordOf op).toNat / 2 ^ 64 = op := by
  decide

theorem witness_IllegalCommands :
    State.reset.busy = false ∧
    (∀ op ∈ [0x00, 0x06, 0x0F, 0x16, 0x1F, 0x23, 0xFF], (wordOf op).toNat / 2 ^ 64 = op ∧
      (op = 0 ∨ (0x06 ≤ op ∧ op ≤ 0x0F) ∨ (0x16 ≤ op ∧ op ≤ 0x1F) ∨ 0x23 ≤ op)) ∧
    (∀ op ∈ [0x01, 0x05, 0x10, 0x15, 0x20, 0x22], (wordOf op).toNat / 2 ^ 64 = op ∧
      ¬ (op = 0 ∨ (0x06 ≤ op ∧ op ≤ 0x0F) ∨ (0x16 ≤ op ∧ op ≤ 0x1F) ∨ 0x23 ≤ op)) := by
  decide

theorem witness_RecordForms :
    (255 + 2 ^ 8 * 255 + 2 ^ 16 * 255 + 2 ^ 24 * 255 + 2 ^ 32 * (0xFF : Byte).toNat = 0xFFFFFFFFFF) ∧
    (255 + 2 ^ 8 * 255 + 2 ^ 16 * 255 + 2 ^ 24 * 255 + 2 ^ 32 * (0xFE : Byte).toNat ≠ 0xFFFFFFFFFF) := by
  decide

theorem witness_StepRunsCommand :
    (presented 0x02).err = .noFault ∧ (presented 0x02).busy = false ∧ (presented 0x02).host = .cmd (wordOf 0x02) :: [] ∧
      decode (.command (wordOf 0x02)) = .ok (.seek 1) := by
  decide +kernel

theorem witness_StepRunsRecord :
    (walking [0, 0, 0, 0, 0]).err = .noFault ∧ (walking [0, 0, 0, 0, 0]).busy = true ∧
      (∀ rest, (walking [0, 0, 0, 0, 0]).host ≠ .rst :: rest) ∧
      (walking [0, 0, 0, 0, 0]).ea + 5 ≤ (walking [0, 0, 0, 0, 0]).src.len :=
  ⟨rfl, rfl, nofun, by decide⟩

theorem witness_RecordCutShort :
    ∀ s ∈ [walking [0, 0, 0, 0], walking [], { walking [0] with base := 9 }],
      s.err = .noFault ∧ s.busy = true ∧ (∀ rest, s.host ≠ .rst :: rest) ∧ s.src.len < s.ea + 5 := by
  intro s hs
  simp only [List.mem_cons, List.not_mem_nil, or_false] at hs
  rcases hs with rfl | rfl | rfl <;> exact ⟨rfl, rfl, nofun, by decide⟩

theorem witness_FaultedIsTerminal :
    ((faultedWith (.cmd (wordOf 0x21))).err ≠ .noFault ∧
      ∀ rest, (faultedWith (.cmd (wordOf 0x21))).host ≠ .rst :: rest) ∧
    ((faultedWith .rst).err ≠ .noFault ∧ (faultedWith .rst).host = .rst :: []) :=
  ⟨⟨by decide, nofun⟩, by decide⟩

theorem witness_FaultedProgramHasNoEffect : (faultedWith .rst).err ≠ .noFault := by decide

theorem witness_ResetTakesEffect : (faultedWith .rst).host = .rst :: [] := by decide

theorem witness_IdleRunsNothing : State.reset.busy = false ∧ State.reset.host = [] := by decide

/-- A state far from reset: three tiles, a palette and a placement ready, and a `BLIT` presented. -/
def readyToBlit : State :=
  { ready [place 0 0 0 0 0 1 1 false] with
    src := source (List.replicate 100 7), host := [.cmd 0x220000000000000000] }

theorem witness_InvKept : Inv readyToBlit ∧ ∃ t, step readyToBlit = .next t := by
  refine ⟨?_, (next_of_see (f := fun t => t.canvas.pixels.length) (a := 64) (by decide +kernel)).imp fun _ h => h.1⟩
  constructor
  case memCanonical => decide +kernel
  case memInside => decide +kernel
  case tilesOk => exact ⟨by decide +kernel, by unfold TileOk; decide +kernel⟩
  case placementsOk => exact ⟨by decide +kernel, by unfold PlacementOk; decide +kernel⟩
  all_goals simp [readyToBlit, ready, State.reset, source, Sparse.wf, Sparse.wfFrom, PlacementsOk, State.nframes,
    somePalette]

theorem witness_ParametersFixed : ∃ t, step (presented 0x02) = .next t :=
  (next_of_see (f := fun t => t.cursor) (a := 1) (by decide +kernel)).imp fun _ h => h.1

theorem witness_BaseWriters : ∃ t, exec (.rebase 1 2) State.reset = .next t := ⟨_, rfl⟩

theorem witness_ResultWriters :
    (State.reset.err = .noFault ∧ ∃ t, exec (.xform 1) State.reset = .next t) ∧
    (State.reset.err = .noFault ∧ ∃ t, exec .read8 State.reset = .next t ∧ t.err = .outOfBounds) ∧
    (State.reset.err = .noFault ∧ ∃ t, exec (.seek 1) State.reset = .next t) :=
  ⟨⟨rfl, _, rfl⟩, ⟨rfl, next_of_see (f := fun t => t.err) (by decide +kernel)⟩, ⟨rfl, _, rfl⟩⟩

theorem witness_WarnSticky :
    ∃ t, exec (.decasset 0 false) (loaded [0x55, 0x00, 0x02, 0x00]) = .next t ∧ t.warn = true :=
  next_of_see (f := fun t => t.warn) (by decide +kernel)

theorem witness_CanvasWriters :
    readyToBlit.err = .noFault ∧ ∃ t, exec (.blit 0) readyToBlit = .next t ∧ t.canvas.pixels.length = 64 :=
  ⟨rfl, next_of_see (f := fun t => t.canvas.pixels.length) (by decide +kernel)⟩

theorem witness_StoreWriters : ∃ t, exec .endMark (walking []) = .next t := ⟨_, rfl⟩

theorem witness_BusyNeverSeen : (presented 0x02).busy = false ∧ ∃ t, step (presented 0x02) = .next t :=
  ⟨rfl, witness_ParametersFixed⟩

/-- One instruction and state for each fault kind an instruction can raise. -/
def faultCases : List (Instr × State × ErrKind) :=
  [(.read8, State.reset, .outOfBounds),
   (.decasset 0 true, loaded [0x55, 0x00, 0x02, 0x00], .unexpectedMarker),
   (.place 0 0 0 0 0, { State.reset with maxPlacements := 0 }, .unterminatedPlacementList),
   (.place 0xFF 0xFF 0xFF 0xFF 0xFB, State.reset, .invalidSizeIndex),
   (.compose 0, ready [place 2 0 0 0 1 2 1 false], .tileIndexOutOfRange),
   (.blit 0, State.reset, .notReady),
   (.selframe 0, State.reset, .badOperand),
   (.decoam, loaded [3, 0, 0, 0], .badSkip),
   (.xform 0, State.reset, .noFault)]

theorem witness_FaultKinds :
    ∀ c ∈ faultCases, c.2.1.err = .noFault ∧ c.2.1.ewidth = 0 ∧ ∃ t, exec c.1 c.2.1 = .next t ∧ t.err = c.2.2 := by
  have h : ∀ c ∈ faultCases, c.2.1.err = .noFault ∧ c.2.1.ewidth = 0 ∧ see (exec c.1 c.2.1) (·.err) = some c.2.2 := by
    decide +kernel
  exact fun c hc => ⟨(h c hc).1, (h c hc).2.1, next_of_see (h c hc).2.2⟩

theorem witness_StatusRegister : ({ State.reset with ewidth := 7 } : State).ewidth < 8 := by decide

/-- Every bound of the map at its largest value. -/
theorem witness_RegisterMap :
    let s : State := { State.reset with
      base := 2 ^ 34 - 1, cursor := 2 ^ 34 - 1, einfo := 2 ^ 35 - 1, frames := List.replicate 255 p1Frame }
    s.base < 2 ^ 34 ∧ s.cursor < 2 ^ 34 ∧ s.nframes < 2 ^ 8 ∧ s.einfo < 2 ^ 35 := by
  decide +kernel

theorem witness_MemReadValue :
    (∀ c ∈ [(1, 4), (2, 3), (4, 1)], (c.1 = 1 ∨ c.1 = 2 ∨ c.1 = 4) ∧ (source [1, 2, 3, 4]).len < c.2 + c.1) ∧
    (∀ c ∈ [(1, 3), (2, 2), (4, 0)], (c.1 = 1 ∨ c.1 = 2 ∨ c.1 = 4) ∧ c.2 + c.1 ≤ (source [1, 2, 3, 4]).len) := by
  decide

theorem witness_MixedWidths :
    memRead (source [1, 2, 3, 4]) 0 4 = .ok 0x04030201 ∧ memRead (source [1, 2, 3, 4]) 2 2 = .ok 0x0403 := by
  decide

theorem witness_ReaderFaultAtomicity :
    memRead (source [1, 2, 3]) (DecodeState.ea ⟨1, 2, false⟩) 1 = .error (.outOfBounds 3 1) ∧
    memRead (source [1, 2, 3]) (DecodeState.ea ⟨1, 1, false⟩) 2 = .error (.outOfBounds 2 2) ∧
    memRead (source [1, 2, 3]) (DecodeState.ea ⟨0, 0, false⟩) 4 = .error (.outOfBounds 0 4) := by
  decide

theorem witness_ReadsComplete :
    (loaded [1, 2, 3, 4]).ea + 4 ≤ (loaded [1, 2, 3, 4]).src.len ∧ (loaded [1, 2]).ea + 2 ≤ (loaded [1, 2]).src.len ∧
      (loaded [1]).ea + 1 ≤ (loaded [1]).src.len := by
  decide

theorem witness_ReadsFault :
    (loaded []).src.len < (loaded []).ea + 1 ∧ (loaded [1]).src.len < (loaded [1]).ea + 2 ∧
      (loaded [1, 2, 3]).src.len < (loaded [1, 2, 3]).ea + 4 := by
  decide

theorem witness_Rgb8Scales :
    (Colour.mk 31 0 1).rgb8 = (Colour.mk 31 0 1).rgb8 ∧
      (248 : Byte) ∈ [(Colour.mk 31 0 1).rgb8.1, (Colour.mk 31 0 1).rgb8.2.1, (Colour.mk 31 0 1).rgb8.2.2] := by
  decide

theorem witness_DecpalCompletes : Layout.PaletteFits (loaded (List.replicate 36 0)).src 0 := by
  unfold Layout.PaletteFits
  decide

theorem witness_DecpalFaults :
    (loaded (List.replicate 3 0)).src.len < (loaded (List.replicate 3 0)).ea + 4 ∧
    ∀ c ∈ [(0, 4), (0, 5), (15, 34), (15, 35)],
      let s := loaded (List.replicate c.2 0)
      c.1 < 16 ∧ s.ea + 4 + 2 * c.1 ≤ s.src.len ∧ s.src.len < s.ea + 4 + 2 * c.1 + 2 := by
  decide +kernel

/-- One tile's size field and its 32 bytes, and the same with the last byte missing. -/
theorem witness_DectileCompletes :
    Layout.TilemapFits (loaded ([0x20, 0, 0, 0] ++ List.replicate 32 0x11)).src 0 := by
  unfold Layout.TilemapFits
  decide +kernel

theorem witness_DectileFaults :
    (loaded [0, 0, 0]).src.len < (loaded [0, 0, 0]).ea + 4 ∧
    let s := loaded ([0x20, 0, 0, 0] ++ List.replicate 31 0x11)
    s.ea + 4 ≤ s.src.len ∧ s.src.len < s.ea + 4 + 32 * (Layout.word s.src s.ea / 32) := by
  decide +kernel

/-- A key with a size class and a key without. -/
theorem witness_SizeTable :
    consts.sizeTable[4 * ((2 : Byte).toNat % 4) + (3 : Byte).toNat % 4]? = some (4, 8) ∧
      consts.sizeTable[4 * ((3 : Byte).toNat % 4) + (0 : Byte).toNat % 4]? = none := by
  decide

theorem witness_PlaceAppends :
    ({ State.reset with walk := listOf, maxPlacements := 3 } : State).walk.length < 3 ∧ (0xFE : Byte).toNat % 4 ≠ 3 := by
  decide

theorem witness_PlaceRaises :
    (let s : State := { State.reset with walk := listOf, maxPlacements := 2 }
     s.maxPlacements ≤ s.walk.length) ∧
    (let s : State := { State.reset with walk := listOf, maxPlacements := 3 }
     s.walk.length < s.maxPlacements ∧ (0xFF : Byte).toNat % 4 = 3) := by
  decide

theorem witness_DecoamDecodesTheList :
    Layout.PlacementListAt (loaded listBytes).src (loaded listBytes).maxPlacements (loaded listBytes).ea listOf :=
  (decodePlacements_eq_ok.1 (ok_of_answer
    (show answer (decodePlacements (loaded listBytes).src 128) ⟨0, 0, false⟩ = some (listOf, ⟨0, 19, false⟩) by
      decide +kernel))).1

theorem witness_DecoamIsTheRecordWalk :
    let s := loaded listBytes
    s.err = .noFault ∧ s.busy = false ∧ s.walk = [] ∧ s.host = [] ∧ s.ea + 4 ≤ s.src.len ∧
      4 ≤ Layout.word s.src s.ea := by
  decide +kernel

theorem witness_DecoamSkipFaults :
    (loaded [4, 0, 0]).src.len < (loaded [4, 0, 0]).ea + 4 ∧
    (loaded [3, 0, 0, 0]).ea + 4 ≤ (loaded [3, 0, 0, 0]).src.len ∧
      Layout.word (loaded [3, 0, 0, 0]).src (loaded [3, 0, 0, 0]).ea < 4 := by
  decide +kernel

/-- The list of O-12 with `MAX_PLACEMENTS = 2`. -/
theorem witness_DecoamUnterminated :
    let s : State := { loaded [4, 0, 0, 0, 1, 2, 3, 0, 0, 4, 5, 6, 1, 0, 7, 8, 9, 2, 2] with maxPlacements := 2 }
    let first := s.ea + Layout.word s.src s.ea
    s.ea + 4 ≤ s.src.len ∧ 4 ≤ Layout.word s.src s.ea ∧ first + 5 * (s.maxPlacements + 1) ≤ s.src.len ∧
    (∀ k ≤ s.maxPlacements, ¬ Layout.IsEnd s.src (first + 5 * k)) ∧
    (∀ k < s.maxPlacements, Layout.byteNat s.src (first + 5 * k + 4) % 4 ≠ 3) := by
  unfold Layout.IsEnd
  decide +kernel

/-- What `DECASSET` answers over program P1 and over the empty asset of A-3. -/
theorem asset_p1 : Layout.AssetAt (loaded p1).src 128 0 [p1Frame] :=
  (decodeSpriteAsset_eq_ok.1 (ok_of_answer
    (show answer (decodeSpriteAsset (loaded p1).src 128 0 true) ⟨0, 0, false⟩ = some ([p1Frame], ⟨4, 110, false⟩) by
      decide +kernel))).1

theorem witness_DecassetDecodesTheAsset :
    (Layout.AssetAt (loaded p1).src (loaded p1).maxPlacements (0 : Word).toNat [p1Frame] ∧
      Layout.MarkersMatch (loaded p1).src (0 : Word).toNat) ∧
    (let s := loaded [0x55, 0x00, 0x02, 0x00]
     Layout.AssetAt s.src s.maxPlacements (0 : Word).toNat [] ∧
      ¬ Layout.MarkersMatch s.src (0 : Word).toNat) := by
  refine ⟨⟨asset_p1, by unfold Layout.MarkersMatch; decide +kernel⟩, ⟨by decide, by decide, by decide, trivial⟩, ?_⟩
  unfold Layout.MarkersMatch
  decide

theorem witness_DecassetCompletesOnlyOnAssets :
    (loaded p1).err = .noFault ∧ ∃ t, exec (.decasset 0 true) (loaded p1) = .next t ∧ t.err = .noFault :=
  ⟨rfl, next_of_see (f := fun t => t.err) (by decide +kernel)⟩

theorem witness_DecassetHeaderFaults :
    (loaded [0, 9, 9]).src.len < (0 : Word).toNat + 4 ∧
    ((0 : Word).toNat + 4 ≤ (loaded [0x55, 0, 2, 0]).src.len ∧
      ¬ Layout.MarkersMatch (loaded [0x55, 0, 2, 0]).src (0 : Word).toNat) := by
  unfold Layout.MarkersMatch
  decide

theorem witness_DecassetFaultExposesNothing :
    (loaded [0x55, 0, 2, 0]).err = .noFault ∧
      ∃ t, exec (.decasset 0 true) (loaded [0x55, 0, 2, 0]) = .next t ∧ t.err ≠ .noFault := by
  obtain ⟨t, h, he⟩ := next_of_see (o := exec (.decasset 0 true) (loaded [0x55, 0, 2, 0])) (f := fun t => t.err)
    (a := .unexpectedMarker) (by decide +kernel)
  exact ⟨rfl, t, h, by rw [he]; decide⟩

theorem witness_DecassetIsDeterministic :
    (loaded p1).err = .noFault ∧ ∃ t, exec (.decasset 0 true) (loaded p1) = .next t ∧ t.err = .noFault :=
  witness_DecassetCompletesOnlyOnAssets

theorem witness_SelframeSelects :
    let s : State := { State.reset with frames := [p1Frame] }
    (wordOf 0x14).toNat / 2 ^ 64 = 0x14 ∧ s.frames[(0 : Word).toNat]? = some p1Frame ∧ s.nframes ≤ (1 : Word).toNat := by
  decide

theorem witness_LookupReads :
    (wordOf 0x15).toNat / 2 ^ 64 = 0x15 ∧
    (let s : State := { State.reset with src := ⟨0x31EAC, []⟩ }
     0x31EA8 + 4 * (0 : Word).toNat + 4 ≤ s.src.len) ∧
    (let s : State := { State.reset with src := ⟨0x31EAB, []⟩ }
     s.src.len < 0x31EA8 + 4 * (0 : Word).toNat + 4) := by
  decide

theorem witness_ComposeShowsThePlacement :
    let p := place 1 0x7F 0x80 0 1 2 1 false
    let s := ready [p]
    s.tvalid = true ∧ s.pvalid = true ∧ s.lvalid = true ∧ s.wplist[(0 : Word).toNat]? = some p ∧
      p.startTile.toNat + p.w * p.h ≤ s.nt := by
  decide +kernel

theorem witness_CompositionFaults :
    (State.reset.tvalid = false ∨ State.reset.pvalid = false ∨ State.reset.lvalid = false) ∧
    (let p := place 2 0 0 0 1 2 1 false
     let s := ready [p]
     s.tvalid = true ∧ s.pvalid = true ∧ s.lvalid = true ∧ s.np ≤ (1 : Word).toNat ∧
      s.wplist[(0 : Word).toNat]? = some p ∧ 0 < p.w * p.h ∧ s.nt < p.startTile.toNat + p.w * p.h) := by
  decide +kernel

theorem witness_HorizontalFlipMirrors :
    let p := place 1 0x7F 0x80 0 1 2 1 false
    let s := ready [p]
    s.tvalid = true ∧ s.pvalid = true ∧ s.lvalid = true ∧ s.wplist[(0 : Word).toNat]? = some p ∧ p.hflip = false ∧
      p.startTile.toNat + p.w * p.h ≤ s.nt ∧ ∃ t, exec (.compose 0) s = .next t :=
  ⟨rfl, rfl, rfl, rfl, rfl, by decide,
    (next_of_see (f := fun t => t.outx) (a := 255) (by decide +kernel)).imp fun _ h => h.1⟩

theorem witness_VerticalFlipIsIgnored : ∃ t, exec (.blit 0) readyToBlit = .next t :=
  witness_CanvasWriters.2.imp fun _ h => h.1

theorem witness_OffsetTransform :
    (wordOf 0x21).toNat / 2 ^ 64 = 0x21 ∧ (0x7F : Byte).toNat ≤ 0x7F ∧ 0x7F < (0x80 : Byte).toNat := by decide

theorem witness_BlitWritesOpaquePixels :
    let p := place 1 0x7F 0x80 0 1 2 1 false
    let s := ready [p]
    s.tvalid = true ∧ s.pvalid = true ∧ s.lvalid = true ∧ s.wplist[(0 : Word).toNat]? = some p ∧
      p.startTile.toNat + p.w * p.h ≤ s.nt ∧ Sparse.wf Rgba.blank s.canvas.pixels = true := by
  decide +kernel

end Sys2Proof.Tests
end

section
/-! PROOFS. Everything a step can do to the state, said once through the effects of the instructions, and from it that
every step keeps the invariant of the machine (10_state.md R23, R27, R31 to R35, R39). -/

namespace Sys2Proof.Machine

open Layout

/-! ### What a step leaves -/

/-- The two forms of a placement record (R83); every other instruction is a command (R72). -/
def IsRecord (i : Instr) : Prop := i = .endMark ∨ ∃ b0 b1 b2 b3 b4, i = .place b0 b1 b2 b3 b4

/-- No command word stands for a placement record (R70, R72). -/
theorem decode_command_not_isRecord {w : CommandWord} {i : Instr} (h : decode (.command w) = .ok i) :
    ¬ IsRecord i := by
  simp only [decode, decodeCommand] at h
  split at h <;> cases h <;> simp [IsRecord]

/-- The bytes of a record stand for one of its two forms (R83). -/
theorem decode_record_isRecord {bytes : List Byte} {i : Instr} (h : decode (.record bytes) = .ok i) : IsRecord i := by
  simp only [decode] at h
  unfold decodeRecord at h
  split at h
  · split at h
    · cases h
      exact .inl rfl
    · cases h
      exact .inr ⟨_, _, _, _, _, rfl⟩
  · cases h

/-- The five bytes at `a` decode to the record form the sentinel test says (R83, R154, R155). -/
theorem decode_record_at (src : ByteSource) (a : Nat) :
    decode (.record ((List.range 5).map fun k => src.byte (a + k))) =
      if (recordAt src a).isEnd then .ok .endMark
      else .ok (.place (src.byte a) (src.byte (a + 1)) (src.byte (a + 2)) (src.byte (a + 3)) (src.byte (a + 4))) := rfl

/-- Five bytes below `LEN` at the Reader decode to an instruction, which the fetch of a record runs (R25, R154). -/
theorem runRecord_of_fits {s : State} (hfit : s.ea + 5 ≤ s.src.len) :
    ∃ i, decode (.record ((List.range 5).map fun k => s.src.byte (s.ea + k))) = .ok i ∧ runRecord s = exec i s := by
  rw [decode_record_at]
  rcases runRecord_cases s with ⟨hcut, -⟩ | ⟨-, hend, hr⟩ | ⟨-, hend, hr⟩
  · omega
  · exact ⟨_, if_pos hend, hr⟩
  · exact ⟨_, if_neg (by simp [hend]), hr⟩

/-- A record that is cut short: the bytes before `LEN` are consumed and the list is invalidated (R154, R163, R228). -/
theorem runRecord_of_cut {s : State} (hcut : s.src.len < s.ea + 5) :
    runRecord s = .next ((s.withDecode (s.decodeState.forward (s.src.len - s.ea))).invalidatePlacements.raise
      (.outOfBounds (s.ea + (s.src.len - s.ea)) 1)) := by
  rcases runRecord_cases s with ⟨-, hr⟩ | ⟨hfit, -⟩ | ⟨hfit, -⟩
  · exact hr
  · omega
  · omega

/-- `StepEffect s t`: `t` is a state a step can leave from `s`. -/
inductive StepEffect (s : State) : State → Prop
  | reset (rest : List HostInput) (hh : s.host = .rst :: rest) : StepEffect s { s.takeReset with host := rest }
  | faulted (he : s.err ≠ .noFault) : StepEffect s { s with host := s.host.tail }
  | idle (he : s.err = .noFault) (hb : s.busy = false) (hh : s.host = []) : StepEffect s s
  | command (w : CommandWord) (rest : List HostInput) (i : Instr) (t : State) (he : s.err = .noFault)
      (hb : s.busy = false) (hh : s.host = .cmd w :: rest) (hd : decode (.command w) = .ok i)
      (h : Effect { s with host := rest } i t) : StepEffect s t
  | illegal (w : CommandWord) (rest : List HostInput) (he : s.err = .noFault) (hb : s.busy = false)
      (hh : s.host = .cmd w :: rest) (hd : decode (.command w) = .error (.illegalCommand (opOf w))) :
      StepEffect s (({ s with host := rest } : State).raise (.illegalCommand (opOf w)))
  | record (i : Instr) (t : State) (he : s.err = .noFault) (hb : s.busy = true) (hfit : s.ea + 5 ≤ s.src.len)
      (hd : decode (.record ((List.range 5).map fun k => s.src.byte (s.ea + k))) = .ok i) (h : Effect s i t) :
      StepEffect s t
  | recordCut (he : s.err = .noFault) (hb : s.busy = true) (hcut : s.src.len < s.ea + 5) :
      StepEffect s ((s.withDecode (s.decodeState.forward (s.src.len - s.ea))).invalidatePlacements.raise
        (.outOfBounds (s.ea + (s.src.len - s.ea)) 1))

/-- The acceptance of a command word by an idle unit, as an effect of the step. -/
theorem stepEffect_of_runCommand {s t : State} {w : CommandWord} {rest : List HostInput} (he : s.err = .noFault)
    (hb : s.busy = false) (hh : s.host = .cmd w :: rest) (h : runCommand w { s with host := rest } = .next t) :
    StepEffect s t := by
  rcases runCommand_cases w { s with host := rest } with ⟨i, hd, -, hr⟩ | ⟨hd, hr⟩
  · exact .command w rest i t he hb hh hd (effect_of_exec (hr ▸ h))
  · cases hr.symm.trans h
    exact .illegal w rest he hb hh hd

/-- The next record of a stream in progress, as an effect of the step. -/
theorem stepEffect_of_runRecord {s t : State} (he : s.err = .noFault) (hb : s.busy = true)
    (h : runRecord s = .next t) : StepEffect s t := by
  by_cases hfit : s.ea + 5 ≤ s.src.len
  · obtain ⟨i, hd, hr⟩ := runRecord_of_fits hfit
    exact .record i t he hb hfit hd (effect_of_exec (hr ▸ h))
  · have hcut : s.src.len < s.ea + 5 := by omega
    cases (runRecord_of_cut hcut).symm.trans h
    exact .recordCut he hb hcut

/-- Every next state a step answers is one of its effects. -/
theorem stepEffect_of_step {s t : State} (h : step s = .next t) : StepEffect s t := by
  rcases step_cases s with
    ⟨rest, hh, hr⟩ | ⟨he, hr⟩ | ⟨he, hb, hr⟩ | ⟨he, hb, w, rest, hh, hr⟩ | ⟨he, hb, hh, hr⟩
  · cases hr.symm.trans h
    exact .reset rest hh
  · cases hr.symm.trans h
    exact .faulted he
  · exact stepEffect_of_runRecord he hb (hr ▸ h)
  · exact stepEffect_of_runCommand he hb hh (hr ▸ h)
  · cases hr.symm.trans h
    exact .idle he hb hh

/-! ### The invariant through the operations that store a result -/

/-- The stores of the invariant, a record stream in progress or not, once no list is under construction. -/
theorem Inv.sound_walkNil {s : State} (h : Inv s) : Sound { s with walk := [] } :=
  { h with walkNil := rfl }

theorem Inv.withHost {s : State} (h : Inv s) (host : List HostInput) : Inv { s with host := host } :=
  { h with }

theorem Sound.setResult {s : State} (h : Sound s) (v : Word) : Sound (s.setResult v) :=
  { h with }

theorem Sound.invalidateResult {s : State} (h : Sound s) : Sound s.invalidateResult :=
  { h with }

theorem Sound.storeFrames {s : State} (h : Sound s) {frames : List Frame} (hn : frames.length ≤ 255)
    (hf : ∀ f ∈ frames, FrameOk s.src.len s.maxPlacements f) : Sound (s.storeFrames frames) := by
  have hs : Sound { s with frames := frames } := { h with framesCount := hn, framesOk := hf }
  unfold State.storeFrames
  split
  · exact hs
  · rename_i f hlast
    exact hs.loadFrame (hf f (List.mem_of_getLast? hlast))

/-- A canvas written by a block of pixels keeps its canonical form and lists no pixel outside it (R206, R207). -/
theorem Sound.blitted {s : State} (h : Sound s) (x y : Nat) (rows : List (List (Option Rgba))) :
    Sound { s with canvas := blitRows x y rows s.canvas } :=
  { h with
    canvasCanonical := blitRows_keeps (P := fun c => Sparse.wf Rgba.blank c.pixels = true)
      (fun _ _ _ _ hc => Canvas.write_wf hc _ _ _) x y rows _ h.canvasCanonical
    canvasInside := blitRows_keeps (P := fun c => ∀ e ∈ c.pixels, e.1 < c.width * c.height)
      (fun _ _ _ _ hc => Canvas.write_inside hc _ _ _) x y rows _ h.canvasInside }

/-- Reset leaves stores that meet the invariant, from every state that does (R40, R250; log 20). -/
theorem Inv.takeReset {s : State} (h : Inv s) : Inv s.takeReset :=
  Sound.inv
    { h with
      baseBound := by simp
      cursorBound := by simp
      walkNil := rfl
      paletteOk := freePalette_length _
      tilesOk := by simp [TilesOk]
      placementsOk := by simp [PlacementsOk]
      framesCount := by simp [State.nframes]
      framesOk := by simp
      lbufOk := freeLocalBuffer_ok _
      outOk := freeOut_ok _
      blockOk := by simp }
    rfl rfl rfl

/-! ### The invariant through an instruction -/

/-- What a completed decode leaves in the Reader keeps the stores sound. -/
theorem Sound.decoded {α : Type} {s : State} (hs : Sound s) {m : Decoder α} (hm : m.Bounded) {a : α}
    {d : DecodeState} (h : m s.decodeState = .ok a d) : Sound (s.withDecode d) :=
  hs.withDecode ((hm _ hs.bounded).1 a d h)

/-- A faulting decode leaves the invariant, when the invalidation of its result keeps the stores sound (R226, R228). -/
theorem Sound.decodeFault {α : Type} {s : State} (hs : Sound s) {m : Decoder α} (hm : m.Bounded) {k : Raise}
    {d : DecodeState} (h : m s.decodeState = .error k d) {bad : State → State}
    (hbad : ∀ {s'}, Sound s' → Sound (bad s')) : Inv ((bad (s.withDecode d)).raise k) :=
  have ⟨hd, hk⟩ := (hm _ hs.bounded).2 k d h
  (hbad (hs.withDecode hd)).raise hk

theorem Sound.dropPlacements {s : State} (h : Sound s) : Sound s.invalidatePlacements :=
  Sound.invalidatePlacements (s := s) { h with walkNil := rfl }

theorem bounded_notReady : Raise.notReady.Bounded := by simp [Raise.Bounded, Raise.info, Raise.width]

theorem bounded_badOperand (v : Word) : (Raise.badOperand v).Bounded := by
  have := v.isLt
  exact ⟨by simp only [Raise.info]; omega, by simp [Raise.width]⟩

theorem bounded_illegalCommand (op : Byte) : (Raise.illegalCommand op).Bounded := by
  have := op.isLt
  exact ⟨by simp only [Raise.info]; omega, by simp [Raise.width]⟩

/-- A command an idle unit runs keeps the invariant, whether it completes or faults. -/
theorem Inv.after_command {s t : State} {i : Instr} (hinv : Inv s) (hb : s.busy = false) (he : s.err = .noFault)
    (hi : ¬ IsRecord i) (h : Effect s i t) : Inv t := by
  have hs := hinv.sound hb
  obtain ⟨h0, hw⟩ := hinv.errClear he
  have hlen := hs.lenBound
  cases h with
  | rebase b c =>
    have ht : Sound { s with base := b.toNat, cursor := c.toNat } :=
      { hs with baseBound := word_toNat_lt b, cursorBound := word_toNat_lt c }
    exact ht.inv h0 hw he
  | seek c =>
    have ht : Sound { s with cursor := c.toNat } := { hs with cursorBound := word_toNat_lt c }
    exact ht.inv h0 hw he
  | read8 v d h => exact ((hs.decoded (bounded_read8 hlen) h).setResult _).inv h0 hw he
  | read16 v d h => exact ((hs.decoded (bounded_read16 hlen) h).setResult _).inv h0 hw he
  | read32 v d h => exact ((hs.decoded (bounded_read32 hlen) h).setResult _).inv h0 hw he
  | lookup index v d h => exact ((hs.decoded (bounded_lookupEntry index) h).setResult _).inv h0 hw he
  | xform v => exact (hs.setResult _).inv h0 hw he
  | read8Fault k d h => exact hs.decodeFault (bounded_read8 hlen) h Sound.invalidateResult
  | read16Fault k d h => exact hs.decodeFault (bounded_read16 hlen) h Sound.invalidateResult
  | read32Fault k d h => exact hs.decodeFault (bounded_read32 hlen) h Sound.invalidateResult
  | lookupFault index k d h => exact hs.decodeFault (bounded_lookupEntry index) h Sound.invalidateResult
  | palette pal d h =>
    obtain ⟨-, rfl, -⟩ := decodePalette_eq_ok.1 h
    have ht : Sound { s.withDecode d with wpal := palette s.src s.ea, pvalid := true } :=
      { hs.decoded (bounded_decodePalette hlen) h with paletteOk := palette_length _ _ }
    exact ht.inv h0 hw he
  | paletteFault k d h => exact hs.decodeFault (bounded_decodePalette hlen) h Sound.invalidatePalette
  | tiles tiles d h =>
    obtain ⟨hfit, rfl, -⟩ := decodeTilemap_eq_ok.1 h
    have ht : Sound { s.withDecode d with wtiles := tilemap s.src s.ea, tvalid := true } :=
      { hs.decoded (bounded_decodeTilemap hlen) h with tilesOk := tilemap_ok hfit }
    exact ht.inv h0 hw he
  | tilesFault k d h => exact hs.decodeFault (bounded_decodeTilemap hlen) h Sound.invalidateTiles
  | placements list d h =>
    obtain ⟨hlist, -⟩ := decodePlacements_eq_ok.1 h
    have ht : Sound { s.withDecode d with wplist := list, lvalid := true } :=
      { hs.decoded (bounded_decodePlacements hlen _) h with placementsOk := placementList_ok hlist }
    exact ht.inv h0 hw he
  | placementsFault k d h => exact hs.decodeFault (bounded_decodePlacements hlen _) h Sound.dropPlacements
  | asset address strict frames d h =>
    obtain ⟨hasset, -, -⟩ := decodeSpriteAsset_eq_ok.1 h
    have ⟨_, _, _, hframes⟩ := hasset
    have hd := hs.beginAsset.decoded (bounded_decodeSpriteAsset hlen _ _ _) h
    exact (hd.storeFrames (assetAt_count hasset) (framesAt_ok hframes)).inv (by simpa) (by simpa) (by simpa)
  | assetFault address strict k d h =>
    exact hs.beginAsset.decodeFault (bounded_decodeSpriteAsset hlen _ _ _) h Sound.invalidateAsset
  | select index f h => exact (hs.loadFrame (hs.framesOk f (List.mem_of_getElem? h))).inv h0 hw he
  | selectFault index => exact hs.raise (bounded_badOperand index)
  | compose index p tiles hp ht hr =>
    exact (hs.storeBlock (hs.placementsOk.2 p (List.mem_of_getElem? hp)) ht).inv h0 hw he
  | blit index p tiles hp ht hr =>
    exact ((hs.storeBlock (hs.placementsOk.2 p (List.mem_of_getElem? hp)) ht).blitted _ _ _).inv h0 hw he
  | notReady i index hi => exact hs.raise bounded_notReady
  | noPlacement i index hi => exact hs.raise (bounded_badOperand index)
  | missingTile i index hi p hp =>
    refine hs.invalidateBlock.raise ⟨?_, by simp [Raise.width]⟩
    have hn : s.nt ≤ (s.src.len - 4) / 32 := hs.tilesOk.1
    have := p.startTile.isLt
    simp only [Raise.info]
    omega
  | place b0 b1 b2 b3 b4 list h => exact absurd (.inr ⟨b0, b1, b2, b3, b4, rfl⟩) hi
  | placeFault b0 b1 b2 b3 b4 k h => exact absurd (.inr ⟨b0, b1, b2, b3, b4, rfl⟩) hi
  | endMark => exact absurd (.inl rfl) hi

/-- The fault of a record is within its registers when the Reader is (R27, R156, R157). -/
theorem emitPlacement_bounded {max rstart : Nat} {b0 b1 b2 b3 b4 : Byte} {list : List Placement} {k : Raise}
    (hr : rstart < 2 ^ 35) (h : emitPlacement max rstart b0 b1 b2 b3 b4 list = .error k) : k.Bounded :=
  emit_bounded (r := ⟨b0, b1, b2, b3, b4⟩) hr h

/-- The Reader `n` bytes on, with no list under construction, where the last of them lies at or below `LEN`. -/
theorem Inv.sound_forward {s : State} (hinv : Inv s) {n : Nat} (hn : n = 0 ∨ s.ea + n ≤ s.src.len) :
    Sound { s with cursor := s.cursor + n, walk := [] } :=
  { hinv.sound_walkNil with
    cursorBound := by
      have := hinv.lenBound
      have := hinv.cursorBound
      simp only [State.ea] at hn
      show s.cursor + n < 2 ^ 34
      omega }

/-- A record of a stream in progress keeps the invariant (R162, R163). -/
theorem Inv.after_record {s t : State} {i : Instr} (hinv : Inv s) (hb : s.busy = true) (he : s.err = .noFault)
    (hfit : s.ea + 5 ≤ s.src.len) (hi : IsRecord i) (h : Effect s i t) : Inv t := by
  have hs := hinv.sound_forward (.inr hfit)
  obtain ⟨h0, hw⟩ := hinv.errClear he
  have hea : s.ea < 2 ^ 35 := by
    have := hinv.lenBound
    omega
  rcases hi with rfl | ⟨b0, b1, b2, b3, b4, rfl⟩
  · cases h with
    | endMark =>
      have ht : Sound
          { s with cursor := s.cursor + 5, wplist := s.walk, lvalid := true, walk := [], busy := false } :=
        { hs with placementsOk := hinv.walkOk }
      exact ht.inv h0 hw he
    | notReady _ _ hi | noPlacement _ _ hi | missingTile _ _ hi => simp at hi
  · cases h with
    | place _ _ _ _ _ list h =>
      exact { hinv with
        cursorBound := hs.cursorBound
        walkOk := emit_ok hinv.walkOk h
        walkIdle := fun hb' => absurd (hb.symm.trans hb') (by decide) }
    | placeFault _ _ _ _ _ k h =>
      exact Sound.raise (.invalidatePlacements hs) (emitPlacement_bounded hea h)
    | notReady _ _ hi | noPlacement _ _ hi | missingTile _ _ hi => simp at hi

/-- A record cut short keeps the invariant (R154, R163). -/
theorem Inv.after_recordCut {s : State} (hinv : Inv s) :
    Inv ((s.withDecode (s.decodeState.forward (s.src.len - s.ea))).invalidatePlacements.raise
      (.outOfBounds (s.ea + (s.src.len - s.ea)) 1)) := by
  have hs := hinv.sound_forward (n := s.src.len - s.ea) (by omega)
  refine Sound.raise (.invalidatePlacements hs) ⟨?_, by simp [Raise.width]⟩
  have := hinv.baseBound
  have := hinv.cursorBound
  have := hinv.lenBound
  simp only [Raise.info, State.ea]
  omega

/-- Settles O16: each effect of a step keeps the invariant, the two forms of a record among them. -/
theorem invKept : Obligations.InvKept := by
  intro s t hinv h
  cases stepEffect_of_step h with
  | reset rest => exact hinv.takeReset.withHost rest
  | faulted => exact hinv.withHost _
  | idle => exact hinv
  | command w rest i _ he hb hh hd h =>
    exact (hinv.withHost rest).after_command hb he (decode_command_not_isRecord hd) h
  | illegal w rest he hb => exact ((hinv.withHost rest).sound hb).raise (bounded_illegalCommand _)
  | record i _ he hb hfit hd h => exact hinv.after_record hb he hfit (decode_record_isRecord hd) h
  | recordCut => exact hinv.after_recordCut

end Sys2Proof.Machine
end

section
/-! PROOFS. Which instruction writes which register and store, the register map, the record step and the reset state
(10_state.md R20 to R40). -/

namespace Sys2Proof.Machine

open Layout

/-! ### What every step keeps -/

/-- No instruction writes the ByteSource or the safety bound, or sizes the canvas (R20, R51). -/
theorem Effect.parameters {s t : State} {i : Instr} (h : Effect s i t) :
    t.src = s.src ∧ t.maxPlacements = s.maxPlacements ∧ t.canvas.width = s.canvas.width ∧
      t.canvas.height = s.canvas.height := by
  cases h with
  | asset => simp
  | blit => simp
  | _ => exact ⟨rfl, rfl, rfl, rfl⟩

/-- No instruction sets `BUSY` (R28). -/
theorem Effect.busy_false {s t : State} {i : Instr} (h : Effect s i t) (hb : s.busy = false) : t.busy = false := by
  cases h with
  | read8Fault | read16Fault | read32Fault | lookupFault | paletteFault | tilesFault | placementsFault | assetFault
  | selectFault | notReady | noPlacement | missingTile | placeFault | endMark => rfl
  | asset => simpa using hb
  | _ => exact hb

/-- Settles O18: every effect of a step keeps the parameters. -/
theorem parametersFixed : Obligations.ParametersFixed := by
  intro s t h
  cases stepEffect_of_step h with
  | command _ _ _ _ _ _ _ _ h | record _ _ _ _ _ _ h => exact h.parameters
  | _ => exact ⟨rfl, rfl, rfl, rfl⟩

/-- Settles O24: from `BUSY = 0` no effect of a step sets `BUSY`. -/
theorem busyNeverSeen : Obligations.BusyNeverSeen := by
  intro s t hb h
  cases stepEffect_of_step h with
  | faulted | idle => exact hb
  | command _ _ _ _ _ _ _ _ h | record _ _ _ _ _ _ h => exact h.busy_false hb
  | reset | illegal | recordCut => rfl

/-! ### The Reader's base and `WARN` -/

/-- What an instruction can do to `BASE` and `WARN` (R22, R28, R172 to R174). -/
theorem Effect.base_warn {s t : State} {i : Instr} (h : Effect s i t) :
    (t.base = s.base ∧ t.warn = s.warn) ∨
    (∃ b c, i = .rebase b c ∧ t.base = b.toNat ∧ t.warn = s.warn) ∨
    (∃ a strict, i = .decasset a strict ∧ (t.base = a.toNat ∨ t.base = a.toNat + 4) ∧
      (t.warn = s.warn ∨ (t.warn = true ∧ strict = false ∧ ¬ MarkersMatch s.src a.toNat))) := by
  cases h with
  | rebase b c => exact .inr (.inl ⟨b, c, rfl, rfl, rfl⟩)
  | read8 v d h => exact .inl ((within_read8 _ _).1 _ _ h)
  | read8Fault k d h => exact .inl ((within_read8 _ _).2 _ _ h).1
  | read16 v d h => exact .inl ((within_read16 _ _).1 _ _ h)
  | read16Fault k d h => exact .inl ((within_read16 _ _).2 _ _ h).1
  | read32 v d h => exact .inl ((within_read32 _ _).1 _ _ h)
  | read32Fault k d h => exact .inl ((within_read32 _ _).2 _ _ h).1
  | lookup index v d h =>
    obtain rfl := (within_lookupEntry _ index _).1 _ _ h
    exact .inl ⟨rfl, rfl⟩
  | lookupFault index k d h =>
    obtain ⟨rfl, -⟩ := (within_lookupEntry _ index _).2 _ _ h
    exact .inl ⟨rfl, rfl⟩
  | palette pal d h => exact .inl ((within_decodePalette _ _).1 _ _ h)
  | paletteFault k d h => exact .inl ((within_decodePalette _ _).2 _ _ h).1
  | tiles tiles d h => exact .inl ((within_decodeTilemap _ _).1 _ _ h)
  | tilesFault k d h => exact .inl ((within_decodeTilemap _ _).2 _ _ h).1
  | placements list d h => exact .inl ((within_decodePlacements _ _ _).1 _ _ h)
  | placementsFault k d h => exact .inl ((within_decodePlacements _ _ _).2 _ _ h).1
  | asset a strict frames d h =>
    obtain ⟨hbase, hwarn⟩ := (within_decodeSpriteAsset _ _ _ _ _).1 _ _ h
    exact .inr (.inr ⟨a, strict, rfl, by simpa using hbase, by simpa using hwarn⟩)
  | assetFault a strict k d h =>
    obtain ⟨⟨hbase, hwarn⟩, -⟩ := (within_decodeSpriteAsset _ _ _ _ _).2 _ _ h
    exact .inr (.inr ⟨a, strict, rfl, hbase, hwarn⟩)
  | _ => exact .inl ⟨rfl, rfl⟩

/-- Settles O19, by what each effect does to `BASE`. -/
theorem baseWriters : Obligations.BaseWriters := by
  intro i s t h
  rcases (effect_of_exec h).base_warn with ⟨hb, -⟩ | ⟨b, c, hi, hb, -⟩ | ⟨a, strict, hi, hb, -⟩
  · exact .inl hb
  · exact .inr (.inl ⟨b, c, hi, hb⟩)
  · exact .inr (.inr ⟨a, strict, hi, hb⟩)

/-- Settles O21, by what each effect does to `WARN`. -/
theorem warnSticky : Obligations.WarnSticky := by
  intro i s t h
  rcases (effect_of_exec h).base_warn with
    ⟨-, hw⟩ | ⟨-, -, -, -, hw⟩ | ⟨a, strict, hi, -, hw | ⟨hw, rfl, hm⟩⟩
  · exact .inl hw
  · exact .inl hw
  · exact .inl hw
  · exact .inr ⟨hw, a, hi, hm⟩

/-! ### `RESULT` and `RVALID` -/

/-- The instructions that answer in `RESULT` (R26). -/
def WritesResult (i : Instr) : Prop :=
  i = .read8 ∨ i = .read16 ∨ i = .read32 ∨ (∃ n, i = .lookup n) ∨ ∃ v, i = .xform v

theorem not_writesResult_block {i : Instr} {index : Word} (hi : i = .compose index ∨ i = .blit index) :
    ¬ WritesResult i := by
  rcases hi with rfl | rfl <;> simp [WritesResult]

/-- What an instruction can do to `RESULT` and `RVALID`: answer, fail to answer, or leave both alone (R26). -/
theorem Effect.result_cases {s t : State} {i : Instr} (h : Effect s i t) :
    (WritesResult i ∧ t.err = s.err ∧ t.rvalid = true) ∨
    (WritesResult i ∧ t.err ≠ .noFault ∧ t.rvalid = false ∧ t.result = s.result) ∨
    (¬ WritesResult i ∧ t.rvalid = s.rvalid ∧ t.result = s.result) := by
  cases h with
  | read8 | read16 | read32 | lookup | xform => exact .inl ⟨by simp [WritesResult], rfl, rfl⟩
  | read8Fault k | read16Fault k | read32Fault k | lookupFault _ k =>
    exact .inr (.inl ⟨by simp [WritesResult], k.kind_ne, rfl, rfl⟩)
  | notReady _ _ hi | noPlacement _ _ hi | missingTile _ _ hi =>
    exact .inr (.inr ⟨not_writesResult_block hi, rfl, rfl⟩)
  | _ => exact .inr (.inr ⟨by simp [WritesResult], by simp, by simp⟩)

/-- Settles O20, by what each effect does to `RESULT` and `RVALID`. -/
theorem resultWriters : Obligations.ResultWriters := by
  intro i s t he h
  rcases (effect_of_exec h).result_cases with ⟨hi, herr, hv⟩ | ⟨hi, hfault⟩ | ⟨hi, hkept⟩
  · exact ⟨fun _ => .inl ⟨herr.trans he, hv⟩, fun hn => absurd hi hn⟩
  · exact ⟨fun _ => .inr hfault, fun hn => absurd hi hn⟩
  · exact ⟨fun hw => absurd hw hi, fun _ => hkept⟩

/-! ### The stores -/

section
variable {s t : State} {i : Instr}

theorem Effect.palette_writers (h : Effect s i t) :
    i = .decpal ∨ (∃ a strict, i = .decasset a strict) ∨ (∃ f, i = .selframe f) ∨
      (t.wpal = s.wpal ∧ t.pvalid = s.pvalid) := by
  cases h with
  | palette | paletteFault => exact .inl rfl
  | asset | assetFault => exact .inr (.inl ⟨_, _, rfl⟩)
  | select => exact .inr (.inr (.inl ⟨_, rfl⟩))
  | _ => exact .inr (.inr (.inr ⟨rfl, rfl⟩))

theorem Effect.tiles_writers (h : Effect s i t) :
    i = .dectile ∨ (∃ a strict, i = .decasset a strict) ∨ (∃ f, i = .selframe f) ∨
      (t.wtiles = s.wtiles ∧ t.tvalid = s.tvalid) := by
  cases h with
  | tiles | tilesFault => exact .inl rfl
  | asset | assetFault => exact .inr (.inl ⟨_, _, rfl⟩)
  | select => exact .inr (.inr (.inl ⟨_, rfl⟩))
  | _ => exact .inr (.inr (.inr ⟨rfl, rfl⟩))

theorem Effect.placements_writers (h : Effect s i t) :
    i = .decoam ∨ i = .endMark ∨ (∃ b0 b1 b2 b3 b4, i = .place b0 b1 b2 b3 b4) ∨
      (∃ a strict, i = .decasset a strict) ∨ (∃ f, i = .selframe f) ∨
      (t.wplist = s.wplist ∧ t.lvalid = s.lvalid) := by
  cases h with
  | placements | placementsFault => exact .inl rfl
  | endMark => exact .inr (.inl rfl)
  | place | placeFault => exact .inr (.inr (.inl ⟨_, _, _, _, _, rfl⟩))
  | asset | assetFault => exact .inr (.inr (.inr (.inl ⟨_, _, rfl⟩)))
  | select => exact .inr (.inr (.inr (.inr (.inl ⟨_, rfl⟩))))
  | _ => exact .inr (.inr (.inr (.inr (.inr ⟨rfl, rfl⟩))))

theorem Effect.delay_writers (h : Effect s i t) :
    (∃ a strict, i = .decasset a strict) ∨ (∃ f, i = .selframe f) ∨
      (t.wdelay = s.wdelay ∧ t.wendflag = s.wendflag) := by
  cases h with
  | asset | assetFault => exact .inl ⟨_, _, rfl⟩
  | select => exact .inr (.inl ⟨_, rfl⟩)
  | _ => exact .inr (.inr ⟨rfl, rfl⟩)

theorem Effect.frames_writers (h : Effect s i t) : (∃ a strict, i = .decasset a strict) ∨ t.frames = s.frames := by
  cases h with
  | asset | assetFault => exact .inl ⟨_, _, rfl⟩
  | _ => exact .inr rfl

theorem Effect.block_writers (h : Effect s i t) :
    (∃ p, i = .compose p) ∨ (∃ p, i = .blit p) ∨
      (t.lbuf = s.lbuf ∧ t.lw = s.lw ∧ t.lh = s.lh ∧ t.out = s.out ∧ t.outx = s.outx ∧ t.outy = s.outy ∧
        t.outw = s.outw ∧ t.outh = s.outh ∧ t.ovalid = s.ovalid) := by
  cases h with
  | compose => exact .inl ⟨_, rfl⟩
  | blit => exact .inr (.inl ⟨_, rfl⟩)
  | missingTile _ index hi => exact hi.imp (fun h => ⟨index, h⟩) (fun h => .inl ⟨index, h⟩)
  | asset => simp
  | _ => exact .inr (.inr ⟨rfl, rfl, rfl, rfl, rfl, rfl, rfl, rfl, rfl⟩)

end

/-- Settles O23: the writers of each store, over the effects of the instructions. -/
theorem storeWriters : Obligations.StoreWriters := by
  intro i s t h
  have he := effect_of_exec h
  exact ⟨he.palette_writers, he.tiles_writers, he.placements_writers, he.delay_writers, he.frames_writers,
    he.block_writers⟩

/-! ### The register map -/

theorem errKind_of_code (e : ErrKind) :
    [ErrKind.noFault, .outOfBounds, .unexpectedMarker, .unterminatedPlacementList, .invalidSizeIndex,
      .tileIndexOutOfRange, .notReady, .badOperand, .illegalCommand, .badSkip][e.code]? = some e := by
  cases e <;> rfl

theorem errKind_code_lt (e : ErrKind) : e.code < 10 := by cases e <;> decide

/-- Every field of `STATUS` fits its place (R27, R29). -/
theorem status_fields_lt (s : State) :
    s.busy.toNat < 2 ∧ s.faulted.toNat < 2 ∧ s.warn.toNat < 2 ∧ s.rvalid.toNat < 2 ∧ s.pvalid.toNat < 2 ∧
      s.tvalid.toNat < 2 ∧ s.lvalid.toNat < 2 ∧ s.ovalid.toNat < 2 ∧ s.err.code < 10 := by
  simp only [Bool.toNat_lt, errKind_code_lt, and_self]

/-- `STATUS` is the sum of its fields, none of which reaches into the next (R29). -/
theorem hostRead_status_toNat (s : State) :
    (s.hostRead .status).toNat =
      s.busy.toNat + 2 * s.faulted.toNat + 4 * s.warn.toNat + 8 * s.rvalid.toNat + 16 * s.pvalid.toNat
        + 32 * s.tvalid.toNat + 64 * s.lvalid.toNat + 128 * s.ovalid.toNat
        + 256 * s.err.code + 4096 * (s.ewidth % 8) := by
  have := status_fields_lt s
  change s.statusWord.toNat = _
  simp only [State.statusWord, BitVec.toNat_ofNat]
  omega

/-- Settles O26: each field of `STATUS` is read off the sum. -/
theorem statusRegister : Obligations.StatusRegister := by
  intro s hw w
  have hsum : w = _ := hostRead_status_toNat s
  clear_value w
  have := status_fields_lt s
  have hcode : w / 256 % 16 = s.err.code := by omega
  have hfault : w / 2 % 2 = s.faulted.toNat := by omega
  rw [hcode, hfault, Bool.toNat_eq_one, faulted_eq_true]
  refine ⟨?_, .rfl, ?_, ?_, ?_, ?_, ?_, ?_, errKind_of_code _, ?_, ?_⟩ <;> omega

theorem hostRead_base_toNat (s : State) : (s.hostRead .base).toNat = s.base % 2 ^ 34 := rfl

theorem hostRead_cursor_toNat (s : State) : (s.hostRead .cursor).toNat = s.cursor % 2 ^ 34 := rfl

theorem hostRead_nframes_toNat (s : State) : (s.hostRead .nframes).toNat = s.nframes % 2 ^ 8 := rfl

/-- The two words of `EINFO` make up its 35 bits (R29). -/
theorem einfoWords_toNat (s : State) :
    s.einfoWords.1.toNat + 2 ^ 32 * s.einfoWords.2.toNat = s.einfo % 2 ^ 35 := by
  change (BitVec.extractLsb' 0 32 (BitVec.ofNat 35 s.einfo)).toNat
    + 2 ^ 32 * (BitVec.extractLsb' 32 3 (BitVec.ofNat 35 s.einfo)).toNat = _
  simp only [BitVec.extractLsb'_toNat, BitVec.toNat_ofNat, Nat.shiftRight_eq_div_pow]
  omega

theorem hostRead_counts_toNat (s : State) :
    (s.hostRead .counts).toNat = min s.np 0xFFFF + 65536 * min s.nt 0xFFFF := by
  change s.countsWord.toNat = _
  simp only [State.countsWord, saturate16, BitVec.toNat_ofNat]
  omega

theorem hostRead_outpos_toNat (s : State) :
    (s.hostRead .outpos).toNat =
      s.outx.toNat + 2 ^ 8 * s.outy.toNat + 2 ^ 16 * s.outw.toNat + 2 ^ 24 * s.outh.toNat := by
  change s.outposWord.toNat = _
  simp only [State.outposWord, BitVec.toNat_ofNat]
  omega

/-- Settles O27: each register of the map is its value within its width, or the sum of its fields. -/
theorem registerMap : Obligations.RegisterMap := by
  refine ⟨rfl, fun s => ?_⟩
  simp only [hostRead_base_toNat, hostRead_cursor_toNat, hostRead_nframes_toNat, einfoWords_toNat,
    hostRead_counts_toNat, hostRead_outpos_toNat]
  refine ⟨rfl, Nat.mod_eq_of_lt, Nat.mod_eq_of_lt, Nat.mod_eq_of_lt, Nat.mod_eq_of_lt, ?_, ?_, ?_, ?_, ?_, ?_⟩ <;>
    omega

/-! ### The step of a record, and reset -/

theorem step_of_stream {s : State} (he : s.err = .noFault) (hb : s.busy = true)
    (hh : ∀ rest, s.host ≠ .rst :: rest) : step s = runRecord s := by
  rw [step_of_no_reset hh, runUnit, if_neg (by simp [faulted_eq_false.2 he]), if_pos hb]

/-- Settles O8: the step is the fetch of a record, and the record fits. -/
theorem stepRunsRecord : Obligations.StepRunsRecord := by
  intro s he hb hh hfit
  rw [step_of_stream he hb hh]
  exact runRecord_of_fits hfit

/-- Settles O13: the fields of `State.reset`. -/
theorem resetState : Obligations.ResetState :=
  ⟨rfl, rfl, rfl, rfl, rfl, rfl, rfl, rfl, rfl, rfl, rfl, rfl, rfl, rfl, rfl⟩

/-- At reset every list is empty but the palette, which has its 16 entries (R40). -/
theorem sound_reset : Sound State.reset where
  memCanonical := rfl
  memInside := by simp [State.reset]
  lenBound := by decide
  canvasCanonical := rfl
  canvasInside := by simp [State.reset]
  baseBound := by decide
  cursorBound := by decide
  walkNil := rfl
  paletteOk := rfl
  tilesOk := by simp [State.reset, TilesOk]
  placementsOk := by simp [State.reset, PlacementsOk]
  framesCount := by decide
  framesOk := by simp [State.reset]
  lbufOk := by simp [State.reset]
  outOk := by simp [State.reset]
  blockOk := by simp [State.reset]

/-- Settles O15: the stores at reset are sound and no fault is recorded. -/
theorem invAtReset : Obligations.InvAtReset := sound_reset.inv rfl rfl rfl

end Sys2Proof.Machine
end

section
/-! PROOFS. The ByteSource's read, its value and its widths (20_memory.md R53 to R56), and the writers of the canvas
(R52, R206). -/

namespace Sys2Proof.Machine

/-! ### `MemRead` -/

/-- `le` in the form R53 gives it: byte `k` counts `256^k` times. -/
theorem le_eq_sum (src : ByteSource) (a n : Nat) :
    src.le a n = ((List.range n).map fun k => 256 ^ k * (src.byte (a + k)).toNat).sum := by
  induction n with
  | zero => rfl
  | succ n ih =>
    have hlast : src.le (a + n) 1 = (src.byte (a + n)).toNat := le_one src (a + n)
    rw [le_add, ih, hlast, List.range_succ, List.map_append, List.sum_append]
    simp

/-- A read answers exactly when all of its bytes lie below `LEN` (R53). -/
theorem memRead_eq_ok {src : ByteSource} {a n v : Nat} :
    memRead src a n = .ok v ↔ a + n ≤ src.len ∧ v = src.le a n := by
  by_cases hfit : a + n ≤ src.len
  · simp [memRead_ok hfit, hfit, eq_comm]
  · simp [memRead_error (Nat.lt_of_not_le hfit), hfit]

/-- A read of `m + n` bytes that answers is the two narrower reads put together, the first less significant (R55). -/
theorem memRead_add {src : ByteSource} {a m n v : Nat} (h : memRead src a (m + n) = .ok v) :
    ∃ lo hi, memRead src a m = .ok lo ∧ memRead src (a + m) n = .ok hi ∧ v = lo + 256 ^ m * hi := by
  obtain ⟨hfit, rfl⟩ := memRead_eq_ok.1 h
  exact ⟨_, _, memRead_ok (by omega), memRead_ok (by omega), le_add src a m n⟩

/-- Settles O28: the check of `MemRead` decides, and `le` is the bounded sum of R53, whatever the width. -/
theorem memReadValue : Obligations.MemReadValue := by
  intro src a n _
  refine ⟨memRead_error, fun hfit => ⟨src.le a n, memRead_ok hfit, ?_, le_eq_sum src a n⟩⟩
  calc src.le a n < 256 ^ n := le_lt src a n
    _ = 2 ^ (8 * n) := by rw [Nat.pow_mul]

/-- Settles O29: a read of 4 bytes is cut at 2, one of 2 bytes at 1. -/
theorem mixedWidths : Obligations.MixedWidths :=
  fun _ _ _ => ⟨memRead_add (m := 2) (n := 2), memRead_add (m := 1) (n := 1)⟩

/-! ### The canvas -/

/-- An instruction leaves the canvas alone, or it is a `BLIT` that raises nothing (R52, R206). -/
theorem Effect.canvas_writers {s t : State} {i : Instr} (h : Effect s i t) :
    t.canvas = s.canvas ∨ ((∃ p, i = .blit p) ∧ t.err = s.err) := by
  cases h with
  | blit index => exact .inr ⟨⟨index, rfl⟩, rfl⟩
  | asset => exact .inl (by simp)
  | _ => exact .inl rfl

/-- Settles O22, by what each effect does to the canvas. -/
theorem canvasWriters : Obligations.CanvasWriters := by
  intro i s t he h
  exact (effect_of_exec h).canvas_writers.imp_right fun ⟨hi, herr⟩ => ⟨hi, herr.trans he⟩

end Sys2Proof.Machine
end

section
/-! PROOFS. The decoder and the encoder agree, the opcode table, the illegal commands, the two record forms, and the
acceptance of a command (30_encoding.md R71 to R73, R82, R83, R92). -/

namespace Sys2Proof

open Machine

/-! ### The operand fields that are part of a word (R72) -/

/-- `strict` is bit 0 of the command word. -/
theorem bOf_getLsbD_zero (w : CommandWord) : (bOf w).getLsbD 0 = decide (w.toNat % 2 = 1) := by
  simp [bOf, BitVec.getLsbD, Nat.testBit_zero]

/-- The operand of `XFORM` is `a[7:0]`. -/
theorem aOf_extractLsb'_byte (w : CommandWord) :
    (aOf w).extractLsb' 0 8 = BitVec.ofNat 8 (w.toNat / 2 ^ 32) := by
  apply BitVec.eq_of_toNat_eq
  simp only [aOf_eq, BitVec.extractLsb'_toNat, BitVec.toNat_ofNat, Nat.shiftRight_zero]
  omega

/-- A byte put into the low bits of an operand is read back from them. -/
theorem extractLsb'_setWidth_byte (v : Byte) : (v.setWidth 32).extractLsb' 0 8 = v := by
  have := v.isLt
  apply BitVec.eq_of_toNat_eq
  simp only [BitVec.extractLsb'_toNat, BitVec.toNat_setWidth, Nat.shiftRight_zero]
  omega

/-! ### Decoding an encoding -/

/-- The two forms of a record (R83). -/
theorem decode_record_five (b0 b1 b2 b3 b4 : Byte) :
    decode (.record [b0, b1, b2, b3, b4]) =
      if isSentinel b0 b1 b2 b3 b4 then .ok .endMark else .ok (.place b0 b1 b2 b3 b4) := rfl

/-- A command is decoded from the fields it was encoded in, and a record from its own bytes. -/
theorem decode_encode {i : Instr} (hwf : i.wf = true) : decode (encode i) = .ok i := by
  cases i with
  | place b0 b1 b2 b3 b4 =>
    have hs : isSentinel b0 b1 b2 b3 b4 = false := by simpa [Instr.wf] using hwf
    rw [encode, decode_record_five, hs]
    rfl
  | endMark => rfl
  | decasset address strict => cases strict <;> simp [encode, decode, decodeCommand]
  | xform offset => simp [encode, decode, decodeCommand, extractLsb'_setWidth_byte]
  | _ => simp [encode, decode, decodeCommand]

/-- Settles O1: the encoder puts each operand into the field the decoder takes it from. -/
theorem decodeEncodeAgree : Obligations.DecodeEncodeAgree := fun _ => decode_encode

/-- Every command is well formed. -/
theorem wf_of_not_isRecord {i : Instr} (h : ¬ IsRecord i) : i.wf = true := by
  cases i with
  | place b0 b1 b2 b3 b4 => exact absurd (.inr ⟨b0, b1, b2, b3, b4, rfl⟩) h
  | _ => rfl

/-- A record that decodes is the sentinel, or a `PLACE` that is not (R83). -/
theorem wf_of_decode_record {bytes : List Byte} {i : Instr} (h : decode (.record bytes) = .ok i) : i.wf = true := by
  simp only [decode] at h
  unfold decodeRecord at h
  split at h
  · split at h
    · cases h
      rfl
    next hs =>
      cases h
      simpa [Instr.wf] using hs
  · cases h

theorem wf_of_decode {c : Code} {i : Instr} (h : decode c = .ok i) : i.wf = true := by
  cases c with
  | command w => exact wf_of_not_isRecord (decode_command_not_isRecord h)
  | record bytes => exact wf_of_decode_record h

/-- Settles O2: what decodes is well formed, and the round trip of O1 does the rest. -/
theorem decodedIsWellFormed : Obligations.DecodedIsWellFormed :=
  fun _ _ h => ⟨wf_of_decode h, decode_encode (wf_of_decode h)⟩

/-! ### The opcode table -/

/-- Settles O3: `op` selects the row, and the operands are the fields of the word. -/
theorem commandOperands : Obligations.CommandOperands := by
  intro w op a b
  have ha : aOf w = a := aOf_eq w
  have hb : bOf w = b := bOf_eq w
  have hop (n : Nat) (hn : n < 256) (h : op = n) : opOf w = BitVec.ofNat 8 n := opOf_of_toNat h hn
  simp only [decode, decodeCommand, ← bOf_getLsbD_zero, ← aOf_extractLsb'_byte, ha, hb]
  refine ⟨?_, ?_, ?_, ?_, ?_, ?_, ?_, ?_, ?_, ?_, ?_, ?_, ?_, ?_⟩ <;> intro h <;> rw [hop _ (by decide) h] <;> rfl

/-- The ranges of R73 are what is outside the table of R72. -/
theorem not_mem_opcodes_iff (op : Byte) :
    op ∉ opcodes ↔ op.toNat = 0 ∨ (0x06 ≤ op.toNat ∧ op.toNat ≤ 0x0F) ∨ (0x16 ≤ op.toNat ∧ op.toNat ≤ 0x1F) ∨
      0x23 ≤ op.toNat := by
  simp only [opcodes, List.mem_cons, List.not_mem_nil, or_false, ← BitVec.toNat_inj, BitVec.reduceToNat]
  omega

/-- An `op` of the table always decodes (R72). -/
theorem decode_of_mem_opcodes {w : CommandWord} (h : opOf w ∈ opcodes) : ∃ i, decode (.command w) = .ok i := by
  simp only [decode]
  unfold decodeCommand
  split
  iterate 14 exact ⟨_, rfl⟩
  · simp_all [opcodes]

/-! ### The acceptance of a command -/

theorem runCommand_of_decode {w : CommandWord} {i : Instr} (h : decode (.command w) = .ok i) (s : State) :
    runCommand w s = exec i s := by
  rw [runCommand, h]

theorem runCommand_of_not_mem_opcodes {w : CommandWord} (h : opOf w ∉ opcodes) (s : State) :
    runCommand w s = .next (s.raise (.illegalCommand (opOf w))) := by
  simp only [runCommand, decode, decodeCommand_illegal h]

/-- In an idle unit a fault writes the fault registers alone. -/
theorem raise_of_idle {s : State} (hb : s.busy = false) (k : Raise) :
    s.raise k = { s with err := k.kind, einfo := k.info, ewidth := k.width } := by
  rw [State.raise, ← hb]

/-- Settles O4: the ranges of R73 are the complement of the table; outside it the command faults, inside it runs. -/
theorem illegalCommands : Obligations.IllegalCommands := by
  intro s w op hb
  have hop : op = (opOf w).toNat := (opOf_toNat w).symm
  rw [hop, ← not_mem_opcodes_iff, not_not]
  refine ⟨fun h => ?_, fun h => ?_⟩
  · rw [runCommand_of_not_mem_opcodes h, raise_of_idle hb]
    rfl
  · obtain ⟨i, hd⟩ := decode_of_mem_opcodes h
    exact ⟨i, hd, runCommand_of_decode hd s⟩

/-! ### The two forms of a record -/

/-- Of the values of five bytes only the sentinel's is all ones (R83). -/
theorem isSentinel_iff_value {b0 b1 b2 b3 b4 : Byte} :
    isSentinel b0 b1 b2 b3 b4 = true ↔
      b0.toNat + 2 ^ 8 * b1.toNat + 2 ^ 16 * b2.toNat + 2 ^ 24 * b3.toNat + 2 ^ 32 * b4.toNat = 0xFFFFFFFFFF := by
  have := b0.isLt
  have := b1.isLt
  have := b2.isLt
  have := b3.isLt
  have := b4.isLt
  simp only [isSentinel_iff, ← BitVec.toNat_inj, BitVec.reduceToNat]
  omega

/-- Settles O6: the sentinel test is the test of the 40-bit value. -/
theorem recordForms : Obligations.RecordForms := by
  intro b0 b1 b2 b3 b4 value
  rw [decode_record_five]
  exact ⟨fun h => if_pos (isSentinel_iff_value.2 h), fun h => if_neg fun hs => h (isSentinel_iff_value.1 hs)⟩

/-! ### The step of a command -/

/-- An idle unit that is not FAULTED accepts the command at the head of the host list (R71). -/
theorem step_of_command {s : State} {w : CommandWord} {rest : List HostInput} (he : s.err = .noFault)
    (hb : s.busy = false) (hh : s.host = .cmd w :: rest) : step s = runCommand w { s with host := rest } := by
  have hreset : ∀ rest', s.host ≠ .rst :: rest' := by simp [hh]
  rw [step_of_no_reset hreset, runUnit, if_neg (by simp [faulted_eq_false.2 he]), if_neg (by simp [hb]), hh]

/-- Settles O7: the step is the acceptance of the word, and a word that decodes runs. -/
theorem stepRunsCommand : Obligations.StepRunsCommand := by
  intro s w rest he hb hh
  have hstep := step_of_command he hb hh
  exact ⟨hstep, fun i hd => hstep.trans (runCommand_of_decode hd _)⟩

end Sys2Proof
end

section
/-! PROOFS. The Reader: a read that faults leaves it alone, `rebase` and `seek`, and the meaning of `READ8`, `READ16`
and `READ32` below and beyond `LEN` (40_reader.md R101 to R109). -/

namespace Sys2Proof.Machine

open Layout

/-! ### The value of a read, from its bytes (R54) -/

/-- The 32-bit number at `a`, byte by byte: `half` is so by definition, `word` is two halves. -/
theorem word_eq_bytes (src : ByteSource) (a : Nat) :
    word src a = (src.byte a).toNat + 2 ^ 8 * (src.byte (a + 1)).toNat
      + 2 ^ 16 * (src.byte (a + 2)).toNat + 2 ^ 24 * (src.byte (a + 3)).toNat := by
  simp only [word, half, byteNat, Nat.add_assoc, Nat.reduceAdd]
  omega

/-- Zero extension of a 16-bit value that was read keeps its number. -/
theorem zeroExtend_half (src : ByteSource) (a : Nat) :
    (BitVec.ofNat 16 (half src a)).zeroExtend 32 = BitVec.ofNat 32 (half src a) := by
  rw [BitVec.zeroExtend, ← BitVec.ofNat_toNat, ofNat_half_toNat]

/-! ### The Reader as a decoder (R104 to R106) -/

/-- A read faults exactly when one of its bytes lies at or beyond `LEN`, and then with `OutOfBounds` at its address
(R53). -/
theorem memRead_eq_error {src : ByteSource} {a n : Nat} {k : Raise} :
    memRead src a n = .error k ↔ src.len < a + n ∧ k = .outOfBounds a n := by
  by_cases hfit : a + n ≤ src.len
  · simp [memRead_ok hfit, Nat.not_lt.2 hfit]
  · simp [memRead_error (Nat.lt_of_not_le hfit), Nat.lt_of_not_le hfit, eq_comm]

/-- Settles O30: the fault says that the bytes do not fit, and a read that does not fit leaves the Reader. -/
theorem readerFaultAtomicity : Obligations.ReaderFaultAtomicity :=
  fun _ _ => ⟨fun h => read8_error (memRead_eq_error.1 h).1, fun h => read16_error (memRead_eq_error.1 h).1,
    fun h => read32_error (memRead_eq_error.1 h).1⟩

theorem exec_rebase (b c : Word) (s : State) :
    exec (.rebase b c) s = .next { s with base := b.toNat, cursor := c.toNat } := rfl

theorem exec_seek (c : Word) (s : State) : exec (.seek c) s = .next { s with cursor := c.toNat } := rfl

/-- Settles O31: what the two functions do to the Reader, and the commands that run them on the state. -/
theorem rebaseAndSeek : Obligations.RebaseAndSeek := ⟨rebase_apply, seek_apply, exec_rebase, exec_seek⟩

/-! ### The read commands (R107 to R109) -/

/-- A decoder that answers `v` from `n` bytes, run for its value: `RESULT`, `RVALID` and the cursor, nothing else. -/
theorem runDecoder_setResult {α : Type} {m : Decoder α} {s : State} {f : α → Word} {bad : State → State} {v : α}
    {n : Nat} (h : m s.decodeState = .ok v (s.decodeState.forward n)) :
    runDecoder m s (fun v s => s.setResult (f v)) bad =
      .next { s with cursor := s.cursor + n, result := f v, rvalid := true } := by
  rw [runDecoder_ok h, withDecode_forward]
  rfl

/-- A decoder whose read of `n` bytes at `ea()` faults, run for its value: the fault and `RVALID`, nothing else (R226 to
R228). -/
theorem runDecoder_invalidateResult {α : Type} {m : Decoder α} {s : State} {ok : α → State → State} {n : Nat}
    (h : m s.decodeState = .error (.outOfBounds s.ea n) s.decodeState) :
    runDecoder m s ok State.invalidateResult = .next { s with
      rvalid := false, err := .outOfBounds, einfo := s.ea, ewidth := n, busy := false } := by
  rw [runDecoder_error h, withDecode_decodeState]
  rfl

/-- Settles O32: the three reads complete, and `RESULT` is the number of their bytes. -/
theorem readsComplete : Obligations.ReadsComplete := by
  intro s
  refine ⟨fun h => ?read8, fun h => ?read16, fun h => ?read32⟩
  case read8 =>
    rw [exec_read8, runDecoder_setResult (read8_ok h), decodeState_ea, BitVec.zeroExtend, ← BitVec.ofNat_toNat]
  case read16 =>
    rw [exec_read16, runDecoder_setResult (read16_ok h), decodeState_ea, zeroExtend_half]
    rfl
  case read32 =>
    rw [exec_read32, runDecoder_setResult (f := fun v => v) (read32_ok h), decodeState_ea, word_eq_bytes]

/-- Settles O33: the three reads fault at `ea()` with their width. -/
theorem readsFault : Obligations.ReadsFault :=
  fun s => ⟨fun h => (exec_read8 s).trans (runDecoder_invalidateResult (read8_error h)),
    fun h => (exec_read16 s).trans (runDecoder_invalidateResult (read16_error h)),
    fun h => (exec_read32 s).trans (runDecoder_invalidateResult (read32_error h))⟩

end Sys2Proof.Machine
end

section
/-! PROOFS. The palette: `rgb8` on its channels, and `DECPAL` below `LEN` and cut short (41_palette.md R121 to R127). -/

namespace Sys2Proof.Machine

open Layout

/-! ### The 8-bit form of a palette entry (R124, R127) -/

theorem channel8_injective {c c' : BitVec 5} (h : channel8 c = channel8 c') : c = c' := by
  have hnat : 8 * c.toNat = 8 * c'.toNat := by rw [← channel8_toNat, ← channel8_toNat, h]
  exact BitVec.eq_of_toNat_eq (by omega)

/-- An 8-bit channel is a multiple of 8 and at most 248, so it is never 255 (R124). -/
theorem channel8_range (c : BitVec 5) :
    (channel8 c).toNat % 8 = 0 ∧ (channel8 c).toNat ≤ 248 ∧ channel8 c ≠ 255 := by
  have hc := c.isLt
  have hmax : (channel8 c).toNat ≤ 248 := by rw [channel8_toNat]; omega
  refine ⟨by rw [channel8_toNat, Nat.mul_mod_right], hmax, fun h => ?_⟩
  rw [h] at hmax
  exact absurd hmax (by decide)

/-- The raw channel is the quotient of the 8-bit one (R127). -/
theorem toNat_eq_channel8_div (c : BitVec 5) : c.toNat = (channel8 c).toNat / 8 := by
  rw [channel8_toNat, Nat.mul_div_cancel_left _ (by decide)]

theorem rgb8_injective {e e' : Colour} (h : e.rgb8 = e'.rgb8) : e = e' := by
  obtain ⟨r, g, b⟩ := e
  obtain ⟨r', g', b'⟩ := e'
  simp only [Colour.rgb8, Prod.mk.injEq] at h
  obtain ⟨hr, hg, hb⟩ := h
  rw [channel8_injective hr, channel8_injective hg, channel8_injective hb]

/-- Settles O34, channel by channel: `channel8` is multiplication by 8, and five bits times 8 fit in a byte. -/
theorem rgb8Scales : Obligations.Rgb8Scales := by
  refine fun e => ⟨⟨channel8_toNat _, channel8_toNat _, channel8_toNat _⟩, fun c hc => ?range, fun _ => rgb8_injective,
    ⟨toNat_eq_channel8_div _, toNat_eq_channel8_div _, toNat_eq_channel8_div _⟩⟩
  simp only [Colour.rgb8, List.mem_cons, List.not_mem_nil, or_false] at hc
  rcases hc with rfl | rfl | rfl <;> exact channel8_range _

/-! ### `DECPAL` (R125, R228) -/

/-- Settles O35: the decoder answers the palette of the layout 36 bytes on. -/
theorem decpalCompletes : Obligations.DecpalCompletes := by
  intro s hfit
  rw [exec_decpal, runDecoder_ok (decodePalette_ok (d := s.decodeState) hfit), withDecode_forward, decodeState_ea]

/-- With `m` colour words below `LEN` and the next one not, the fault is at word `m` (R121). -/
theorem decodePalette_error_at {src : ByteSource} {d : DecodeState} {m : Nat} (hm : m < 16)
    (hfit : d.ea + 4 + 2 * m ≤ src.len) (hcut : src.len < d.ea + 4 + 2 * m + 2) :
    decodePalette src d = .error (.outOfBounds (d.ea + 4 + 2 * m) 2) (d.forward (4 + 2 * m)) := by
  have hword : (src.len - (d.ea + 4)) / 2 = m := by omega
  rw [decodePalette_error_word (by omega) (by omega), hword]

/-- `DECPAL` whose decoder runs out of bytes `n` bytes on: the fault, `PVALID` and `WPAL`, nothing else (R226 to R228). -/
theorem exec_decpal_outOfBounds {s : State} {address width n : Nat}
    (h : decodePalette s.src s.decodeState = .error (.outOfBounds address width) (s.decodeState.forward n)) :
    ∃ pal k, exec .decpal s = .next { s with
      cursor := s.cursor + n, pvalid := false, wpal := pal
      err := .outOfBounds, einfo := address, ewidth := width, busy := false, fresh := k } := by
  refine ⟨freePalette s.fresh, s.fresh + 1, ?_⟩
  rw [exec_decpal, runDecoder_error h, withDecode_forward]
  rfl

/-- Settles O36: the two places where the decoder can run out of bytes, and what `DECPAL` makes of each. -/
theorem decpalFaults : Obligations.DecpalFaults := by
  refine fun s => ⟨fun hcut => ?size, fun m hm hfit hcut => ?word⟩
  case size => exact exec_decpal_outOfBounds (n := 0) (decodePalette_error_size hcut)
  case word =>
    rw [Nat.add_assoc s.cursor]
    exact exec_decpal_outOfBounds (decodePalette_error_at hm hfit hcut)

end Sys2Proof.Machine
end

section
/-! PROOFS. The tilemap: `DECTILE` below `LEN` and cut short (42_tilemap.md R136 to R139). -/

namespace Sys2Proof.Machine

open Layout

/-- Settles O37: the decoder answers the tiles of the layout, past the size field and 32 bytes for each tile. -/
theorem dectileCompletes : Obligations.DectileCompletes := by
  intro s hfit
  rw [exec_dectile, runDecoder_ok (decodeTilemap_ok (d := s.decodeState) hfit), withDecode_forward, decodeState_ea,
    Nat.add_assoc s.cursor, Layout.tileCount]

/-- `DECTILE` whose decoder runs out of bytes `n` bytes on: the fault, `TVALID` and `WTILES`, nothing else (R226 to
R228). -/
theorem exec_dectile_outOfBounds {s : State} {address width n : Nat}
    (h : decodeTilemap s.src s.decodeState = .error (.outOfBounds address width) (s.decodeState.forward n)) :
    ∃ tiles k, exec .dectile s = .next { s with
      cursor := s.cursor + n, tvalid := false, wtiles := tiles
      err := .outOfBounds, einfo := address, ewidth := width, busy := false, fresh := k } := by
  refine ⟨freeTiles s.src s.fresh, s.fresh + 1, ?_⟩
  rw [exec_dectile, runDecoder_error h, withDecode_forward]
  rfl

/-- Settles O38: the two places where the decoder can run out of bytes, and what `DECTILE` makes of each. -/
theorem dectileFaults : Obligations.DectileFaults := by
  refine fun s => ⟨fun hcut => ?size, fun hsize hcut => ?byte⟩
  case size => exact exec_dectile_outOfBounds (n := 0) (decodeTilemap_error_size hcut)
  case byte => exact exec_dectile_outOfBounds (decodeTilemap_error_byte hsize hcut)

end Sys2Proof.Machine
end

section
/-! PROOFS. The placement list: the two record forms, a record cut short, `DECOAM` with its faults, and `DECOAM` as the
run of its records (43_placement_list.md R151 to R166). -/

namespace Sys2Proof.Machine

open Layout

/-! ### The fields of a record (R82, R84, R157 to R159) -/

/-- The key of the size table, from the two raw bytes (R84). -/
theorem sizeKey_of_bytes (b3 b4 : Byte) :
    sizeKey (shapeIndexOf b4) (sizeIndexOf b3) = 4 * (b4.toNat % 4) + b3.toNat % 4 := by
  rw [sizeKey_eq, shapeIndexOf_toNat, sizeIndexOf_toNat]

/-- Settles O39: the sixteen keys one by one, and the placement takes its size from the entry of its key. -/
theorem sizeTable : Obligations.SizeTable := by
  refine ⟨by decide, fun b0 b1 b2 b3 b4 => ?_⟩
  simp only [placementOf, sizeKey_of_bytes]
  cases consts.sizeTable[4 * (b4.toNat % 4) + b3.toNat % 4]? with
  | none => rfl
  | some wh => exact ⟨_, rfl, rfl, rfl⟩

/-- Five bytes of a shape other than 3 stand for a placement (R157 to R159). -/
theorem exists_recordStandsFor (b0 b1 b2 b3 : Byte) {b4 : Byte} (hshape : b4.toNat % 4 ≠ 3) :
    ∃ p, RecordStandsFor b0.toNat b1.toNat b2.toNat b3.toNat b4.toNat p := by
  cases h : placementOf b0 b1 b2 b3 b4 with
  | ok p => exact ⟨p, placementOf_eq_ok.1 h⟩
  | error k => exact absurd (placementOf_eq_error.1 h).1 hshape

/-- With room in the list, the placement a record stands for is appended (R156, R159). -/
theorem emitPlacement_ok {max rstart : Nat} {b0 b1 b2 b3 b4 : Byte} {list : List Placement} {p : Placement}
    (hroom : list.length < max) (h : RecordStandsFor b0.toNat b1.toNat b2.toNat b3.toNat b4.toNat p) :
    emitPlacement max rstart b0 b1 b2 b3 b4 list = .ok (list ++ [p]) := by
  rw [emitPlacement, if_neg (Nat.not_le.2 hroom), placementOf_eq_ok.2 h]

/-- The two ways a record that is not the sentinel faults, the bound first (R156, R157, R164). -/
theorem emitPlacement_eq_error {max rstart : Nat} {b0 b1 b2 b3 b4 : Byte} {list : List Placement} {k : Raise} :
    emitPlacement max rstart b0 b1 b2 b3 b4 list = .error k ↔
      (max ≤ list.length ∧ k = .unterminatedPlacementList rstart) ∨
        (list.length < max ∧ b4.toNat % 4 = 3 ∧ k = .invalidSizeIndex (12 + b3.toNat % 4)) :=
  emit_eq_error (r := ⟨b0, b1, b2, b3, b4⟩)

/-! ### The record forms as steps of their own (R162, R163) -/

/-- Settles O40: five bytes of a legal shape stand for a placement, and `PLACE` appends it. -/
theorem placeAppends : Obligations.PlaceAppends := by
  intro s b0 b1 b2 b3 b4 hroom hshape
  obtain ⟨p, hp⟩ := exists_recordStandsFor b0 b1 b2 b3 hshape
  exact ⟨p, hp, exec_place_ok (emitPlacement_ok hroom hp)⟩

/-- A `PLACE` that raises `r`: the fault registers and the placement list, nothing else (R226 to R228). -/
theorem exec_place_raises {s : State} {b0 b1 b2 b3 b4 : Byte} {r : Raise}
    (h : emitPlacement s.maxPlacements s.ea b0 b1 b2 b3 b4 s.walk = .error r) :
    ∃ list k, exec (.place b0 b1 b2 b3 b4) s = .next { s with
      cursor := s.cursor + 5, walk := [], wplist := list, lvalid := false
      err := r.kind, einfo := r.info, ewidth := r.width, busy := false, fresh := k } :=
  ⟨_, _, exec_place_error h⟩

/-- Settles O41: the two faults of a record, and what `PLACE` makes of each. -/
theorem placeRaises : Obligations.PlaceRaises :=
  fun _ _ _ _ _ _ => ⟨fun hfull => exec_place_raises (emitPlacement_eq_error.2 (.inl ⟨hfull, rfl⟩)),
    fun hroom hshape => exec_place_raises (emitPlacement_eq_error.2 (.inr ⟨hroom, hshape, rfl⟩))⟩

theorem exec_endMark (s : State) :
    exec .endMark s = .next { s with
      cursor := s.cursor + 5, wplist := s.walk, lvalid := true, walk := [], busy := false } := rfl

/-- Settles O42: the meaning of `END`. -/
theorem endEndsTheList : Obligations.EndEndsTheList := exec_endMark

/-- Settles O9: the step is the fetch of a record, and the fetch faults at the first missing byte. -/
theorem recordCutShort : Obligations.RecordCutShort := by
  intro s he hb hh hcut
  rw [step_of_stream he hb hh, runRecord_of_cut hcut, add_tsub_eq_max]
  exact ⟨_, _, rfl⟩

/-! ### `DECOAM` as one operation (R151 to R161) -/

/-- Settles O43: the decoder completes exactly on a list of the layout, and a `DECOAM` that does not complete leaves
`LVALID = 0`. -/
theorem decoamDecodesTheList : Obligations.DecoamDecodesTheList := by
  intro s list
  rw [exec_decoam]
  constructor
  · intro hlist
    have hdec := (decodePlacements_eq_ok (d := s.decodeState)).2 ⟨hlist, rfl⟩
    rw [runDecoder_ok hdec, withDecode_forward, decodeState_ea, Nat.add_assoc s.cursor]
  · intro hexec
    rcases runDecoder_cases (decodePlacements s.src s.maxPlacements) s
        (fun list s => { s with wplist := list, lvalid := true }) State.invalidatePlacements with
      ⟨l, d, hdec, hrun⟩ | ⟨k, d, -, hrun⟩
    · have hl : l = list := congrArg State.wplist (Host.Outcome.next.inj (hrun.symm.trans hexec))
      exact hl ▸ (decodePlacements_eq_ok.1 hdec).1
    · have hvalid : false = true := congrArg State.lvalid (Host.Outcome.next.inj (hrun.symm.trans hexec))
      exact absurd hvalid (by decide)

/-- A `DECOAM` whose decoder raises `r` with `n` bytes consumed: the fault registers and the placement list, nothing
else (R226 to R228). -/
theorem exec_decoam_raises {s : State} {r : Raise} {n : Nat}
    (h : decodePlacements s.src s.maxPlacements s.decodeState = .error r (s.decodeState.forward n)) :
    ∃ list k, exec .decoam s = .next { s with
      cursor := s.cursor + n, lvalid := false, wplist := list, walk := []
      err := r.kind, einfo := r.info, ewidth := r.width, busy := false, fresh := k } := by
  refine ⟨freePlacements s.maxPlacements s.fresh, s.fresh + 1, ?_⟩
  rw [exec_decoam, runDecoder_error h, withDecode_forward]
  rfl

/-- Settles O45: the two faults of the skip field, before the loop begins. -/
theorem decoamSkipFaults : Obligations.DecoamSkipFaults := by
  refine fun s => ⟨fun hcut => ?field, fun hfit hskip => ?badSkip⟩
  case field => exact exec_decoam_raises (n := 0) (Decoder.bind_of_error (skipLeadIn_error_read hcut))
  case badSkip =>
    have h := exec_decoam_raises (Decoder.bind_of_error (skipLeadIn_error (d := s.decodeState) hfit hskip))
    simpa only [Raise.kind, Raise.info, Raise.width, decodeState_ea, ofNat_word_toNat] using h

/-- Behind a skip field that is right the decoder is the loop, from offset `skip` on (R153). -/
theorem decodePlacements_of_skip {src : ByteSource} {max : Nat} {d : DecodeState} (hfit : d.ea + 4 ≤ src.len)
    (hskip : 4 ≤ word src d.ea) :
    decodePlacements src max d = walkRecords src max (max + 1) [] (d.forward (word src d.ea)) := by
  rw [decodePlacements, Decoder.bind_of_ok (skipLeadIn_ok hfit hskip)]

/-- Five bytes that are not the sentinel are a `PLACE` record (R83, R155). -/
theorem recordAt_isEnd_eq_false {src : ByteSource} {a : Nat} (h : ¬ IsEnd src a) : (recordAt src a).isEnd = false :=
  Bool.eq_false_iff.2 (recordAt_isEnd.not.2 h)

/-- The loop over `room` records of a legal size and one more, none of them the sentinel, where `room` is what the bound
leaves: the last of them is one too many (R156). -/
theorem walkRecords_unterminated {src : ByteSource} {max room : Nat} {list : List Placement} {d : DecodeState}
    (hroom : list.length + room = max) (hfit : d.ea + 5 * (room + 1) ≤ src.len)
    (hend : ∀ k ≤ room, ¬ IsEnd src (d.ea + 5 * k))
    (hshape : ∀ k < room, byteNat src (d.ea + 5 * k + 4) % 4 ≠ 3) :
    walkRecords src max (room + 1) list d =
      .error (.unterminatedPlacementList (d.ea + 5 * room)) (d.forward (5 * (room + 1))) := by
  induction room generalizing list d with
  | zero =>
    exact walkRecords_raise hfit (recordAt_isEnd_eq_false (hend 0 le_rfl)) (emit_eq_error.2 (.inl ⟨by omega, rfl⟩))
  | succ room ih =>
    obtain ⟨p, hp⟩ := exists_recordStandsFor (src.byte d.ea) (src.byte (d.ea + 1)) (src.byte (d.ea + 2))
      (src.byte (d.ea + 3)) (hshape 0 (Nat.succ_pos room))
    have hnext (k : Nat) : (d.forward 5).ea + 5 * k = d.ea + 5 * (k + 1) := by rw [forward_ea]; omega
    have hrest := ih (list := list ++ [p]) (d := d.forward 5) (by rw [List.length_append, List.length_singleton]; omega)
      (by rwa [hnext]) (fun k hk => hnext k ▸ hend (k + 1) (by omega))
      (fun k hk => hnext k ▸ hshape (k + 1) (by omega))
    rw [walkRecords_place (by omega) (recordAt_isEnd_eq_false (hend 0 (Nat.zero_le _)))
      (emit_eq_ok.2 ⟨by omega, p, hp, rfl⟩), hrest, hnext, forward_forward, Nat.mul_succ 5 (room + 1),
      Nat.add_comm 5]

/-- Settles O46: the loop from behind the lead-in reaches the record that is one too many. -/
theorem decoamUnterminated : Obligations.DecoamUnterminated := by
  intro s first hsize hskip hfit hend hshape
  have hfirst : (s.decodeState.forward (word s.src s.ea)).ea = first := forward_ea _ _
  have hwalk := walkRecords_unterminated (list := []) (d := s.decodeState.forward (word s.src s.ea))
    (Nat.zero_add s.maxPlacements) (by rwa [hfirst]) (by rwa [hfirst]) (by rwa [hfirst])
  rw [forward_forward, hfirst] at hwalk
  rw [Nat.add_assoc s.cursor]
  exact exec_decoam_raises ((decodePlacements_of_skip (d := s.decodeState) hsize hskip).trans hwalk)

/-! ### `DECOAM` as the run of its records (R16, R166) -/

/-- Two decoders run alike when they decode alike and what becomes of the state is the same. -/
theorem runDecoder_congr {α : Type} {m m' : Decoder α} {s s' : State} {ok ok' : α → State → State}
    {bad bad' : State → State} (hdec : m s.decodeState = m' s'.decodeState)
    (hok : ∀ a d, ok a (s.withDecode d) = ok' a (s'.withDecode d))
    (hbad : ∀ k d, (bad (s.withDecode d)).raise k = (bad' (s'.withDecode d)).raise k) :
    runDecoder m s ok bad = runDecoder m' s' ok' bad' := by
  unfold runDecoder
  rw [hdec]
  cases m' s'.decodeState with
  | ok a d => simp only [hok]
  | error k d => simp only [hbad]

/-- With nothing presented, a unit that is FAULTED or idle stays as it is (R229, R251). -/
theorem step_still {s : State} (hh : s.host = []) (h : s.err ≠ .noFault ∨ s.busy = false) : step s = .next s := by
  rcases step_cases s with
    ⟨rest, hrst, -⟩ | ⟨-, hr⟩ | ⟨he, hb, -⟩ | ⟨-, -, w, rest, hcmd, -⟩ | ⟨-, -, -, hr⟩
  · simp [hh] at hrst
  · rw [hr, hh, List.tail_nil, ← hh]
  · simp [he, hb] at h
  · simp [hh] at hcmd
  · exact hr

/-- A step to a unit that is FAULTED or idle ends the run, whatever number of steps is left. -/
theorem run_of_last_step {s t : State} (n : Nat) (h : step s = .next t) (hh : t.host = [])
    (ht : t.err ≠ .noFault ∨ t.busy = false) : Host.Core.run core (n + 1) s = .next t := by
  rw [run_step n h, run_still n (step_still hh ht)]

/-- The end of a record stream: the list it gave is the working list, and none is under construction (R161, R163). -/
def State.endStream (list : List Placement) (s : State) : State :=
  { s with wplist := list, lvalid := true, walk := [], busy := false }

/-- The record steps, one more than the bound leaves, are the loop of R151 over the list under construction. -/
theorem run_stream {s : State} {room : Nat} (he : s.err = .noFault) (hb : s.busy = true) (hh : s.host = [])
    (hle : s.walk.length ≤ s.maxPlacements) (hroom : s.walk.length + room = s.maxPlacements + 1) :
    Host.Core.run core room s =
      runDecoder (walkRecords s.src s.maxPlacements room s.walk) s State.endStream State.invalidatePlacements := by
  induction room generalizing s with
  | zero => omega
  | succ room ih =>
    have hstep : step s = runRecord s := step_of_stream he hb (by simp [hh])
    rcases runRecord_cases s with ⟨hcut, hr⟩ | ⟨hfit, hend, hr⟩ | ⟨hfit, hend, hr⟩
    · rw [run_of_last_step room (hstep.trans hr) hh (.inr rfl),
        runDecoder_error (walkRecords_short (d := s.decodeState) hcut)]
      rfl
    · rw [run_of_last_step room (hstep.trans hr) hh (.inr rfl),
        runDecoder_ok (walkRecords_end (d := s.decodeState) hfit hend)]
      rfl
    · cases hemit : (recordAt s.src s.ea).emit s.maxPlacements s.ea s.walk with
      | error k =>
        rw [run_of_last_step room (hstep.trans (hr.trans (exec_place_error hemit))) hh (.inr rfl),
          runDecoder_error (walkRecords_raise (d := s.decodeState) hfit hend hemit)]
        rfl
      | ok list =>
        obtain ⟨hlt, p, -, rfl⟩ := emit_eq_ok.1 hemit
        have hlen : (s.walk ++ [p]).length = s.walk.length + 1 := List.length_append
        have hfull : (s.walk ++ [p]).length + room = s.maxPlacements + 1 := by omega
        have hrest := ih (s := { s with cursor := s.cursor + 5, walk := s.walk ++ [p] }) he hb hh
          (hlen.trans_le hlt) hfull
        rw [run_step room (hstep.trans (hr.trans (exec_place_ok hemit)))]
        exact hrest.trans (runDecoder_congr (walkRecords_place (d := s.decodeState) hfit hend hemit).symm
          (fun _ _ => rfl) fun _ _ => rfl)

/-- The unit behind the lead-in of a placement list, its record stream in progress (R153; log 10). -/
def State.beginStream (s : State) : State :=
  { s with cursor := s.cursor + word s.src s.ea, lvalid := false, busy := true }

/-- In an idle unit with no list under construction the end of the stream leaves what `DECOAM` leaves (R161). -/
theorem endStream_beginStream {s : State} (hb : s.busy = false) (hwalk : s.walk = []) (list : List Placement)
    (d : DecodeState) :
    State.endStream list (s.beginStream.withDecode d) = { s.withDecode d with wplist := list, lvalid := true } := by
  rw [State.endStream, ← hb, ← hwalk]
  rfl

/-- Settles O44: behind the lead-in both are the loop of R151 from the empty list, and they leave the same state, as no
list was under construction and the unit was idle. -/
theorem decoamIsTheRecordWalk : Obligations.DecoamIsTheRecordWalk := by
  intro s he hb hwalk hh hsize hskip
  have hempty : s.beginStream.walk.length = 0 := congrArg List.length hwalk
  have hfull : s.beginStream.walk.length + (s.maxPlacements + 1) = s.maxPlacements + 1 := by omega
  have hdec : walkRecords s.src s.maxPlacements (s.maxPlacements + 1) s.beginStream.walk s.beginStream.decodeState =
      decodePlacements s.src s.maxPlacements s.decodeState := by
    rw [decodePlacements_of_skip (d := s.decodeState) hsize hskip]
    exact congrArg (walkRecords _ _ _ · _) hwalk
  refine (run_stream (s := s.beginStream) he rfl hh (hempty.trans_le (Nat.zero_le _)) hfull).trans
    (.trans ?_ (exec_decoam s).symm)
  exact runDecoder_congr hdec (endStream_beginStream hb hwalk) fun _ _ => rfl

end Sys2Proof.Machine
end

section
/-! PROOFS. The asset decoder over an asset and in its header, `SELFRAME` and `LOOKUP` (44_asset.md R171 to R185). -/

namespace Sys2Proof.Machine

open Layout

/-! ### A `DECASSET` that completes (R171 to R179, R184, R185) -/

/-- The Reader and `WARN` after an asset, as the layout says them. -/
theorem afterAsset_eq_layout (src : ByteSource) (a : Nat) (frames : List Frame) (warn : Bool) :
    afterAsset src a frames warn =
      ⟨a + 4, assetCursor src a frames, warn || !(byteNat src (a + 1) == 0 && byteNat src (a + 2) == 1)⟩ := by
  rw [afterAsset, cursorAfterFrames_eq_assetCursor, markers_beq]

/-- A `WARN` that the same asset has set stays as it is (R174). -/
theorem afterAsset_afterAsset_warn (src : ByteSource) (a : Nat) (frames : List Frame) (warn : Bool) :
    afterAsset src a frames (afterAsset src a frames warn).warn = afterAsset src a frames warn := by
  simp only [afterAsset, Bool.or_assoc, Bool.or_self]

/-- The state a `DECASSET` of `a` that decodes `frames` leaves (R179). -/
def State.afterDecasset (s : State) (a : Word) (frames : List Frame) : State :=
  (s.beginAsset.withDecode (afterAsset s.src a.toNat frames s.warn)).storeFrames frames

@[simp] theorem State.afterDecasset_err (s : State) (a : Word) (frames : List Frame) :
    (s.afterDecasset a frames).err = s.err := State.storeFrames_err _ _

@[simp] theorem State.afterDecasset_frames (s : State) (a : Word) (frames : List Frame) :
    (s.afterDecasset a frames).frames = frames := State.storeFrames_frames _ _

@[simp] theorem State.afterDecasset_src (s : State) (a : Word) (frames : List Frame) :
    (s.afterDecasset a frames).src = s.src := State.storeFrames_src _ _

@[simp] theorem State.afterDecasset_maxPlacements (s : State) (a : Word) (frames : List Frame) :
    (s.afterDecasset a frames).maxPlacements = s.maxPlacements := State.storeFrames_maxPlacements _ _

@[simp] theorem State.afterDecasset_warn (s : State) (a : Word) (frames : List Frame) :
    (s.afterDecasset a frames).warn = (afterAsset s.src a.toNat frames s.warn).warn := State.storeFrames_warn _ _

/-- Storing the same frames again, from the state they were stored in, changes nothing (R184). -/
theorem State.afterDecasset_afterDecasset (s : State) (a : Word) (frames : List Frame) :
    (s.afterDecasset a frames).afterDecasset a frames = s.afterDecasset a frames := by
  rw [State.afterDecasset, State.afterDecasset_src, State.afterDecasset_warn, afterAsset_afterAsset_warn]
  unfold State.afterDecasset State.storeFrames
  cases frames.getLast? with
  | none => rfl
  | some f => rfl

theorem exec_decasset_of_asset {s : State} {a : Word} {strict : Bool} {frames : List Frame}
    (hasset : AssetAt s.src s.maxPlacements a.toNat frames) (hmarkers : strict = true → MarkersMatch s.src a.toNat) :
    exec (.decasset a strict) s = .next (s.afterDecasset a frames) := by
  rw [exec_decasset, runDecoder_ok (decodeSpriteAsset_eq_ok.2 ⟨hasset, hmarkers, rfl⟩)]
  rfl

/-- Everything a `DECASSET` can do: decode an asset, or raise a fault (R171, R179). -/
theorem exec_decasset_cases {s t : State} {a : Word} {strict : Bool} (h : exec (.decasset a strict) s = .next t) :
    (∃ frames, AssetAt s.src s.maxPlacements a.toNat frames ∧ (strict = true → MarkersMatch s.src a.toNat) ∧
      t = s.afterDecasset a frames) ∨
    ∃ k d, t = (s.beginAsset.withDecode d).invalidateAsset.raise k := by
  rcases runDecoder_cases (decodeSpriteAsset s.src s.maxPlacements a strict) s.beginAsset
    (fun frames s => s.storeFrames frames) State.invalidateAsset with ⟨frames, d, hdec, hrun⟩ | ⟨k, d, -, hrun⟩
  · obtain ⟨hasset, hmarkers, rfl⟩ := decodeSpriteAsset_eq_ok.1 hdec
    exact .inl ⟨frames, hasset, hmarkers, Host.Outcome.next.inj (h.symm.trans hrun)⟩
  · exact .inr ⟨k, d, Host.Outcome.next.inj (h.symm.trans hrun)⟩

/-- A `DECASSET` that leaves no fault has decoded an asset (R171, R179). -/
theorem asset_of_exec_decasset {s t : State} {a : Word} {strict : Bool} (h : exec (.decasset a strict) s = .next t)
    (ht : t.err = .noFault) :
    ∃ frames, AssetAt s.src s.maxPlacements a.toNat frames ∧ (strict = true → MarkersMatch s.src a.toNat) ∧
      t = s.afterDecasset a frames := by
  rcases exec_decasset_cases h with hdone | ⟨k, d, rfl⟩
  · exact hdone
  · exact absurd ht k.kind_ne

/-- Settles O47: the decoder completes on an asset, and the last frame, if any, is loaded. -/
theorem decassetDecodesTheAsset : Obligations.DecassetDecodesTheAsset := by
  intro s a strict frames hasset hmarkers
  rw [exec_decasset_of_asset hasset hmarkers, State.afterDecasset, afterAsset_eq_layout, State.storeFrames]
  cases frames.getLast? with
  | none => rfl
  | some f => rfl

/-- Settles O48: a `DECASSET` that leaves no fault has decoded an asset, whose frames are in `FRAMES`. -/
theorem decassetCompletesOnlyOnAssets : Obligations.DecassetCompletesOnlyOnAssets := by
  intro s t a strict _ h ht
  obtain ⟨frames, hasset, hmarkers, rfl⟩ := asset_of_exec_decasset h ht
  exact ⟨(s.afterDecasset_frames a frames).symm ▸ hasset, hmarkers⟩

/-- Settles O51: the asset that was decoded lies there still, and storing its frames again changes nothing. -/
theorem decassetIsDeterministic : Obligations.DecassetIsDeterministic := by
  intro s t a strict _ h ht
  obtain ⟨frames, hasset, hmarkers, rfl⟩ := asset_of_exec_decasset h ht
  rw [exec_decasset_of_asset (frames := frames) (by simpa using hasset) (by simpa using hmarkers),
    State.afterDecasset_afterDecasset]

/-! ### A `DECASSET` that faults (R179, R183, R228) -/

/-- A header cut short faults at its first missing byte, strict or not (R172). -/
theorem decodeSpriteAsset_header_cut {src : ByteSource} {bound : Nat} {a : Word} {strict : Bool} {d : DecodeState}
    (hcut : src.len < a.toNat + 4) :
    decodeSpriteAsset src bound a strict d =
      .error (.outOfBounds (max a.toNat src.len) 1) ⟨a.toNat, src.len - a.toNat, d.warn⟩ := by
  rw [decodeSpriteAsset, Decoder.bind_of_ok (rebase_apply _ _ _), Decoder.bind_of_error (readHeader_error hcut)]
  simp only [ea_mk, Nat.add_zero, add_tsub_eq_max, DecodeState.forward, Nat.zero_add]

/-- Wrong markers stop a strict decode behind the four bytes of the header (R172, R174). -/
theorem decodeSpriteAsset_wrong_markers {src : ByteSource} {bound : Nat} {a : Word} {d : DecodeState}
    (hfit : a.toNat + 4 ≤ src.len) (hwrong : ¬ MarkersMatch src a.toNat) :
    decodeSpriteAsset src bound a true d =
      .error (.unexpectedMarker (src.byte (a.toNat + 1)) (src.byte (a.toNat + 2))) ⟨a.toNat, 4, d.warn⟩ := by
  rw [decodeSpriteAsset, Decoder.bind_of_ok (rebase_apply _ _ _), Decoder.bind_of_ok (readHeader_ok (by exact hfit))]
  exact Decoder.bind_of_error (checkMarkers_strict (markersMatch_iff.not.1 hwrong))

/-- A `DECASSET` whose decoder raises `r`: the Reader and `WARN` as the decode left them, the fault registers, the frame
store and the working stores, nothing else (R226 to R228). -/
theorem exec_decasset_raises {s : State} {a : Word} {strict : Bool} {r : Raise} {d : DecodeState}
    (h : decodeSpriteAsset s.src s.maxPlacements a strict s.decodeState = .error r d) :
    ∃ pal tiles list delay flag k, exec (.decasset a strict) s = .next { s with
      base := d.base, cursor := d.cursor, warn := d.warn, frames := []
      wpal := pal, wtiles := tiles, wplist := list, wdelay := delay, wendflag := flag
      pvalid := false, tvalid := false, lvalid := false
      err := r.kind, einfo := r.info, ewidth := r.width, busy := false, fresh := k } :=
  ⟨_, _, _, _, _, _, (exec_decasset a strict s).trans (runDecoder_error h)⟩

/-- Settles O49: the two faults of the header, and what `DECASSET` makes of each. -/
theorem decassetHeaderFaults : Obligations.DecassetHeaderFaults := by
  refine fun s a strict => ⟨fun hcut => ?cut, fun hfit hwrong => ?markers⟩
  case cut => exact exec_decasset_raises (decodeSpriteAsset_header_cut hcut)
  case markers => exact exec_decasset_raises (decodeSpriteAsset_wrong_markers hfit hwrong)

/-- Settles O50: of the two ways a `DECASSET` can end only the fault leaves `ERR` not 0, and it invalidates the frame
store and the working stores. -/
theorem decassetFaultExposesNothing : Obligations.DecassetFaultExposesNothing := by
  intro s t a strict he h ht
  rcases exec_decasset_cases h with ⟨frames, -, -, rfl⟩ | ⟨k, d, rfl⟩
  · exact absurd ((s.afterDecasset_err a frames).trans he) ht
  · exact ⟨rfl, rfl, rfl, rfl, rfl⟩

/-! ### `SELFRAME` (R180) -/

theorem exec_selframe_some {s : State} {index : Word} {f : Frame} (h : s.frames[index.toNat]? = some f) :
    exec (.selframe index) s = .next (s.loadFrame f) := by
  rw [exec, execSelframe, h]

theorem exec_selframe_none {s : State} {index : Word} (h : s.frames[index.toNat]? = none) :
    exec (.selframe index) s = .next (s.raise (.badOperand index)) := by
  rw [exec, execSelframe, h]

/-- Settles O52: the row of the opcode table, and the frame store with and without the index. -/
theorem selframeSelects : Obligations.SelframeSelects := by
  refine ⟨fun w hop => ?decode, fun s index => ⟨fun f hf => exec_selframe_some hf, fun hlen => ?none⟩⟩
  case decode =>
    obtain ⟨-, -, -, -, -, -, -, -, -, hselframe, -⟩ := commandOperands w
    exact hselframe hop
  case none => exact exec_selframe_none (List.getElem?_eq_none hlen)

/-! ### `LOOKUP` (R181, R182) -/

/-- The mask keeps the low 24 bits of a word (R181). -/
theorem and_lookupMask (n : Nat) : BitVec.ofNat 32 n &&& consts.lookupMask = BitVec.ofNat 32 (n % 2 ^ 24) := by
  apply BitVec.eq_of_toNat_eq
  have hmask : consts.lookupMask.toNat = 2 ^ 24 - 1 := rfl
  rw [BitVec.toNat_and, hmask, BitVec.toNat_ofNat, BitVec.toNat_ofNat, Nat.and_two_pow_sub_one_eq_mod]
  omega

theorem lookupEntry_ok {src : ByteSource} {index : Word} {d : DecodeState}
    (hfit : lookupAddress index + 4 ≤ src.len) :
    lookupEntry src index d = .ok (BitVec.ofNat 32 (word src (lookupAddress index) % 2 ^ 24)) d := by
  simp only [lookupEntry, memRead_ok hfit, le_four, and_lookupMask]

theorem lookupEntry_error {src : ByteSource} {index : Word} {d : DecodeState}
    (hcut : src.len < lookupAddress index + 4) :
    lookupEntry src index d = .error (.outOfBounds (lookupAddress index) 4) d := by
  simp only [lookupEntry, memRead_error hcut]

/-- Settles O53: the row of the opcode table, the range of the address, and the read at it below and beyond `LEN`. -/
theorem lookupReads : Obligations.LookupReads := by
  refine ⟨fun w hop => ?decode, fun s index => ⟨?range, fun hfit => ?done, fun hcut => ?fault⟩⟩
  case decode =>
    obtain ⟨-, -, -, -, -, -, -, -, -, -, hlookup, -⟩ := commandOperands w
    exact hlookup hop
  case range =>
    have := index.isLt
    omega
  case done => exact (exec_lookup index s).trans (runDecoder_ok (lookupEntry_ok hfit))
  case fault => exact (exec_lookup index s).trans (runDecoder_error (lookupEntry_error hcut))

end Sys2Proof.Machine
end

section
/-! PROOFS. The compositor: `COMPOSE` and `BLIT` with their faults, the two flips, the offset transform, and the canvas
pixel by pixel (45_compositor.md R191 to R207). -/

namespace Sys2Proof.Machine

open Layout

/-! ### A composition whose tiles all exist (R202 to R204) -/

theorem ready_of_valid {s : State} (ht : s.tvalid = true) (hp : s.pvalid = true) (hl : s.lvalid = true) :
    s.ready = true := by
  rw [State.ready, ht, hp, hl]
  rfl

theorem ready_eq_false_iff {s : State} :
    s.ready = false ↔ s.tvalid = false ∨ s.pvalid = false ∨ s.lvalid = false := by
  simp only [State.ready, Bool.and_eq_false_iff, or_assoc]

/-- The state in which `COMPOSE` leaves `s` when placement `p` has all its tiles. -/
def State.afterCompose (s : State) (p : Placement) : State :=
  s.storeBlock p ((s.wtiles.drop p.startTile.toNat).take (p.w * p.h))

theorem exec_compose_of_tiles {s : State} {index : Word} {p : Placement} (hr : s.ready = true)
    (hp : s.wplist[index.toNat]? = some p) (hfit : p.startTile.toNat + p.w * p.h ≤ s.nt) :
    exec (.compose index) s = .next (s.afterCompose p) := by
  rw [exec, execCompose, composePlacement_done hr hp hfit]
  rfl

/-- `BLIT` of such a placement writes the block that `COMPOSE` stores (R206). -/
theorem exec_blit_of_tiles {s : State} {index : Word} {p : Placement} (hr : s.ready = true)
    (hp : s.wplist[index.toNat]? = some p) (hfit : p.startTile.toNat + p.w * p.h ≤ s.nt) :
    exec (.blit index) s = .next { s.afterCompose p with
      canvas := blitRows (s.afterCompose p).outx.toNat (s.afterCompose p).outy.toNat (s.afterCompose p).out s.canvas } := by
  rw [exec, execBlit, composePlacement_done hr hp hfit]
  rfl

theorem State.afterCompose_lbuf (s : State) (p : Placement) :
    (s.afterCompose p).lbuf = (List.range (8 * p.h)).map fun y => (List.range (8 * p.w)).map fun x =>
      shownIndex s.wtiles p x y :=
  buffer_eq_shownIndex p s.wtiles

theorem State.afterCompose_out (s : State) (p : Placement) :
    (s.afterCompose p).out = (List.range (8 * p.h)).map fun y => (List.range (8 * p.w)).map fun x =>
      shownPixel s.wpal (shownIndex s.wtiles p x y) :=
  resolve_buffer_eq p s.wpal s.wtiles

theorem xformByte_eq_ofNat (v : Byte) : xformByte v = BitVec.ofNat 8 (v.toNat + 128) :=
  BitVec.eq_of_toNat_eq (xformByte_toNat v)

/-- Settles O54: the stored buffer and block are the index formula of R203, the position the offset transform. -/
theorem composeShowsThePlacement : Obligations.ComposeShowsThePlacement := by
  intro s index p ht hpal hl hp hfit
  rw [exec_compose_of_tiles (ready_of_valid ht hpal hl) hp hfit, ← s.afterCompose_lbuf p, ← s.afterCompose_out p,
    ← xformByte_eq_ofNat, ← xformByte_eq_ofNat]
  rfl

/-! ### The faults (R191, R196) -/

/-- `COMPOSE` and `BLIT` end alike when the composition faults. -/
theorem exec_of_faulted {s t : State} {index : Word} {i : Instr} (hi : i = .compose index ∨ i = .blit index)
    (h : composePlacement index s = .faulted t) : exec i s = .next t := by
  rcases hi with rfl | rfl
  · rw [exec, execCompose, h]
  · rw [exec, execBlit, h]

/-- Settles O55: each fault is the composition's own, in the order of its tests. -/
theorem compositionFaults : Obligations.CompositionFaults := by
  refine fun s index i hi => ⟨fun hnot => ?notReady, fun ht hpal hl => ⟨fun hnp => ?badOperand, ?missingTile⟩⟩
  case notReady => exact exec_of_faulted hi (composePlacement_notReady (ready_eq_false_iff.2 hnot))
  case badOperand => exact exec_of_faulted hi (composePlacement_badOperand (ready_of_valid ht hpal hl) hnp)
  case missingTile =>
    intro p hp hn hmissing
    exact ⟨_, _, _, _, _, _, _, _, _,
      exec_of_faulted hi (composePlacement_missingTile (ready_of_valid ht hpal hl) hp hn hmissing)⟩

/-! ### The horizontal flip (R197) -/

theorem mirrorRows_mirrorRows (buffer : List (List Byte)) : mirrorRows (mirrorRows buffer) = buffer := by
  simp [mirrorRows]

/-- The palette is resolved pixel by pixel, so it commutes with the mirror. -/
theorem resolveBuffer_mirrorRows (pal : List Colour) (buffer : List (List Byte)) :
    resolveBuffer pal (mirrorRows buffer) = (resolveBuffer pal buffer).map List.reverse := by
  simp [resolveBuffer, mirrorRows, Function.comp_def, List.map_reverse]

theorem Placement.buffer_of_no_hflip {p : Placement} (h : p.hflip = false) (tiles : List Tile) :
    p.buffer tiles = composeBuffer p.w p.h tiles := by
  rw [Placement.buffer, h]
  rfl

theorem Placement.buffer_hflip {p : Placement} (h : p.hflip = false) (tiles : List Tile) :
    Placement.buffer { p with hflip := true } tiles = mirrorRows (p.buffer tiles) := by
  rw [p.buffer_of_no_hflip h]
  rfl

/-- Setting `hflip` on a placement that had it clear mirrors `LBUF` and `OUT` and changes nothing else of the block. -/
theorem State.afterCompose_hflip (s : State) {p : Placement} (h : p.hflip = false) (list : List Placement) :
    State.afterCompose { s with wplist := list } { p with hflip := true } = { s.afterCompose p with
      wplist := list
      lbuf := (s.afterCompose p).lbuf.map List.reverse
      out := (s.afterCompose p).out.map List.reverse } := by
  simp only [State.afterCompose, State.storeBlock, Placement.buffer_hflip h, resolveBuffer_mirrorRows]
  rfl

/-- Settles O56: the flip is the mirror of the whole composed buffer, and resolving the palette keeps it. -/
theorem horizontalFlipMirrors : Obligations.HorizontalFlipMirrors := by
  refine ⟨mirrorRows_mirrorRows, fun s t index p ht hpal hl hp hflip hfit hexec => ?_⟩
  have hr : s.ready = true := ready_of_valid ht hpal hl
  obtain rfl : s.afterCompose p = t := Host.Outcome.next.inj ((exec_compose_of_tiles hr hp hfit).symm.trans hexec)
  have hindex : index.toNat < s.wplist.length := (List.getElem?_eq_some_iff.1 hp).1
  refine ⟨p.buffer_of_no_hflip hflip _, ?_⟩
  rw [← s.afterCompose_hflip hflip]
  exact exec_compose_of_tiles hr (List.getElem?_set_self hindex) hfit

/-! ### The vertical flip (R198) -/

/-- The state with the `vflip` bits of the working list set by `g`. -/
def State.withVflip (g : Placement → Bool) (s : State) : State :=
  { s with wplist := s.wplist.map fun p => { p with vflip := g p } }

/-- The same change to the state in which a composition ends, completed or faulted. -/
def Composed.map (f : State → State) : Composed → Composed
  | .done s => .done (f s)
  | .faulted s => .faulted (f s)

/-- A composition reads no `vflip` bit, neither where it completes nor where it faults. -/
theorem composePlacement_withVflip (g : Placement → Bool) (index : Word) (s : State) :
    composePlacement index (s.withVflip g) = (composePlacement index s).map (State.withVflip g) := by
  have hr : (s.withVflip g).ready = s.ready := rfl
  have hget : (s.withVflip g).wplist[index.toNat]? =
      s.wplist[index.toNat]?.map fun p => { p with vflip := g p } := List.getElem?_map
  unfold composePlacement
  rw [hr, hget]
  by_cases hready : s.ready = true
  · rw [if_pos hready, if_pos hready]
    cases s.wplist[index.toNat]? with
    | none => rfl
    | some p =>
      simp only [Option.map_some, State.withVflip]
      cases fetchTiles s.wtiles p.startTile.toNat (p.w * p.h) with
      | error k => rfl
      | ok tiles => rfl
  · rw [if_neg hready, if_neg hready]
    rfl

/-- Both instructions read the list only through the composition. -/
theorem exec_withVflip {s t : State} {index : Word} {i : Instr} (hi : i = .compose index ∨ i = .blit index)
    (hexec : exec i s = .next t) (g : Placement → Bool) : exec i (s.withVflip g) = .next (t.withVflip g) := by
  have hcompose := composePlacement_withVflip g index s
  cases h : composePlacement index s with
  | faulted u =>
    obtain rfl : u = t := Host.Outcome.next.inj ((exec_of_faulted hi h).symm.trans hexec)
    rw [h] at hcompose
    exact exec_of_faulted hi hcompose
  | done u =>
    rw [h] at hcompose
    rcases hi with rfl | rfl
    · rw [exec, execCompose, h] at hexec
      rw [exec, execCompose, hcompose, ← Host.Outcome.next.inj hexec]
      rfl
    · rw [exec, execBlit, h] at hexec
      rw [exec, execBlit, hcompose, ← Host.Outcome.next.inj hexec]
      rfl

/-- `COMPOSE` and `BLIT` leave the working list as it was. -/
theorem wplist_of_exec_block {s t : State} {index : Word} {i : Instr} (hi : i = .compose index ∨ i = .blit index)
    (hexec : exec i s = .next t) : t.wplist = s.wplist := by
  have hwriters := (effect_of_exec hexec).placements_writers
  have hkept : t.wplist = s.wplist ∧ t.lvalid = s.lvalid := by
    rcases hi with rfl | rfl
    · simpa using hwriters
    · simpa using hwriters
  exact hkept.1

/-- Settles O57: the change of the bits goes through either instruction, and the list is the one it was. -/
theorem verticalFlipIsIgnored : Obligations.VerticalFlipIsIgnored := by
  intro s t index i g hi hexec
  simpa only [State.withVflip, wplist_of_exec_block hi hexec] using exec_withVflip hi hexec g

/-! ### The offset transform (R204, R205) -/

/-- Adding 128 to a byte inverts its bit 7 and nothing else. -/
theorem xformByte_eq_xor (v : Byte) : xformByte v = v ^^^ 0x80 := by
  revert v
  decide

/-- Settles O58: the row of the opcode table, the forms of the transform, and the answer of `XFORM`. -/
theorem offsetTransform : Obligations.OffsetTransform := by
  refine ⟨fun w hop => ?decode, fun v => ⟨xformByte_toNat v, xformByte_eq_xor v, fun hle => ?low, fun hgt => ?high,
    fun s => ?answer⟩⟩
  case decode =>
    obtain ⟨-, -, -, -, -, -, -, -, -, -, -, -, hxform, -⟩ := commandOperands w
    exact hxform hop
  case low =>
    rw [xformByte_toNat]
    omega
  case high =>
    have := v.isLt
    rw [xformByte_toNat]
    omega
  case answer =>
    have hvalue : (xformByte v).zeroExtend 32 = BitVec.ofNat 32 ((v.toNat + 128) % 256) := by
      rw [← xformByte_toNat, BitVec.ofNat_toNat]
    rw [← hvalue]
    rfl

/-! ### The canvas under a block (R206, R207) -/

/-- The pixel of a grid given by columns within rows. -/
theorem getElem?_grid {α : Type} (m n i j : Nat) (f : Nat → Nat → α) :
    (((List.range m).map fun y => (List.range n).map fun x => f x y)[j]?.bind fun row => row[i]?) =
      if i < n ∧ j < m then some (f i j) else none := by
  by_cases hj : j < m
  · by_cases hi : i < n <;> simp [hi, hj]
  · simp [hj]

/-- What a palette index shows is opaque already, so the alpha `BLIT` writes is its own (R200, R206). -/
theorem shownPixel_opaque {pal : List Colour} {v : Byte} {q : Rgba} (h : shownPixel pal v = some q) :
    { q with a := 255 } = q := by
  unfold shownPixel at h
  split at h
  · cases h
  · cases h
    rfl

/-- Settles O59: `BLIT` is `COMPOSE` but for the canvas, which changes exactly under the block's opaque pixels. -/
theorem blitWritesOpaquePixels : Obligations.BlitWritesOpaquePixels := by
  intro s index p ht hpal hl hp hfit hwf ox oy
  have hr : s.ready = true := ready_of_valid ht hpal hl
  refine ⟨_, _, exec_compose_of_tiles hr hp hfit, exec_blit_of_tiles hr hp hfit, blitRows_width .., blitRows_height ..,
    fun x y => ?_⟩
  have hx : (s.afterCompose p).outx.toNat = ox := xformByte_toNat p.offsetX
  have hy : (s.afterCompose p).outy.toNat = oy := xformByte_toNat p.offsetY
  rw [pixel_blitRows hwf, hx, hy, s.afterCompose_out, getElem?_grid]
  by_cases hin : x < s.canvas.width ∧ y < s.canvas.height ∧ ox ≤ x ∧ x < ox + 8 * p.w ∧ oy ≤ y ∧ y < oy + 8 * p.h
  · rw [if_pos hin, if_pos (by omega), if_pos (by omega)]
    cases hq : shownPixel s.wpal (shownIndex s.wtiles p (x - ox) (y - oy)) with
    | none => rfl
    | some q => exact congrArg some (shownPixel_opaque hq)
  · rw [if_neg hin]
    by_cases hcanvas : oy ≤ y ∧ ox ≤ x ∧ x < s.canvas.width ∧ y < s.canvas.height
    · rw [if_pos hcanvas, if_neg (by omega)]
    · rw [if_neg hcanvas]

end Sys2Proof.Machine
end

section
/-! PROOFS. Faults: FAULTED is left by reset only, commands to a FAULTED unit have no effect, and which instruction can
raise which fault (60_exceptions.md R221 to R229, R242). -/

namespace Sys2Proof.Machine

/-! ### FAULTED (R229, R242) -/

/-- A FAULTED unit that is not reset spends what the host presents, and nothing else changes (R229). -/
theorem step_of_faulted {s : State} (he : s.err ≠ .noFault) (hh : ∀ rest, s.host ≠ .rst :: rest) :
    step s = .next { s with host := s.host.tail } := by
  rw [step_of_no_reset hh, runUnit, if_pos (faulted_eq_true.2 he)]

/-- Settles O10: what the host presents decides, and reset clears the fault and the stores' valid bits. -/
theorem faultedIsTerminal : Obligations.FaultedIsTerminal := by
  intro s he
  refine ⟨fun hh => ⟨_, step_of_faulted he hh⟩, fun rest hh => ⟨_, step_of_reset hh, ?_⟩⟩
  exact ⟨rfl, rfl, rfl, rfl, rfl, rfl, rfl⟩

/-- Settles O11, by induction on the commands: each is spent by a step that changes nothing else. -/
theorem faultedProgramHasNoEffect : Obligations.FaultedProgramHasNoEffect := by
  intro s words he
  induction words with
  | nil => rfl
  | cons w words ih =>
    have spent : step (s.withProgram (w :: words)) = .next (s.withProgram words) :=
      step_of_faulted (s := s.withProgram (w :: words)) he nofun
    exact (run_step words.length spent).trans ih

/-! ### Which instruction can raise which fault (R221 to R225, R227) -/

/-- The instructions that read the ByteSource themselves (R221). -/
def ReadsSource (i : Instr) : Prop :=
  i = .read8 ∨ i = .read16 ∨ i = .read32 ∨ i = .decpal ∨ i = .dectile ∨ i = .decoam ∨
    (∃ a strict, i = .decasset a strict) ∨ ∃ n, i = .lookup n

/-- The instructions that decode placement records (R223, R224). -/
def DecodesRecords (i : Instr) : Prop :=
  i = .decoam ∨ (∃ a strict, i = .decasset a strict) ∨ ∃ b0 b1 b2 b3 b4, i = .place b0 b1 b2 b3 b4

/-- The instructions that compose a block (R225). -/
def ComposesBlock (i : Instr) : Prop := (∃ p, i = .compose p) ∨ ∃ p, i = .blit p

/-- `CanRaise i k`: `i` is an instruction whose rules name the fault `k`; an `OutOfBounds` has the width of a read (R221). -/
def CanRaise (i : Instr) : Raise → Prop
  | .outOfBounds _ n => ReadsSource i ∧ (n = 1 ∨ n = 2 ∨ n = 4)
  | .unexpectedMarker _ _ => ∃ a, i = .decasset a true
  | .unterminatedPlacementList _ => DecodesRecords i
  | .invalidSizeIndex _ => DecodesRecords i
  | .tileIndexOutOfRange _ => ComposesBlock i
  | .notReady => ComposesBlock i
  | .badOperand _ => ComposesBlock i ∨ ∃ f, i = .selframe f
  | .illegalCommand _ => False
  | .badSkip _ => i = .decoam ∨ ∃ a strict, i = .decasset a strict

theorem Raise.IsBounds.canRaise {i : Instr} {k : Raise} (hk : k.IsBounds) (hi : ReadsSource i) : CanRaise i k := by
  cases k with
  | outOfBounds => exact ⟨hi, hk⟩
  | _ => exact hk.elim

theorem Raise.IsList.canRaise {k : Raise} (hk : k.IsList) : CanRaise .decoam k := by
  cases k with
  | outOfBounds => exact ⟨by simp [ReadsSource], hk⟩
  | unterminatedPlacementList | invalidSizeIndex | badSkip => exact .inl rfl
  | _ => exact hk.elim

theorem Raise.IsAsset.canRaise {a : Word} {strict : Bool} {k : Raise} (hk : k.IsAsset strict) :
    CanRaise (.decasset a strict) k := by
  cases k with
  | outOfBounds => exact ⟨by simp [ReadsSource], hk⟩
  | unexpectedMarker =>
    obtain rfl : strict = true := hk
    exact ⟨a, rfl⟩
  | unterminatedPlacementList | invalidSizeIndex => exact .inr (.inl ⟨a, strict, rfl⟩)
  | badSkip => exact .inr ⟨a, strict, rfl⟩
  | _ => exact hk.elim

theorem canRaise_of_emitPlacement {max rstart : Nat} {b0 b1 b2 b3 b4 : Byte} {list : List Placement} {k : Raise}
    (h : emitPlacement max rstart b0 b1 b2 b3 b4 list = .error k) : CanRaise (.place b0 b1 b2 b3 b4) k := by
  rcases emitPlacement_eq_error.1 h with ⟨-, rfl⟩ | ⟨-, -, rfl⟩ <;> exact .inr (.inr ⟨b0, b1, b2, b3, b4, rfl⟩)

theorem composesBlock_of_eq {i : Instr} {index : Word} (hi : i = .compose index ∨ i = .blit index) : ComposesBlock i :=
  hi.imp (fun h => ⟨index, h⟩) fun h => ⟨index, h⟩

/-- What an instruction can do to `ERR` and `EWIDTH`: leave both alone, or take a fault that its rules name (R227). -/
theorem Effect.fault_cases {s t : State} {i : Instr} (h : Effect s i t) :
    (t.err = s.err ∧ t.ewidth = s.ewidth) ∨ ∃ k, CanRaise i k ∧ t.err = k.kind ∧ t.ewidth = k.width := by
  cases h with
  | read8Fault k d h =>
    exact .inr ⟨k, ((within_read8 _ _).2 _ _ h).2.canRaise (by simp [ReadsSource]), rfl, rfl⟩
  | read16Fault k d h =>
    exact .inr ⟨k, ((within_read16 _ _).2 _ _ h).2.canRaise (by simp [ReadsSource]), rfl, rfl⟩
  | read32Fault k d h =>
    exact .inr ⟨k, ((within_read32 _ _).2 _ _ h).2.canRaise (by simp [ReadsSource]), rfl, rfl⟩
  | lookupFault index k d h =>
    exact .inr ⟨k, ((within_lookupEntry _ index _).2 _ _ h).2.canRaise (by simp [ReadsSource]), rfl, rfl⟩
  | paletteFault k d h =>
    exact .inr ⟨k, ((within_decodePalette _ _).2 _ _ h).2.canRaise (by simp [ReadsSource]), rfl, rfl⟩
  | tilesFault k d h =>
    exact .inr ⟨k, ((within_decodeTilemap _ _).2 _ _ h).2.canRaise (by simp [ReadsSource]), rfl, rfl⟩
  | placementsFault k d h => exact .inr ⟨k, ((within_decodePlacements _ _ _).2 _ _ h).2.canRaise, rfl, rfl⟩
  | assetFault a strict k d h => exact .inr ⟨k, ((within_decodeSpriteAsset _ _ _ _ _).2 _ _ h).2.canRaise, rfl, rfl⟩
  | selectFault index => exact .inr ⟨.badOperand index, .inr ⟨index, rfl⟩, rfl, rfl⟩
  | notReady _ _ hi => exact .inr ⟨.notReady, composesBlock_of_eq hi, rfl, rfl⟩
  | noPlacement _ index hi => exact .inr ⟨.badOperand index, .inl (composesBlock_of_eq hi), rfl, rfl⟩
  | missingTile _ _ hi p =>
    exact .inr ⟨.tileIndexOutOfRange (max p.startTile.toNat s.nt), composesBlock_of_eq hi, rfl, rfl⟩
  | placeFault _ _ _ _ _ k h => exact .inr ⟨k, canRaise_of_emitPlacement h, rfl, rfl⟩
  | asset => exact .inl (by simp)
  | _ => exact .inl ⟨rfl, rfl⟩

/-- Settles O25: from `ERR = 0` and `EWIDTH = 0` the registers show a fault only when the instruction raised it, and each
kind has its instructions in `CanRaise`. -/
theorem faultKinds : Obligations.FaultKinds := by
  intro i s t he hw h asset block
  rcases (effect_of_exec h).fault_cases with ⟨herr, hwidth⟩ | ⟨k, hk, herr, hwidth⟩
  · simp [herr, he, hwidth, hw]
  · rw [herr, hwidth]
    cases k with
    | outOfBounds => simpa [Raise.kind, Raise.width, CanRaise, ReadsSource, asset] using hk
    | unexpectedMarker | unterminatedPlacementList | invalidSizeIndex | tileIndexOutOfRange | notReady | badOperand
    | badSkip => simpa [Raise.kind, Raise.width, CanRaise, DecodesRecords, ComposesBlock, asset, block] using hk
    | illegalCommand => exact hk.elim

end Sys2Proof.Machine
end

section
/-! PROOFS. Every instruction and every step answers a next state, what a reset leaves, and that an idle unit runs nothing
(70_reset_and_hazards.md R250, R251, R261). -/

namespace Sys2Proof.Machine

/-! ### Every operation ends (R261) -/

theorem exec_answers (i : Instr) (s : State) : ∃ t, exec i s = .next t := by
  obtain ⟨t, ht, -⟩ := exec_effect i s
  exact ⟨t, ht⟩

/-- A command word runs its instruction, or takes the fault of an `op` outside the table (R73). -/
theorem runCommand_answers (w : CommandWord) (s : State) : ∃ t, runCommand w s = .next t := by
  rcases runCommand_cases w s with ⟨i, -, -, hr⟩ | ⟨-, hr⟩
  · rw [hr]
    exact exec_answers i s
  · exact ⟨_, hr⟩

/-- A record of the stream runs as `END` or `PLACE`, or a byte of it is missing and the stream faults (R154, R163). -/
theorem runRecord_answers (s : State) : ∃ t, runRecord s = .next t := by
  rcases runRecord_cases s with ⟨-, hr⟩ | ⟨-, -, hr⟩ | ⟨-, -, hr⟩
  · exact ⟨_, hr⟩
  · rw [hr]
    exact exec_answers .endMark s
  · rw [hr]
    exact exec_answers _ s

theorem step_answers (s : State) : ∃ t, step s = .next t := by
  rcases step_cases s with
    ⟨rest, -, hreset⟩ | ⟨-, hfaulted⟩ | ⟨-, -, hrecord⟩ | ⟨-, -, w, rest, -, hcommand⟩ | ⟨-, -, -, hidle⟩
  · exact ⟨_, hreset⟩
  · exact ⟨_, hfaulted⟩
  · rw [hrecord]
    exact runRecord_answers s
  · rw [hcommand]
    exact runCommand_answers w _
  · exact ⟨_, hidle⟩

/-- Settles O17: no instruction stops, so neither does a command or a record, nor a step that runs one. -/
theorem everyStepAnswers : Obligations.EveryStepAnswers := ⟨exec_answers, step_answers⟩

/-! ### Reset and the idle unit (R250, R251) -/

/-- Settles O12: `RST` at the head of the host's list is taken first, and the registers are those of `takeReset`. -/
theorem resetTakesEffect : Obligations.ResetTakesEffect := by
  intro s rest hh
  refine ⟨_, step_of_reset hh, ?_⟩
  simp [State.nt, State.np, State.nframes]

/-- Settles O14: an idle unit to which nothing is presented stays as it is. -/
theorem idleRunsNothing : Obligations.IdleRunsNothing := fun _ hbusy hhost => step_still hhost (.inr hbusy)

end Sys2Proof.Machine
end

section
/-! PROOFS. Sample words of the test vectors: the canonical encodings among them are instances of the round trip, the
others are read by the opcode table (95_test_vectors.md, parts 2.4, 2.7 and 3). -/

namespace Sys2Proof

/-- A code that is the canonical encoding of a well-formed instruction decodes to it (R92). -/
theorem decode_of_encode_eq {c : Code} {i : Instr} (hc : encode i = c) (hwf : i.wf = true) : decode c = .ok i :=
  hc ▸ decode_encode hwf

/-- Settles O5: ten of the samples are canonical encodings, and three are words with ignored operand bits set (R72),
which are decoded as they stand. -/
theorem sampleWords : Obligations.SampleWords := by
  refine ⟨?rebase, ?read8, ?decpal, ?dectile, ?decoam, ?decassetStrict, ?decassetLenient, ?lookup, ?xform, ?blit,
    ?place, ?placeOneOtherByte, ?endMark⟩
  case read8 | decassetLenient | xform => decide
  all_goals exact decode_of_encode_eq rfl rfl

end Sys2Proof
end
